-- ==== Sys2Proof/Word.lean ====
section
/-!
DEFINITION. The plain data of the HX711 protocol engine: the widths of spec/00_scope.md rule R10 and
spec/30_encoding.md rule R80, and the level of a line (rule R13).
-/

namespace Sys2Proof

/-- A command word: `op` in bits 4:2, `mode` in bits 1:0 (30_encoding.md R80). -/
abbrev CmdWord := BitVec 5

/-- MODE and the `mode` field: a Mode as its trailing pulse count (10_state.md R21). -/
abbrev ModeBits := BitVec 2

/-- The accumulator's width, NBITS = 24 (10_state.md R28). -/
abbrev Raw := BitVec 24

/-- The returned sample's width, RESULT_W = 32 (30_encoding.md R87). -/
abbrev Sample := BitVec 32

/-- SEQ.CNT's width (10_state.md R20). -/
abbrev Count := BitVec 5

/-- A line level (00_scope.md R13). -/
inductive Level where
  | low
  | high
  deriving DecidableEq, Repr, Inhabited

/-- The three Modes, named by their pulse counts alone (10_state.md R21, R22: no gain and no channel
is attached to M2 and M3). -/
abbrev M1 : ModeBits := 0b01#2
abbrev M2 : ModeBits := 0b10#2
abbrev M3 : ModeBits := 0b11#2

end Sys2Proof
end

