-- ==== Sys2Proof/Config.lean ====
section
/-!
DEFINITION. What is fixed for the machine (spec/00_scope.md rule R10): the parameters the spec marks
"decision" as fields with the spec's default, the published constants, and the values the spec
leaves open, which have no body here, so that nothing can be proved about which value they are:
LINE_ERR among them, and the answers of an environment nothing is known of.
-/

namespace Sys2Proof

/-- The parameters of R10 that "the model should take as a configuration field with this default"
(log 13). -/
structure Params where
  /-- T_HIGH_US: the delay requested after each rising clock edge. -/
  tHighUs : Nat := 1
  /-- T_LOW_US: the delay requested after each falling clock edge of a pulse. -/
  tLowUs : Nat := 1
  /-- T_SETUP_US: the delay requested between the readiness test and the first pulse. -/
  tSetupUs : Nat := 1
  /-- T_PD_US: the delay DISABLE requests after driving the clock high. -/
  tPdUs : Nat := 60
  /-- HAS_RESET: the legacy RESET command is implemented. -/
  hasReset : Bool := true
  /-- HAS_DESTROY: the DESTROY command is implemented. -/
  hasDestroy : Bool := true
  deriving DecidableEq, Repr

/-- The parameters of this hardware. -/
def Config.params : Params := {}

/-- DEFAULT_MODE: MODE after NEW (R10; 10_state.md R23). -/
def Config.defaultMode : ModeBits := M1

/-- NBITS: data bits shifted per retrieval (R10). -/
def Config.nbits : Nat := 24

/-- MAX_VALUE (10_state.md R36). -/
def Config.maxValue : Sample := 0x007FFFFF#32

/-- MIN_VALUE, positive as published (10_state.md R36; 90_conflicts.md C1). It is NOT the smallest
sample. -/
def Config.minValue : Sample := 0x00800000#32

/-- ERRW: the width of LINE_ERR on the response port, an open parameter of R10 (log 4). -/
opaque Config.ERRW : Nat

/-- LINE_ERR, an open parameter of R10: whatever ERRW wires carry. ERRW has no body, so nothing can be
proved about how many error values there are or which; the engine never looks inside one and hands
it on unchanged (20_memory.md R55; log 4). -/
abbrev LineErr := BitVec Config.ERRW

namespace Machine

/-- The line environment's answer to a LineWrite (20_memory.md R52). -/
inductive WriteAnswer where
  | ok
  | fault (e : LineErr)
  deriving DecidableEq, Repr

/-- The line environment's answer to a LineRead (20_memory.md R53). -/
inductive ReadAnswer where
  | level (b : Level)
  | fault (e : LineErr)
  deriving DecidableEq, Repr

end Machine

/-- The answers an environment that nothing is known of gives to the LineWrites, numbered; `none`: it
never answers that one (20_memory.md R65: "its answers are free"; log 2). -/
opaque Config.freeWriteAnswer : Nat → Option Machine.WriteAnswer

/-- The same for the LineReads (20_memory.md R65; log 2). -/
opaque Config.freeReadAnswer : Nat → Option Machine.ReadAnswer

/-- The same for the Delays, which can only be completed or not (20_memory.md R54, R65; log 3). -/
opaque Config.freeDelayAnswer : Nat → Option Unit

/-- The level of the clock line after a faulted write (10_state.md R24: "any value (a draw)") and
after `rst` (R40), for each draw (log 5, 7). -/
opaque Config.freeLevel : Nat → Level

/-- MODE after `rst` strikes a running engine (10_state.md R40: unspecified; log 7), and what a read of
MODE gives while OWN = 0 (40_lifecycle.md R105: unspecified; log 22). -/
opaque Config.freeMode : Nat → ModeBits

/-- ACC after `rst` strikes a running engine (10_state.md R40: unspecified; log 7). -/
opaque Config.freeAcc : Nat → Raw

/-- SEQ.CNT after `rst` strikes a running engine (10_state.md R40: unspecified; log 7). -/
opaque Config.freeCnt : Nat → Count

end Sys2Proof
end

