-- ==== Sys2Proof/Syntax.lean ====
section
/-!
DEFINITION. The commands of the engine: one constructor per row of spec/opcode_table.json, the two
reserved rows among them (spec/00_scope.md rule R9; spec/30_encoding.md rules R81, R82, R84).
-/

namespace Sys2Proof

/-- A command of the command channel. -/
inductive Instr where
  /-- NEW: take the lines (40_lifecycle.md R102). -/
  | new
  /-- ENABLE: drive the clock low (41_power.md R110). -/
  | enable
  /-- DISABLE: drive the clock high and hold (41_power.md R112). -/
  | disable
  /-- RETRIEVE: poll and shift (42_retrieve.md R121). -/
  | retrieve
  /-- SET_MODE m: store a Mode, then one forced retrieval (43_set_mode.md R140). -/
  | setMode (m : ModeBits)
  /-- RESET: the legacy four-access sequence (41_power.md R114). -/
  | reset
  /-- DESTROY: release the lines (40_lifecycle.md R104). -/
  | destroy
  /-- The reserved words `op` = 0b111, with any `mode` (30_encoding.md R84). -/
  | reservedOp7 (mode : ModeBits)
  /-- The reserved word SET_MODE with `mode` = 0b00 (30_encoding.md R84). -/
  | reservedSetMode0
  deriving DecidableEq, Repr

end Sys2Proof
end

