-- ==== Sys2Proof/WellFormed.lean ====
section
/-!
DEFINITION. Which terms of `Instr` are commands a host may issue: SET_MODE carries a Mode
(spec/30_encoding.md rule R82), an optional operation is present (spec/00_scope.md rule R10), and the
reserved rows are none (rule R84). Whether a command is legal NOW is a matter of OWN
(spec/40_lifecycle.md rule R100), not of its form.
-/

namespace Sys2Proof

/-- Well-formed under the parameters `p`. -/
def Instr.wellFormedIn (p : Params) : Instr → Bool
  | .new => true
  | .enable => true
  | .disable => true
  | .retrieve => true
  | .setMode m => m != 0b00#2
  | .reset => p.hasReset
  | .destroy => p.hasDestroy
  | .reservedOp7 _ => false
  | .reservedSetMode0 => false

/-- Well-formed on this hardware. -/
def Instr.wellFormed (i : Instr) : Bool := i.wellFormedIn Config.params

end Sys2Proof
end

