-- ==== Sys2Proof/Decode.lean ====
section
/-!
DEFINITION. The decoder of the command word and the encoder after it, both written from the table of
spec/30_encoding.md rule R81 (`op` in bits 4:2, `mode` in bits 1:0). Decoding is total on the 32
words (rule R91).
-/

namespace Sys2Proof

/-- Why a number gives no row of the opcode table. -/
inductive DecodeReject where
  /-- The `op` of an optional operation that this hardware does not have (R84: "If HAS_RESET or
  HAS_DESTROY is set false, `op` = 0b101 or 0b110 joins the reserved words"). -/
  | absentOperation
  /-- A number that needs more than the five wires of `cmd_word` (R80; log 12). -/
  | widerThanCommandWord
  deriving DecidableEq, Repr

/-- The field `op`, bits 4:2 (R80). -/
def opField (w : CmdWord) : BitVec 3 := w.extractLsb' 2 3

/-- The field `mode`, bits 1:0 (R80). -/
def modeField (w : CmdWord) : ModeBits := w.extractLsb' 0 2

/-- The decoder under the parameters `p`: it reads `op`, and for `op` = 0b100 it reads `mode` (R91);
every other command ignores `mode` (R83). -/
def decodeIn (p : Params) (w : CmdWord) : Except DecodeReject Instr :=
  if opField w = 0b000#3 then .ok .new
  else if opField w = 0b001#3 then .ok .enable
  else if opField w = 0b010#3 then .ok .disable
  else if opField w = 0b011#3 then .ok .retrieve
  else if opField w = 0b100#3 then
    if modeField w = 0b00#2 then .ok .reservedSetMode0 else .ok (.setMode (modeField w))
  else if opField w = 0b101#3 then
    if p.hasReset then .ok .reset else .error .absentOperation
  else if opField w = 0b110#3 then
    if p.hasDestroy then .ok .destroy else .error .absentOperation
  else .ok (.reservedOp7 (modeField w))

/-- The decoder of this hardware. -/
def decode (w : CmdWord) : Except DecodeReject Instr := decodeIn Config.params w

/-- The decoder on any number: `cmd_word` has five wires, so a number that needs more is no command
word (log 12). -/
def decodeNat (w : Nat) : Except DecodeReject Instr :=
  if w < 32 then decode (BitVec.ofNat 5 w) else .error .widerThanCommandWord

/-- What the decoder reads from an instruction whose bits are `w`, numbered as the opcode table
numbers them. A command is one 5-bit word whatever number of whole bytes holds it. -/
def decodeTableWord (_nbits w : Nat) : Option Instr :=
  match decodeNat w with
  | .ok i => some i
  | .error _ => none

/-- The `op` number of a command (R81). -/
def encodeOp : Instr → BitVec 3
  | .new => 0b000#3
  | .enable => 0b001#3
  | .disable => 0b010#3
  | .retrieve => 0b011#3
  | .setMode _ => 0b100#3
  | .reset => 0b101#3
  | .destroy => 0b110#3
  | .reservedOp7 _ => 0b111#3
  | .reservedSetMode0 => 0b100#3

/-- The `mode` field the assembler writes: the operand of SET_MODE, and 0 where it is ignored
(R83). -/
def encodeMode : Instr → ModeBits
  | .setMode m => m
  | .reservedOp7 m => m
  | .new => 0b00#2
  | .enable => 0b00#2
  | .disable => 0b00#2
  | .retrieve => 0b00#2
  | .reset => 0b00#2
  | .destroy => 0b00#2
  | .reservedSetMode0 => 0b00#2

/-- The encoder: `op` above `mode` (R80). On a well-formed command it gives the canonical word of
R81. -/
def encode (i : Instr) : CmdWord := encodeOp i ++ encodeMode i

end Sys2Proof
end

