-- ==== Sys2Proof/Machine/State.lean ====
section
/-!
DEFINITION. The state of the engine, spec/10_state.md rules R20 to R33 and R40: its seven items, the
channels and the pin beside them, and two fields of the model's own (the event trace and the counter
of free values). All of it is plain data.
-/

namespace Sys2Proof.Machine

/-- SEQ.OP: the command in progress (10_state.md R30). -/
inductive Op where
  | none
  | new
  | enable
  | disable
  | retrieve
  | setMode
  | reset
  | destroy
  deriving DecidableEq, Repr

/-- SEQ.PHASE: the position inside the command, 21 values (10_state.md R30). -/
inductive Phase where
  | idle
  | nLow
  | eLow
  | dHigh
  | dHold
  | xHigh
  | xRd1
  | xRd2
  | xLow
  | gLow
  | gRdy
  | gSetup
  | bHigh
  | bWaitH
  | bSample
  | bLow
  | bWaitL
  | tHigh
  | tWaitH
  | tLow
  | tWaitL
  deriving DecidableEq, Repr

/-- The sequencer, the triple (OP, PHASE, CNT) of 10_state.md R30. -/
structure Seq where
  op : Op
  phase : Phase
  cnt : Count
  deriving DecidableEq, Repr

/-- How an environment goes on when its listed answers are used up (20_memory.md R65; log 2). -/
inductive Tail (α : Type) where
  /-- It never answers again (60_exceptions.md R172: stuck). -/
  | silent
  /-- It gives the answer `a` to every further request, for ever. -/
  | always (a : α)
  /-- Nothing is known of its answers: the free value number `n`, then number `n + 1`, and so on. -/
  | free (n : Nat)
  deriving DecidableEq, Repr

/-- The answers still to come on a channel, without end: the listed ones, then the tail's. -/
structure Answers (α : Type) where
  listed : List α
  tail : Tail α
  deriving DecidableEq, Repr

/-- The outcome of a command, what the spec calls an outcome or response (00_scope.md R15). -/
inductive Response where
  | ok
  | okValue (v : Sample)
  | wouldBlock
  | fault (e : LineErr)
  deriving DecidableEq, Repr

/-- An event of the trace: a request with its answer, in the notation of 00_scope.md section 7
(`lineWrite .low .ok` is W0, `lineRead (.level .high)` is R1, `delay 60` is D60), and what happens on
the command channel, the response channel and the reset pin (log 10). -/
inductive Event where
  | accept (op : Op)
  | lineWrite (l : Level) (a : WriteAnswer)
  | lineRead (a : ReadAnswer)
  | delay (us : Nat)
  | respond (r : Response)
  | rst
  deriving DecidableEq, Repr

/-- The state. The first five fields are the seven items of 10_state.md R20. -/
structure State where
  /-- MODE: the current Mode as its trailing pulse count (R21). -/
  mode : ModeBits
  /-- SCK: the level last driven on the clock line (R24). -/
  sck : Level
  /-- OWN: the engine owns the two lines (R27). -/
  own : Bool
  /-- ACC: the bits sampled so far (R28). -/
  acc : Raw
  /-- SEQ: the sequencer (R30). -/
  seq : Seq
  /-- The response channel: the response being presented, if `rsp_valid` is 1 (30_encoding.md R85;
  log 9). -/
  rsp : Option Response
  /-- The command channel: the words the host still offers, in order (30_encoding.md R80, R93;
  log 11). -/
  cmds : List CmdWord
  /-- The answers of the clock line that are still to come (20_memory.md R65; log 2). -/
  writeAns : Answers WriteAnswer
  /-- The answers of the data line that are still to come (20_memory.md R65; log 2). -/
  readAns : Answers ReadAnswer
  /-- The completions of the delay port that are still to come (20_memory.md R54, R65; log 3). -/
  delayAns : Answers Unit
  /-- The level of the `rst` pin at each coming step, 0 where the list ends (70_reset_and_hazards.md
  R190; log 7). -/
  rstPin : List Bool
  /-- The model's own: the events so far, oldest first (70_reset_and_hazards.md R214; log 10). -/
  trace : List Event
  /-- The model's own: how many free values have been drawn (log 5). -/
  draws : Nat
  deriving DecidableEq, Repr

/-- Why the machine stops with a fault. The spec's own exception, LineFault, is NOT here: it ends a
command with a response and the machine goes on (60_exceptions.md R163). -/
inductive Fault where
  /-- Raised by a meaning, and by a step, in a state whose (OP, PHASE) the table of 10_state.md R31
  has no row for. Safe: the model stops, and no run reaches such a state (log 14). -/
  | noSuchPhase
  deriving DecidableEq, Repr

/-- Why the machine refuses a run: the spec gives the input no meaning. -/
inductive Refusal where
  /-- Raised by `exec` for an instruction without a meaning yet. Safe: the run has no step. -/
  | notModelled (mnemonic : String)
  /-- Raised by the reserved rows, and by SET_MODE with the operand 0, which is no Mode
  (30_encoding.md R84: "A model refuses a run in which one is issued"). Safe: the run has no step. -/
  | reservedWord
  /-- Raised by a step for the word of an optional operation the hardware lacks (30_encoding.md R84).
  Safe: the run has no step. -/
  | absentOperation
  /-- Raised by a meaning for NEW while OWN = 1 and for any other command while OWN = 0
  (40_lifecycle.md R101: "A model refuses such a run"). Safe: the run has no step. -/
  | outsideLifetime
  deriving DecidableEq, Repr

/-- The machine right after `rst`: the column "After `rst`" of 10_state.md R40. OWN, SEQ.OP and
SEQ.PHASE are the spec's; MODE, SCK, ACC and SEQ.CNT are unspecified there and hold a named value
here (DESIGN CHOICE, log 6); nothing is presented on the response channel (70_reset_and_hazards.md
R190), no word waits on the command channel, and of the environment nothing is known. -/
def State.reset : State where
  mode := 0b00#2
  sck := .low
  own := false
  acc := 0#24
  seq := { op := .none, phase := .idle, cnt := 0#5 }
  rsp := none
  cmds := []
  writeAns := { listed := [], tail := .free 0 }
  readAns := { listed := [], tail := .free 0 }
  delayAns := { listed := [], tail := .free 0 }
  rstPin := []
  trace := []
  draws := 0

end Sys2Proof.Machine
end

