-- ==== Sys2Proof/Machine/Flags.lean ====
section
/-!
DEFINITION. The engine has no flags, no condition codes and no sticky bits (spec/10_state.md rule
R34): a command's only result is its response. This file gives the response word of
spec/30_encoding.md rules R85 to R87, which stands in their place: the status code, the data and the
error wires as functions of the outcome.
-/

namespace Sys2Proof.Machine

/-- `rsp_status` (R86); 0b11 is never produced. -/
def rspStatus : Response → BitVec 2
  | .ok => 0b00#2
  | .okValue _ => 0b00#2
  | .wouldBlock => 0b01#2
  | .fault _ => 0b10#2

/-- `rsp_data`: the sample of an OkValue, otherwise 0 (R86, R87). -/
def rspData : Response → Sample
  | .ok => 0#32
  | .okValue v => v
  | .wouldBlock => 0#32
  | .fault _ => 0#32

/-- The error a response carries (R86). -/
def rspError : Response → Option LineErr
  | .ok => none
  | .okValue _ => none
  | .wouldBlock => none
  | .fault e => some e

/-- `rsp_err`: e on the port's ERRW wires, and 0 where there is no fault (R86). -/
def rspErrWires (r : Response) : BitVec Config.ERRW := (rspError r).getD 0

end Sys2Proof.Machine
end

