-- ==== Sys2Proof/Machine/Operands.lean ====
section
/-!
DEFINITION. The operand and all the arithmetic there is (spec/44_extend24.md rule R156): a level as a
bit, SET_MODE's operand, the shift and the OR of the accumulator, extend24, and the steps and tests
of SEQ.CNT.
-/

namespace Sys2Proof.Machine

/-- A level used as a bit: high = 1, low = 0 (00_scope.md R13; 20_memory.md R53). -/
def levelBit : Level → BitVec 1
  | .low => 0#1
  | .high => 1#1

/-- SET_MODE's operand is used as it stands: not extended, not scaled, not shifted
(30_encoding.md R82). -/
def modeOperand (m : ModeBits) : ModeBits := m

/-- An operand that names a Mode (10_state.md R21: 0b00 is no Mode). -/
def isMode (m : ModeBits) : Bool := m != 0b00#2

/-- `(ACC << 1)[23:0]`: the old bit 23 is dropped and 0 comes into bit 0 (42_retrieve.md R129). -/
def shiftAcc (a : Raw) : Raw := a <<< 1

/-- `ACC | zext(b)`: the sampled level into bit 0 (42_retrieve.md R123). -/
def orSample (a : Raw) (b : Level) : Raw := a ||| (levelBit b).setWidth 24

/-- The sign-extension unit (44_extend24.md R150). -/
def extend24 (x : Raw) : Sample :=
  if x.getLsbD 23 then 0xFF000000#32 ||| x.setWidth 32 else x.setWidth 32

/-- CNT at the last data pulse: 23 (10_state.md R31, row B_WAITL). -/
def lastDataPulse (c : Count) : Bool := c == 23#5

/-- CNT at the last trailing pulse: MODE − 1 (10_state.md R31, row T_WAITL), computed at CNT's width
(log 15). -/
def lastTrailingPulse (c : Count) (m : ModeBits) : Bool := c == m.setWidth 5 - 1#5

/-- CNT <- CNT + 1 (10_state.md R32). -/
def nextCount (c : Count) : Count := c + 1#5

end Sys2Proof.Machine
end

