-- ==== Sys2Proof/Machine/Ops.lean ====
section
/-!
DEFINITION. The shared operations of the engine: moving the sequencer, responding, the line fault, the
three primitives LineWrite, LineRead and Delay (spec/20_memory.md rules R52 to R54), accepting a
command (spec/10_state.md rule R33), the hardware reset (spec/70_reset_and_hazards.md rules R190,
R192), and what the next step is about to do.
-/

namespace Sys2Proof.Machine

/-! ### The sequencer and the channels -/

/-- PHASE <- p. -/
def State.goto (p : Phase) (s : State) : State := { s with seq := { s.seq with phase := p } }

/-- CNT <- c and PHASE <- p. -/
def State.gotoCnt (c : Count) (p : Phase) (s : State) : State :=
  { s with seq := { s.seq with cnt := c, phase := p } }

/-- `respond r`: presents r on the response channel, PHASE <- IDLE, OP <- NONE (30_encoding.md
R85). -/
def State.respond (r : Response) (s : State) : State :=
  { s with
    rsp := some r
    seq := { s.seq with op := .none, phase := .idle }
    trace := s.trace ++ [.respond r] }

/-- `raise LineFault(e)`, the one exception: the command ends with Fault(e), the engine goes idle and
everything else stays as it stands (60_exceptions.md R163). Nothing is saved, there is no handler, and
there is no return from it: the engine takes the next legal command at once (R170). -/
def State.raiseLineFault (e : LineErr) (s : State) : State := s.respond (.fault e)

/-! ### What the environment answers next -/

/-- The next answer of a channel and the answers after it; `none`: the request is never answered.
`draw` gives the free values of the channel. -/
def Answers.next {α : Type} (draw : Nat → Option α) (o : Answers α) : Option (α × Answers α) :=
  match o.listed with
  | a :: rest => some (a, { o with listed := rest })
  | [] =>
    match o.tail with
    | .silent => none
    | .always a => some (a, o)
    | .free n => (draw n).map fun a => (a, { o with tail := .free (n + 1) })

/-- The next answer on the clock line (20_memory.md R52, R65). -/
def nextWrite (o : Answers WriteAnswer) : Option (WriteAnswer × Answers WriteAnswer) :=
  o.next Config.freeWriteAnswer

/-- The next answer on the data line (20_memory.md R53, R65). -/
def nextRead (o : Answers ReadAnswer) : Option (ReadAnswer × Answers ReadAnswer) :=
  o.next Config.freeReadAnswer

/-- The next completion on the delay port (20_memory.md R54, R65). -/
def nextDelay (o : Answers Unit) : Option (Unit × Answers Unit) :=
  o.next Config.freeDelayAnswer

/-! ### The three primitives

Each asks one request and goes on with `k` on a good answer. While the answer has not come the engine
waits where it is (60_exceptions.md R172). -/

/-- `LineWrite(l)` (20_memory.md R52). After a faulted write SCK holds a free value
(10_state.md R24; log 5). -/
def lineWrite (l : Level) (k : State → State) (s : State) : State :=
  match nextWrite s.writeAns with
  | none => s
  | some (.ok, rest) =>
    k { s with writeAns := rest, sck := l, trace := s.trace ++ [.lineWrite l .ok] }
  | some (.fault e, rest) =>
    State.raiseLineFault e
      { s with
        writeAns := rest
        sck := Config.freeLevel s.draws
        draws := s.draws + 1
        trace := s.trace ++ [.lineWrite l (.fault e)] }

/-- `b <- LineRead()` (20_memory.md R53). -/
def lineRead (k : Level → State → State) (s : State) : State :=
  match nextRead s.readAns with
  | none => s
  | some (.level b, rest) =>
    k b { s with readAns := rest, trace := s.trace ++ [.lineRead (.level b)] }
  | some (.fault e, rest) =>
    State.raiseLineFault e
      { s with readAns := rest, trace := s.trace ++ [.lineRead (.fault e)] }

/-- `Delay(n)`, which cannot fault (20_memory.md R54). -/
def delay (n : Nat) (k : State → State) (s : State) : State :=
  match nextDelay s.delayAns with
  | none => s
  | some (_, rest) => k { s with delayAns := rest, trace := s.trace ++ [.delay n] }

/-! ### Accepting a command -/

/-- OP <- op, PHASE <- the command's first phase (10_state.md R33). -/
def State.accept (op : Op) (p : Phase) (s : State) : State :=
  { s with seq := { s.seq with op := op, phase := p }, trace := s.trace ++ [.accept op] }

/-- Accepts a command that is legal while the engine owns the lines, and refuses it otherwise
(40_lifecycle.md R100, R101). -/
def acceptOwned (op : Op) (p : Phase) (s : State) : Host.Outcome State Fault Refusal :=
  if s.own then .next (s.accept op p) else .refused .outsideLifetime

/-! ### Reading MODE -/

/-- MODE as the engine reads it: the register's content while OWN = 1, and a free value while OWN = 0,
where R105 (40_lifecycle.md) calls what is left in MODE unreadable and says "A model should treat
MODE as unspecified while OWN = 0" (log 22). Every read of MODE goes through here. -/
def State.modeValue (s : State) : ModeBits := if s.own then s.mode else Config.freeMode s.draws

/-! ### The frame's phases, shared by RETRIEVE and SET_MODE (10_state.md R31)

`p` is the build of the engine: the delays to ask for are its parameters (00_scope.md R10, R12). -/

/-- G_LOW: step 1 of the poll (42_retrieve.md R122). -/
def phaseGLow (s : State) : State := lineWrite .low (State.goto .gRdy) s

/-- G_SETUP: the set-up delay, then ACC and CNT are cleared (42_retrieve.md R125). -/
def phaseGSetup (p : Params) (s : State) : State :=
  delay p.tSetupUs (fun t => { t.gotoCnt 0#5 .bHigh with acc := 0#24 }) s

/-- B_HIGH: the rising edge of a data pulse (42_retrieve.md R123). -/
def phaseBHigh (s : State) : State := lineWrite .high (State.goto .bWaitH) s

/-- B_WAITH: the high-time delay, then the shift (42_retrieve.md R123). -/
def phaseBWaitH (p : Params) (s : State) : State :=
  delay p.tHighUs (fun t => { t.goto .bSample with acc := shiftAcc t.acc }) s

/-- B_SAMPLE: the sample, ORed into bit 0 (42_retrieve.md R123). -/
def phaseBSample (s : State) : State :=
  lineRead (fun b t => { t.goto .bLow with acc := orSample t.acc b }) s

/-- B_LOW: the falling edge of a data pulse (42_retrieve.md R123). -/
def phaseBLow (s : State) : State := lineWrite .low (State.goto .bWaitL) s

/-- B_WAITL: the low-time delay, then the next data pulse or the first trailing pulse
(10_state.md R31). -/
def phaseBWaitL (p : Params) (s : State) : State :=
  delay p.tLowUs (fun t =>
    if lastDataPulse t.seq.cnt then t.gotoCnt 0#5 .tHigh
    else t.gotoCnt (nextCount t.seq.cnt) .bHigh) s

/-- T_HIGH: the rising edge of a trailing pulse (42_retrieve.md R124). -/
def phaseTHigh (s : State) : State := lineWrite .high (State.goto .tWaitH) s

/-- T_WAITH: the high-time delay of a trailing pulse; no sample is taken (42_retrieve.md R124). -/
def phaseTWaitH (p : Params) (s : State) : State := delay p.tHighUs (State.goto .tLow) s

/-- T_LOW: the falling edge of a trailing pulse (42_retrieve.md R124). -/
def phaseTLow (s : State) : State := lineWrite .low (State.goto .tWaitL) s

/-- T_WAITL: the low-time delay, then the next trailing pulse or the end of the frame, which
`finish` makes (10_state.md R31). -/
def phaseTWaitL (p : Params) (finish : State → State) (s : State) : State :=
  delay p.tLowUs (fun t =>
    if lastTrailingPulse t.seq.cnt t.modeValue then finish t
    else t.gotoCnt (nextCount t.seq.cnt) .tHigh) s

/-! ### The reset pin and the next step -/

/-- The level of `rst` at this step. -/
def State.rstNow (s : State) : Bool := s.rstPin.headD false

/-- A step begins: the response of the step before has been shown for its one clock (30_encoding.md
R85; log 9) and the next level of the `rst` pin is the one after this. -/
def State.tick (s : State) : State := { s with rsp := none, rstPin := s.rstPin.tail }

/-- `rst`: the command in progress is abandoned without a response, OWN = 0, SEQ idle, everything
else unspecified (70_reset_and_hazards.md R190, R192). MODE, SCK, ACC and CNT are free values
(log 7). -/
def State.takeRst (s : State) : State :=
  { s with
    mode := Config.freeMode s.draws
    sck := Config.freeLevel s.draws
    own := false
    acc := Config.freeAcc s.draws
    seq := { op := .none, phase := .idle, cnt := Config.freeCnt s.draws }
    rsp := none
    trace := s.trace ++ [.rst]
    draws := s.draws + 1 }

/-- The command that OP names, with SET_MODE's operand, which MODE has held since acceptance
(10_state.md R33). -/
def State.inProgress (s : State) : Option Instr :=
  match s.seq.op with
  | .none => none
  | .new => some .new
  | .enable => some .enable
  | .disable => some .disable
  | .retrieve => some .retrieve
  | .setMode => some (.setMode s.modeValue)
  | .reset => some .reset
  | .destroy => some .destroy

/-- What a step is about to do. -/
inductive Action where
  /-- It ends here: a reset, or nothing to do. -/
  | stay (t : State)
  /-- It runs one event of the command `i` in the state `t`. -/
  | run (i : Instr) (t : State)
  /-- The word on the command channel has no meaning. -/
  | refuse (r : Refusal)
  /-- SEQ names no command although it is not idle. -/
  | stop (f : Fault)
  deriving DecidableEq, Repr

/-- The sequencer outside its commands. `rst` comes first (70_reset_and_hazards.md R192); an idle
engine takes the next word of the command channel, if there is one (10_state.md R33;
20_memory.md R63: sampled once), and a busy one goes on with the command in progress. `p` is the
build: its decoder knows the optional operations it has. -/
def nextActionIn (p : Params) (s : State) : Action :=
  if s.rstNow then .stay s.tick.takeRst
  else if s.seq.phase = .idle then
    match s.cmds with
    | [] => .stay s.tick
    | w :: ws =>
      match decodeIn p w with
      | .ok i => .run i { s.tick with cmds := ws }
      | .error _ => .refuse .absentOperation
  else
    match s.inProgress with
    | some i => .run i s.tick
    | none => .stop .noSuchPhase

/-- The same for this hardware. -/
def nextAction (s : State) : Action := nextActionIn Config.params s

/-- Ends a step as its action says, with `run` for the events of a command. -/
def Action.take (run : Instr → State → Host.Outcome State Fault Refusal) :
    Action → Host.Outcome State Fault Refusal
  | .stay t => .next t
  | .run i t => run i t
  | .refuse r => .refused r
  | .stop f => .fault f

/-- The word `w` put where an idle engine finds its next command, the engine idle and `rst` low, so
that the very next step runs it (log 11). A number that is no 5-bit word changes nothing. -/
def State.offerWord (w : Nat) (s : State) : State :=
  if w < 32 then
    { s with
      seq := { s.seq with op := .none, phase := .idle }
      cmds := BitVec.ofNat 5 w :: s.cmds
      rstPin := match s.rstPin with
        | [] => []
        | _ :: rest => false :: rest }
  else s

end Sys2Proof.Machine
end

