-- ==== Sys2Proof/Machine/Lifecycle.lean ====
section
/-!
DEFINITION. The lifecycle commands NEW and DESTROY (spec/40_lifecycle.md). Each meaning takes one
event of its command: the acceptance when the engine is idle, otherwise the row of its phase in the
table of spec/10_state.md rule R31.
-/

namespace Sys2Proof.Machine

/-- NEW (R102): W0, then MODE <- M1, OWN <- 1, Ok. Legal while OWN = 0 (R100). -/
def execNew (s : State) : Host.Outcome State Fault Refusal :=
  match s.seq.phase with
  | .idle => if s.own then .refused .outsideLifetime else .next (s.accept .new .nLow)
  | .nLow =>
    .next (lineWrite .low
      (fun t => State.respond .ok { t with mode := Config.defaultMode, own := true }) s)
  | _ => .fault .noSuchPhase

/-- DESTROY (R104): OWN <- 0 and Ok at acceptance, with no request (10_state.md R33). -/
def execDestroy (s : State) : Host.Outcome State Fault Refusal :=
  match s.seq.phase with
  | .idle =>
    if s.own then .next (State.respond .ok { s.accept .destroy .idle with own := false })
    else .refused .outsideLifetime
  | _ => .fault .noSuchPhase

end Sys2Proof.Machine
end

