-- ==== Sys2Proof/Machine/Power.lean ====
section
/-!
DEFINITION. The power and legacy commands ENABLE, DISABLE and RESET (spec/41_power.md), one event at a
time (spec/10_state.md rule R31).
-/

namespace Sys2Proof.Machine

/-- ENABLE (R110): W0, Ok. -/
def execEnable (s : State) : Host.Outcome State Fault Refusal :=
  match s.seq.phase with
  | .idle => acceptOwned .enable .eLow s
  | .eLow => .next (lineWrite .low (State.respond .ok) s)
  | _ => .fault .noSuchPhase

/-- DISABLE (R112) in the build `p`: W1, the hold of T_PD_US, Ok. -/
def execDisableIn (p : Params) (s : State) : Host.Outcome State Fault Refusal :=
  match s.seq.phase with
  | .idle => acceptOwned .disable .dHigh s
  | .dHigh => .next (lineWrite .high (State.goto .dHold) s)
  | .dHold => .next (delay p.tPdUs (State.respond .ok) s)
  | _ => .fault .noSuchPhase

/-- DISABLE on this hardware: the hold is 60 microseconds. -/
def execDisable (s : State) : Host.Outcome State Fault Refusal := execDisableIn Config.params s

/-- RESET (R114): W1, two reads whose levels are discarded, W0, Ok; MODE is not written (R115). -/
def execReset (s : State) : Host.Outcome State Fault Refusal :=
  match s.seq.phase with
  | .idle => acceptOwned .reset .xHigh s
  | .xHigh => .next (lineWrite .high (State.goto .xRd1) s)
  | .xRd1 => .next (lineRead (fun _ => State.goto .xRd2) s)
  | .xRd2 => .next (lineRead (fun _ => State.goto .xLow) s)
  | .xLow => .next (lineWrite .low (State.respond .ok) s)
  | _ => .fault .noSuchPhase

end Sys2Proof.Machine
end

