-- ==== Sys2Proof/Machine/Reserved.lean ====
section
/-!
DEFINITION. The reserved command words (spec/30_encoding.md rule R84): no behaviour, no fault, no
no-op; "A model refuses a run in which one is issued".
-/

namespace Sys2Proof.Machine

/-- The words `op` = 0b111, with any `mode` (R84). -/
def execReservedOp7 (_mode : ModeBits) (_s : State) : Host.Outcome State Fault Refusal :=
  .refused .reservedWord

/-- The word SET_MODE with `mode` = 0b00 (R84). -/
def execReservedSetMode0 (_s : State) : Host.Outcome State Fault Refusal :=
  .refused .reservedWord

end Sys2Proof.Machine
end

