-- ==== Sys2Proof/Machine/Retrieve.lean ====
section
/-!
DEFINITION. RETRIEVE, the poll-and-shift command (spec/42_retrieve.md rule R121), one event at a time
(spec/10_state.md rule R31).
-/

namespace Sys2Proof.Machine

/-- RETRIEVE in the build `p`: one poll; a high level ends it with WouldBlock (R122); otherwise the frame, and then
OkValue(extend24(ACC)) after the last trailing pulse (R127). -/
def execRetrieveIn (p : Params) (s : State) : Host.Outcome State Fault Refusal :=
  match s.seq.phase with
  | .idle => acceptOwned .retrieve .gLow s
  | .gLow => .next (phaseGLow s)
  | .gRdy =>
    .next (lineRead (fun b =>
      match b with
      | .high => State.respond .wouldBlock
      | .low => State.goto .gSetup) s)
  | .gSetup => .next (phaseGSetup p s)
  | .bHigh => .next (phaseBHigh s)
  | .bWaitH => .next (phaseBWaitH p s)
  | .bSample => .next (phaseBSample s)
  | .bLow => .next (phaseBLow s)
  | .bWaitL => .next (phaseBWaitL p s)
  | .tHigh => .next (phaseTHigh s)
  | .tWaitH => .next (phaseTWaitH p s)
  | .tLow => .next (phaseTLow s)
  | .tWaitL => .next (phaseTWaitL p (fun t => t.respond (.okValue (extend24 t.acc))) s)
  | _ => .fault .noSuchPhase

/-- RETRIEVE on this hardware. -/
def execRetrieve (s : State) : Host.Outcome State Fault Refusal :=
  execRetrieveIn Config.params s

end Sys2Proof.Machine
end

