-- ==== Sys2Proof/Machine/SetMode.lean ====
section
/-!
DEFINITION. SET_MODE, the mode change with its forced retrieval (spec/43_set_mode.md rule R140), one
event at a time (spec/10_state.md rule R31).
-/

namespace Sys2Proof.Machine

/-- SET_MODE m in the build `p`: MODE <- m at acceptance, before any line access (R142); then polls until the data
line is low, with no delay between them (R141); then the frame with the new pulse count; Ok, the
value discarded. The operand 0 is no Mode: that word is reserved (30_encoding.md R84; log 16). -/
def execSetModeIn (p : Params) (m : ModeBits) (s : State) : Host.Outcome State Fault Refusal :=
  match s.seq.phase with
  | .idle =>
    if isMode m then acceptOwned .setMode .gLow { s with mode := modeOperand m }
    else .refused .reservedWord
  | .gLow => .next (phaseGLow s)
  | .gRdy =>
    .next (lineRead (fun b =>
      match b with
      | .high => State.goto .gLow
      | .low => State.goto .gSetup) s)
  | .gSetup => .next (phaseGSetup p s)
  | .bHigh => .next (phaseBHigh s)
  | .bWaitH => .next (phaseBWaitH p s)
  | .bSample => .next (phaseBSample s)
  | .bLow => .next (phaseBLow s)
  | .bWaitL => .next (phaseBWaitL p s)
  | .tHigh => .next (phaseTHigh s)
  | .tWaitH => .next (phaseTWaitH p s)
  | .tLow => .next (phaseTLow s)
  | .tWaitL => .next (phaseTWaitL p (State.respond .ok) s)
  | _ => .fault .noSuchPhase

/-- SET_MODE m on this hardware. -/
def execSetMode (m : ModeBits) (s : State) : Host.Outcome State Fault Refusal :=
  execSetModeIn Config.params m s

end Sys2Proof.Machine
end

