-- ==== Sys2Proof/Machine/Dispatch.lean ====
section
/-!
DEFINITION. One event of the command `i` in the state `s`: its acceptance when the engine is idle, the
row of its phase when it is in progress (spec/10_state.md rules R31 and R33; log 1).
-/

namespace Sys2Proof.Machine

def exec (i : Instr) (s : State) : Host.Outcome State Fault Refusal :=
  match i with
  | .new => Sys2Proof.Machine.execNew s
  | .enable => Sys2Proof.Machine.execEnable s
  | .disable => Sys2Proof.Machine.execDisable s
  | .retrieve => Sys2Proof.Machine.execRetrieve s
  | .setMode m => Sys2Proof.Machine.execSetMode m s
  | .reset => Sys2Proof.Machine.execReset s
  | .destroy => Sys2Proof.Machine.execDestroy s
  | .reservedOp7 m => Sys2Proof.Machine.execReservedOp7 m s
  | .reservedSetMode0 => Sys2Proof.Machine.execReservedSetMode0 s

end Sys2Proof.Machine
end

