-- ==== Sys2Proof/Machine/Step.lean ====
section
/-!
DEFINITION. One step of the engine: one event (spec/92_eei_decisions.md D3).
-/

namespace Sys2Proof.Machine

/-- One step: a reset, a wait, the acceptance of a command, or one event of the command in
progress. -/
def step (s : State) : Host.Outcome State Fault Refusal := (nextAction s).take exec

/-- `s` with the command word `w` at the head of the command channel, the engine idle and `rst` low,
so that the next step runs exactly that word (log 11). -/
def State.withFetchWord (s : State) (_nbits w : Nat) : State := s.offerWord w

end Sys2Proof.Machine
end

