-- ==== Sys2Proof/Machine/HostProgram.lean ====
section
/-!
DEFINITION. The host's side of spec/30_encoding.md section 7: the assembler's line (rule R93), and the
pseudo-instruction RETRIEVE_BLOCKING, which the host expands (rule R94). The engine has no loop for
it: nothing here is part of the engine's step (log 20).
-/

namespace Sys2Proof.Machine

/-- A line of an assembler program: a command, or the one pseudo-instruction (R93, R94). -/
inductive AsmLine where
  | command (i : Instr)
  | retrieveBlocking
  deriving DecidableEq, Repr

/-- SET_MODE's operand as it is written: M1, M2, M3, or the long names (R93). -/
def asmMode (t : String) : Option ModeBits :=
  if t = "M1" ∨ t = "A128" then some M1
  else if t = "M2" ∨ t = "BX" then some M2
  else if t = "M3" ∨ t = "BY" then some M3
  else none

/-- A command without an operand, or the pseudo-instruction, by its mnemonic (R93). -/
def asmPlain (t : String) : Option AsmLine :=
  if t = "NEW" then some (.command .new)
  else if t = "ENABLE" then some (.command .enable)
  else if t = "DISABLE" then some (.command .disable)
  else if t = "RETRIEVE" then some (.command .retrieve)
  else if t = "RESET" then some (.command .reset)
  else if t = "DESTROY" then some (.command .destroy)
  else if t = "RETRIEVE_BLOCKING" then some .retrieveBlocking
  else none

/-- One line, already cut into its words; the word ";" starts a comment (R93; log 20). -/
def asmLine (tokens : List String) : Option AsmLine :=
  match tokens.takeWhile (fun t => t != ";") with
  | [t] => asmPlain t
  | [t, m] => if t = "SET_MODE" then (asmMode m).map fun b => .command (.setMode b) else none
  | _ => none

/-- The word a line makes the host issue first: the canonical word (R93). -/
def AsmLine.firstWord : AsmLine → CmdWord
  | .command i => encode i
  | .retrieveBlocking => encode .retrieve

/-- A host that runs a program on the engine: the lines it has still to issue, and the line whose
command it has issued and waits for (R93). -/
structure HostRun where
  engine : State
  lines : List AsmLine
  waiting : Option AsmLine
  deriving DecidableEq, Repr

/-- The engine, offered one more word. -/
def State.offer (w : CmdWord) (s : State) : State := { s with cmds := s.cmds ++ [w] }

/-- The program is over: every line has been issued and answered. -/
def HostRun.finished (h : HostRun) : Bool := h.waiting.isNone && h.lines.isEmpty

/-- A host that waits for nothing issues its next line (R93: "each command is issued when the response
of the one before it has been received"). -/
def HostRun.issue (h : HostRun) : HostRun :=
  match h.waiting, h.lines with
  | none, l :: rest => { engine := h.engine.offer l.firstWord, lines := rest, waiting := some l }
  | _, _ => h

/-- The host looks at what the engine's step left, `t`. A response ends the line it waits for, but for
a WouldBlock of RETRIEVE_BLOCKING, on which it issues RETRIEVE again (R94: "stop at the first outcome
that is OkValue(v) or Fault(e)"). A plain RETRIEVE is not retried. -/
def HostRun.receive (h : HostRun) (t : State) : HostRun :=
  match h.waiting, t.rsp with
  | some .retrieveBlocking, some .wouldBlock => { h with engine := t.offer (encode .retrieve) }
  | some _, some _ => { h with engine := t, waiting := none }
  | _, _ => { h with engine := t }

/-- One step of the host and the engine: the host issues a line if it waits for none, the engine takes
a step, the host looks. When the program is over nothing more is done. -/
def hostStep (h : HostRun) : Host.Outcome HostRun Fault Refusal :=
  if h.finished then .next h
  else
    match step h.issue.engine with
    | .next t => .next (h.issue.receive t)
    | .fault f => .fault f
    | .refused r => .refused r

/-- `n` steps of the host and the engine. -/
def runHost : Nat → HostRun → Host.Outcome HostRun Fault Refusal
  | 0, h => .next h
  | n + 1, h =>
    match hostStep h with
    | .next g => runHost n g
    | .fault f => .fault f
    | .refused r => .refused r

end Sys2Proof.Machine
end

