-- ==== Sys2Proof/Machine/Builds.lean ====
section
/-!
DEFINITION. The engine in any build: the parameters of spec/00_scope.md rule R10 as a parameter of the
step relation (rule R12). `exec` and `step` are the build `Config.params`, this hardware (log 13).
-/

namespace Sys2Proof.Machine

/-- One event of the command `i` in the build `p`. Without an optional operation its word is reserved
(30_encoding.md R84). -/
def execIn (p : Params) (i : Instr) (s : State) : Host.Outcome State Fault Refusal :=
  match i with
  | .new => execNew s
  | .enable => execEnable s
  | .disable => execDisableIn p s
  | .retrieve => execRetrieveIn p s
  | .setMode m => execSetModeIn p m s
  | .reset => if p.hasReset then execReset s else .refused .absentOperation
  | .destroy => if p.hasDestroy then execDestroy s else .refused .absentOperation
  | .reservedOp7 m => execReservedOp7 m s
  | .reservedSetMode0 => execReservedSetMode0 s

/-- One step of the build `p`. -/
def stepIn (p : Params) (s : State) : Host.Outcome State Fault Refusal :=
  (nextActionIn p s).take (execIn p)

end Sys2Proof.Machine
end

