-- ==== Sys2Proof/Machine/Ports.lean ====
section
/-!
DEFINITION. The engine's output ports as functions of its state: the one request that is outstanding
(spec/10_state.md rule R31, column "Request issued"), the signals of spec/20_memory.md rule R56 and of
spec/30_encoding.md rules R80, R85 and R92. Nothing here is read by a step (log 18).
-/

namespace Sys2Proof.Machine

/-- A request to the outside (20_memory.md R50). -/
inductive Request where
  | lineWrite (l : Level)
  | lineRead
  | delay (us : Nat)
  deriving DecidableEq, Repr

/-- The request a phase issues in the build `p` (10_state.md R31). -/
def phaseRequestIn (p : Params) : Phase → Option Request
  | .idle => none
  | .nLow => some (.lineWrite .low)
  | .eLow => some (.lineWrite .low)
  | .dHigh => some (.lineWrite .high)
  | .dHold => some (.delay p.tPdUs)
  | .xHigh => some (.lineWrite .high)
  | .xRd1 => some .lineRead
  | .xRd2 => some .lineRead
  | .xLow => some (.lineWrite .low)
  | .gLow => some (.lineWrite .low)
  | .gRdy => some .lineRead
  | .gSetup => some (.delay p.tSetupUs)
  | .bHigh => some (.lineWrite .high)
  | .bWaitH => some (.delay p.tHighUs)
  | .bSample => some .lineRead
  | .bLow => some (.lineWrite .low)
  | .bWaitL => some (.delay p.tLowUs)
  | .tHigh => some (.lineWrite .high)
  | .tWaitH => some (.delay p.tHighUs)
  | .tLow => some (.lineWrite .low)
  | .tWaitL => some (.delay p.tLowUs)

/-- The request a phase issues on this hardware. -/
def phaseRequest (ph : Phase) : Option Request := phaseRequestIn Config.params ph

/-- The outstanding request: the one the current PHASE names (R30, R39). -/
def State.request (s : State) : Option Request := phaseRequest s.seq.phase

/-- `sck_req`: a LineWrite is outstanding (R56). -/
def State.sckReq (s : State) : Bool :=
  match s.request with
  | some (.lineWrite _) => true
  | _ => false

/-- `sck_level`: the level asked for, 1 = high (R56). DESIGN CHOICE (log 18): R56 gives the payload of
an outstanding request only; while `sck_req` is 0 this wire shows 0. -/
def State.sckLevel (s : State) : BitVec 1 :=
  match s.request with
  | some (.lineWrite l) => levelBit l
  | _ => 0#1

/-- `dout_req`: a LineRead is outstanding (R56). -/
def State.doutReq (s : State) : Bool := s.request == some .lineRead

/-- `dly_req`: a Delay is outstanding (R56). -/
def State.dlyReq (s : State) : Bool :=
  match s.request with
  | some (.delay _) => true
  | _ => false

/-- `dly_us`: n, unsigned, in microseconds (R56). DESIGN CHOICE (log 18): R56 gives the payload of an
outstanding request only; while `dly_req` is 0 these wires show 0. -/
def State.dlyUs (s : State) : BitVec 8 :=
  match s.request with
  | some (.delay n) => BitVec.ofNat 8 n
  | _ => 0#8

/-- `cmd_ready`: 1 exactly when SEQ.PHASE = IDLE (30_encoding.md R80). -/
def State.cmdReady (s : State) : Bool := s.seq.phase == .idle

/-- `cmd_valid`: the host offers a word (30_encoding.md R80). -/
def State.cmdValid (s : State) : Bool := !s.cmds.isEmpty

/-- `rsp_valid` (30_encoding.md R85). -/
def State.rspValid (s : State) : Bool := s.rsp.isSome

/-- `max_value`, hardwired (30_encoding.md R92). -/
def maxValuePort : Sample := Config.maxValue

/-- `min_value`, hardwired (30_encoding.md R92). -/
def minValuePort : Sample := Config.minValue

/-- `ext_out`: combinational from the test input `ext_in` (30_encoding.md R92). -/
def extOut (extIn : Raw) : Sample := extend24 extIn

end Sys2Proof.Machine
end

