-- ==== Sys2Proof/Safety.lean ====
section
/-!
DEFINITION. The terms claims are stated in: what a trace says (the requests of a run, a pulse, a
frame), which command is legal when, what a safe run is, and the invariants of the engine.
-/

namespace Sys2Proof.Machine

/-! ### Reading a trace -/

/-- A request with its answer, as the spec's traces list them (00_scope.md section 7): not the events
of the command channel, the response channel and the reset pin. -/
def Event.isRequest : Event → Bool
  | .accept _ => false
  | .lineWrite _ _ => true
  | .lineRead _ => true
  | .delay _ => true
  | .respond _ => false
  | .rst => false

/-- The spec's trace of a run: its answered requests in order (20_memory.md R60). -/
def requests (tr : List Event) : List Event := tr.filter Event.isRequest

/-- W0 and W1. -/
abbrev w0 : Event := .lineWrite .low .ok
abbrev w1 : Event := .lineWrite .high .ok

/-- R0 and R1: a read answered with the level `b`. -/
abbrev rd (b : Level) : Event := .lineRead (.level b)

/-- A data pulse that samples `b`: W1 D1 Rb W0 D1 (42_retrieve.md R123). -/
def dataPulse (b : Level) : List Event := [w1, .delay 1, rd b, w0, .delay 1]

/-- A trailing pulse: W1 D1 W0 D1 (42_retrieve.md R124). -/
def trailingPulse : List Event := [w1, .delay 1, w0, .delay 1]

/-- A frame without its poll: the set-up delay, a data pulse for each sample, `n` trailing pulses
(30_encoding.md R88). -/
def frameBody (bs : List Level) (n : Nat) : List Event :=
  .delay 1 :: (bs.flatMap dataPulse ++ (List.replicate n trailingPulse).flatten)

/-- The weight of a level as a bit. -/
def levelNat : Level → Nat
  | .low => 0
  | .high => 1

/-- The number whose binary digits, most significant first, are the sampled levels: the sum of
b_k · 2^(n−k) of 42_retrieve.md R129. -/
def msbFirst (bs : List Level) : Nat := bs.foldl (fun v b => 2 * v + levelNat b) 0

/-- How many of the events are writes of the level `l` answered ok. -/
def countWrites (l : Level) (tr : List Event) : Nat := tr.countP (· == .lineWrite l .ok)

/-- How many of the events are reads answered with a level. -/
def countReads (tr : List Event) : Nat := tr.countP (fun e => e == rd .low || e == rd .high)

/-- How many of the events are delays of `n` microseconds. -/
def countDelays (n : Nat) (tr : List Event) : Nat := tr.countP (· == .delay n)

/-- How many responses the trace holds. -/
def countResponses (tr : List Event) : Nat :=
  tr.countP (fun e => match e with
    | .respond _ => true
    | _ => false)

/-- One event, for `pendingOp`. -/
def pendingStep (op : Op) : Event → Op
  | .accept o => o
  | .respond _ => .none
  | .rst => .none
  | .lineWrite _ _ => op
  | .lineRead _ => op
  | .delay _ => op

/-- The command a trace leaves in progress: accepted, and neither answered nor cut by `rst`. -/
def pendingOp (tr : List Event) : Op := tr.foldl pendingStep .none

/-- One event, for `drivenLevel`. -/
def drivenStep (d : Option Level) : Event → Option Level
  | .lineWrite l .ok => some l
  | .lineWrite _ (.fault _) => none
  | .rst => none
  | .accept _ => d
  | .lineRead _ => d
  | .delay _ => d
  | .respond _ => d

/-- The level the clock line was last driven to, where the last write was answered ok and no `rst`
came after it (10_state.md R24). -/
def drivenLevel (tr : List Event) : Option Level := tr.foldl drivenStep none

/-- What is known of the last command that ended: the command being followed, and the last response
with its command. -/
structure Ended where
  current : Op
  last : Option (Op × Response)
  deriving DecidableEq, Repr

/-- One event, for `lastEnded`. -/
def endedStep (k : Ended) : Event → Ended
  | .accept o => { k with current := o }
  | .respond r => { current := .none, last := some (k.current, r) }
  | .rst => { current := .none, last := none }
  | .lineWrite _ _ => k
  | .lineRead _ => k
  | .delay _ => k

/-- The commands of a trace, followed to its end. -/
def endedOf (tr : List Event) : Ended := tr.foldl endedStep (Ended.mk .none none)

/-- The last command that ended in a trace, with its outcome; nothing is known after `rst`. -/
def lastEnded (tr : List Event) : Option (Op × Response) := (endedOf tr).last

/-- A Fault outcome. -/
def Response.isFault : Response → Bool
  | .ok => false
  | .okValue _ => false
  | .wouldBlock => false
  | .fault _ => true

/-! ### What an environment answers -/

/-- The channel's next answers are those of the list, and `o'` is what comes after them; `next` gives
one answer (`nextWrite`, `nextRead` or `nextDelay`). -/
def Yields {α : Type} (next : Answers α → Option (α × Answers α)) :
    Answers α → List α → Answers α → Prop
  | o, [], o' => o = o'
  | o, a :: as, o' => ∃ o1, next o = some (a, o1) ∧ Yields next o1 as o'

/-- The channel answers `a` to every request, for ever. -/
def YieldsForever {α : Type} (next : Answers α → Option (α × Answers α)) (a : α)
    (o : Answers α) : Prop :=
  ∀ n, ∃ o', Yields next o (List.replicate n a) o'

/-- The channel answers at least `n` more requests, each as it likes. -/
def YieldsAtLeast {α : Type} (next : Answers α → Option (α × Answers α)) (n : Nat)
    (o : Answers α) : Prop :=
  ∃ as o', as.length = n ∧ Yields next o as o'

/-- The channel with its next answer written into the list, where its tail gives one. -/
def Answers.reveal {α : Type} (next : Answers α → Option (α × Answers α)) (o : Answers α) :
    Answers α :=
  match next o with
  | some (a, o') => { o' with listed := a :: o'.listed }
  | none => o

/-! ### Legal commands and safe runs -/

/-- 40_lifecycle.md R100: while OWN = 0 only NEW, while OWN = 1 any command but NEW; a reserved word
never (30_encoding.md R84). -/
def legalNow (own : Bool) : Instr → Bool
  | .new => !own
  | .enable => own
  | .disable => own
  | .retrieve => own
  | .setMode m => own && isMode m
  | .reset => own
  | .destroy => own
  | .reservedOp7 _ => false
  | .reservedSetMode0 => false

/-- The host keeps its duty at this state: an idle engine is offered no word but that of a legal
command (40_lifecycle.md R100; 30_encoding.md R84). -/
def HostKeepsDuty (s : State) : Prop :=
  s.seq.phase = .idle → ∀ w ws, s.cmds = w :: ws →
    ∃ i, decode w = .ok i ∧ legalNow s.own i = true

/-- An idle engine is offered the command `i`, the words `ws` behind it, and `rst` stays low. -/
def Offered (i : Instr) (ws : List CmdWord) (s : State) : Prop :=
  s.seq.phase = .idle ∧ s.rstPin = [] ∧ ∃ w, s.cmds = w :: ws ∧ decode w = .ok i

/-- A safe run: `n` steps, none of which stops the machine. -/
def SafeRun (n : Nat) (s : State) : Prop := ∃ t, Host.Core.run core n s = .next t

/-! ### The invariants -/

/-- The commands whose rows the table of 10_state.md R31 has for a phase. -/
def phaseOps : Phase → List Op
  | .idle => [.none]
  | .nLow => [.new]
  | .eLow => [.enable]
  | .dHigh => [.disable]
  | .dHold => [.disable]
  | .xHigh => [.reset]
  | .xRd1 => [.reset]
  | .xRd2 => [.reset]
  | .xLow => [.reset]
  | .gLow => [.retrieve, .setMode]
  | .gRdy => [.retrieve, .setMode]
  | .gSetup => [.retrieve, .setMode]
  | .bHigh => [.retrieve, .setMode]
  | .bWaitH => [.retrieve, .setMode]
  | .bSample => [.retrieve, .setMode]
  | .bLow => [.retrieve, .setMode]
  | .bWaitL => [.retrieve, .setMode]
  | .tHigh => [.retrieve, .setMode]
  | .tWaitH => [.retrieve, .setMode]
  | .tLow => [.retrieve, .setMode]
  | .tWaitL => [.retrieve, .setMode]

/-- A data phase, where CNT counts 0 .. 23 (10_state.md R32). -/
def isDataPhase (p : Phase) : Bool :=
  p == .bHigh || p == .bWaitH || p == .bSample || p == .bLow || p == .bWaitL

/-- A trailing phase, where CNT counts 0 .. MODE − 1 (10_state.md R32). -/
def isTrailingPhase (p : Phase) : Bool :=
  p == .tHigh || p == .tWaitH || p == .tLow || p == .tWaitL

/-- The level the command's own earlier writes have put on the clock line when it is in a phase, where
it has made one. -/
def heldLevel : Phase → Option Level
  | .idle => none
  | .nLow => none
  | .eLow => none
  | .dHigh => none
  | .dHold => some .high
  | .xHigh => none
  | .xRd1 => some .high
  | .xRd2 => some .high
  | .xLow => some .high
  | .gLow => none
  | .gRdy => some .low
  | .gSetup => some .low
  | .bHigh => some .low
  | .bWaitH => some .high
  | .bSample => some .high
  | .bLow => some .high
  | .bWaitL => some .low
  | .tHigh => some .low
  | .tWaitH => some .high
  | .tLow => some .high
  | .tWaitL => some .low

/-- The engine's invariant. -/
structure EngineInv (s : State) : Prop where
  /-- (OP, PHASE) has a row in the table (10_state.md R30, R31). -/
  row : s.seq.op ∈ phaseOps s.seq.phase
  /-- NEW runs only while OWN = 0 (40_lifecycle.md R100). -/
  newUnowned : s.seq.op = .new → s.own = false
  /-- Every other command runs only while OWN = 1 (40_lifecycle.md R100). -/
  otherOwned : s.seq.op ≠ .none → s.seq.op ≠ .new → s.own = true
  /-- An owned engine has one of the three Modes (10_state.md R21). -/
  modeLegal : s.own = true → s.mode ≠ 0b00#2
  /-- CNT counts the data pulses 0 .. 23 (10_state.md R32). -/
  dataCount : isDataPhase s.seq.phase = true → s.seq.cnt.toNat < 24
  /-- CNT counts the trailing pulses 0 .. MODE − 1 (10_state.md R32). -/
  trailingCount : isTrailingPhase s.seq.phase = true → s.seq.cnt.toNat < s.mode.toNat
  /-- Inside a command the clock line has the level its last write gave it (10_state.md R24). -/
  level : ∀ l, heldLevel s.seq.phase = some l → s.sck = l
  /-- The command in progress is the one accepted and not yet answered (30_encoding.md R85). -/
  pending : pendingOp s.trace = s.seq.op

/-- SCK is the level last driven with an answer ok (10_state.md R24). -/
def SckIsDriven (s : State) : Prop := ∀ l, drivenLevel s.trace = some l → s.sck = l

/-- 10_state.md R25: "whenever OWN = 1, SEQ.PHASE = IDLE, the last command's outcome was not `Fault`,
and the last command was not DISABLE, then SCK = low", and after a DISABLE that ended Ok SCK = high. -/
def IdleClock (s : State) : Prop :=
  s.own = true → s.seq.phase = .idle → ∀ op r, lastEnded s.trace = some (op, r) →
    r.isFault = false → (op ≠ .disable → s.sck = .low) ∧ (op = .disable → s.sck = .high)

/-! ### Renaming error values -/

/-- Renames the error of a write answer. -/
def WriteAnswer.mapErr (f : LineErr → LineErr) : WriteAnswer → WriteAnswer
  | .ok => .ok
  | .fault e => .fault (f e)

/-- Renames the error of a read answer. -/
def ReadAnswer.mapErr (f : LineErr → LineErr) : ReadAnswer → ReadAnswer
  | .level b => .level b
  | .fault e => .fault (f e)

/-- Renames the error of a response. -/
def Response.mapErr (f : LineErr → LineErr) : Response → Response
  | .ok => .ok
  | .okValue v => .okValue v
  | .wouldBlock => .wouldBlock
  | .fault e => .fault (f e)

/-- Renames the error of an event. -/
def Event.mapErr (f : LineErr → LineErr) : Event → Event
  | .accept op => .accept op
  | .lineWrite l a => .lineWrite l (a.mapErr f)
  | .lineRead a => .lineRead (a.mapErr f)
  | .delay n => .delay n
  | .respond r => .respond (r.mapErr f)
  | .rst => .rst

/-- Applies `g` to the answers a channel is known to give. -/
def Answers.map {α : Type} (g : α → α) (o : Answers α) : Answers α where
  listed := o.listed.map g
  tail :=
    match o.tail with
    | .silent => .silent
    | .always a => .always (g a)
    | .free n => .free n

/-- No answer of the channel is a free value: the errors in a free value are no data of the state. -/
def Answers.known {α : Type} (o : Answers α) : Bool :=
  match o.tail with
  | .silent => true
  | .always _ => true
  | .free _ => false

/-- Renames every error value a state holds. -/
def State.mapErr (f : LineErr → LineErr) (s : State) : State :=
  { s with
    rsp := s.rsp.map (Response.mapErr f)
    writeAns := s.writeAns.map (WriteAnswer.mapErr f)
    readAns := s.readAns.map (ReadAnswer.mapErr f)
    trace := s.trace.map (Event.mapErr f) }

/-! ### Comparing builds -/

/-- An event without the number of microseconds of a delay. -/
def Event.eraseDelay : Event → Event
  | .accept op => .accept op
  | .lineWrite l a => .lineWrite l a
  | .lineRead a => .lineRead a
  | .delay _ => .delay 0
  | .respond r => .respond r
  | .rst => .rst

/-- A state without the numbers in its delay events; everything else stays, the events too. -/
def State.eraseDelays (s : State) : State := { s with trace := s.trace.map Event.eraseDelay }

/-- The command recorded as `op`, with the op field `f`, is in progress or is the next word offered. -/
def Concerns (op : Op) (f : BitVec 3) (s : State) : Prop :=
  s.seq.op = op ∨ ∃ w ws, s.cmds = w :: ws ∧ opField w = f

/-! ### Outcomes -/

/-- Applies `g` to a next state. -/
def mapNext (g : State → State) : Host.Outcome State Fault Refusal → Host.Outcome State Fault Refusal
  | .next s => .next (g s)
  | .fault f => .fault f
  | .refused r => .refused r

end Sys2Proof.Machine
end

