-- ==== Sys2Proof/Certificates/Slice0/Obligations.lean ====
section
/-!
DEFINITION. The statements about the model. Each docstring names the rule of spec/ a statement
formalises. `Host.Core.run Sys2Proof.core n s` is `n` steps from `s`. A value the spec leaves open
(SCK after a faulted write, everything after `rst`) is never fixed by a statement.
-/

open Sys2Proof Sys2Proof.Machine

/-! ### Encoding -/

/-- 95_test_vectors.md section 2.8, from R81 to R84: what each of the 32 words decodes to, and the
canonical words. -/
def Obligations.DecodeGivesTableOfWords : Prop :=
  (List.range 32).map (decodeTableWord 8) =
    List.replicate 4 (some Instr.new) ++ List.replicate 4 (some .enable) ++
    List.replicate 4 (some .disable) ++ List.replicate 4 (some .retrieve) ++
    [some .reservedSetMode0, some (.setMode M1), some (.setMode M2), some (.setMode M3)] ++
    List.replicate 4 (some .reset) ++ List.replicate 4 (some .destroy) ++
    [some (.reservedOp7 0), some (.reservedOp7 1), some (.reservedOp7 2), some (.reservedOp7 3)] ∧
  [Instr.new, .enable, .disable, .retrieve, .setMode M1, .setMode M2, .setMode M3, .reset,
    .destroy].map encode =
    [0x00#5, 0x04#5, 0x08#5, 0x0C#5, 0x11#5, 0x12#5, 0x13#5, 0x14#5, 0x18#5]

/-- R80 to R83, R91: decoding an encoded command gives it back, the reserved rows too, and encoding a
decoded word gives back its `op`, and the whole word where `mode` means something. -/
def Obligations.DecodeEncodeAgree : Prop :=
  (∀ i : Instr, i.wellFormed = true → decode (encode i) = .ok i) ∧
  (∀ m, decode (encode (.reservedOp7 m)) = .ok (.reservedOp7 m)) ∧
  decode (encode .reservedSetMode0) = .ok .reservedSetMode0 ∧
  (∀ w i, decode w = .ok i →
    opField (encode i) = opField w ∧
    (opField w = 0b100#3 ∨ opField w = 0b111#3 → encode i = w))

/-- R83: every command but SET_MODE ignores `mode`, and the assembler writes 0 there. -/
def Obligations.ModeFieldIgnored : Prop :=
  (∀ w w' : CmdWord, opField w = opField w' → opField w ≠ 0b100#3 → opField w ≠ 0b111#3 →
    decode w = decode w') ∧
  (∀ i : Instr, i.wellFormed = true → (∀ m, i ≠ .setMode m) → modeField (encode i) = 0b00#2)

/-- R84: exactly five words have no meaning; issuing one refuses the run; the word of an absent
optional operation joins them. -/
def Obligations.ReservedWordsRefused : Prop :=
  (∀ m s, exec (.reservedOp7 m) s = .refused .reservedWord) ∧
  (∀ s : State, exec .reservedSetMode0 s = .refused .reservedWord) ∧
  (∀ w : CmdWord, (∃ i, decode w = .ok i ∧ i.wellFormed = true) ↔
    w ∉ [0x10#5, 0x1C#5, 0x1D#5, 0x1E#5, 0x1F#5]) ∧
  (∀ (s : State) w ws, s.rstNow = false → s.seq.phase = .idle → s.cmds = w :: ws →
    w ∈ [0x10#5, 0x1C#5, 0x1D#5, 0x1E#5, 0x1F#5] → step s = .refused .reservedWord) ∧
  (∀ p w, (p.hasReset = false ∧ opField w = 0b101#3) ∨
    (p.hasDestroy = false ∧ opField w = 0b110#3) →
    decodeIn p w = .error .absentOperation)

/-! ### Acceptance and lifetime -/

/-- R101 with R100: a well-formed command that is not legal now is refused when it is issued. -/
def Obligations.CommandOutsideLifetimeRefused : Prop :=
  ∀ i s, i.wellFormed = true → s.seq.phase = .idle → legalNow s.own i = false →
    exec i s = .refused .outsideLifetime

/-- R33: what acceptance does, for each command, and that a busy engine accepts nothing. -/
def Obligations.AcceptanceStartsCommand : Prop :=
  (∀ s : State, s.seq.phase = .idle → s.own = false →
    exec .new s = .next
      { s with
        seq := { s.seq with op := .new, phase := .nLow }, trace := s.trace ++ [.accept .new] }) ∧
  (∀ s : State, s.seq.phase = .idle → s.own = true →
    exec .enable s = .next
      { s with
        seq := { s.seq with op := .enable, phase := .eLow }
        trace := s.trace ++ [.accept .enable] } ∧
    exec .disable s = .next
      { s with
        seq := { s.seq with op := .disable, phase := .dHigh }
        trace := s.trace ++ [.accept .disable] } ∧
    exec .reset s = .next
      { s with
        seq := { s.seq with op := .reset, phase := .xHigh }, trace := s.trace ++ [.accept .reset] } ∧
    exec .retrieve s = .next
      { s with
        seq := { s.seq with op := .retrieve, phase := .gLow }
        trace := s.trace ++ [.accept .retrieve] } ∧
    (∀ m, m ≠ 0b00#2 → exec (.setMode m) s = .next
      { s with
        mode := m
        seq := { s.seq with op := .setMode, phase := .gLow }
        trace := s.trace ++ [.accept .setMode] }) ∧
    exec .destroy s = .next
      { s with
        own := false
        rsp := some .ok
        seq := { s.seq with op := .none, phase := .idle }
        trace := s.trace ++ [.accept .destroy, .respond .ok] }) ∧
  (∀ s t : State, s.rstNow = false → s.seq.phase ≠ .idle → step s = .next t → t.cmds = s.cmds)

/-! ### The rows of the sequencer table, R31 (each on a good answer) -/

/-- R31, R102, R104: the last row of NEW, and DESTROY. -/
def Obligations.LifecycleRowsComplete : Prop :=
  (∀ (s : State) rest, s.seq.phase = .nLow → nextWrite s.writeAns = some (.ok, rest) →
    exec .new s = .next
      { s with
        mode := M1, own := true, sck := .low, writeAns := rest, rsp := some .ok
        seq := { s.seq with op := .none, phase := .idle }
        trace := s.trace ++ [w0, .respond .ok] }) ∧
  (∀ s : State, s.seq.phase = .idle → s.own = true →
    exec .destroy s = .next
      { s with
        own := false, rsp := some .ok
        seq := { s.seq with op := .none, phase := .idle }
        trace := s.trace ++ [.accept .destroy, .respond .ok] })

/-- R31, R110, R112, R114: the rows of ENABLE, DISABLE and RESET. -/
def Obligations.PowerRowsComplete : Prop :=
  (∀ (s : State) rest, nextWrite s.writeAns = some (.ok, rest) →
    (s.seq.phase = .eLow →
      exec .enable s = .next
        { s with
          sck := .low, writeAns := rest, rsp := some .ok
          seq := { s.seq with op := .none, phase := .idle }
          trace := s.trace ++ [w0, .respond .ok] }) ∧
    (s.seq.phase = .dHigh →
      exec .disable s = .next
        { s with
          sck := .high, writeAns := rest, seq := { s.seq with phase := .dHold }
          trace := s.trace ++ [w1] }) ∧
    (s.seq.phase = .xHigh →
      exec .reset s = .next
        { s with
          sck := .high, writeAns := rest, seq := { s.seq with phase := .xRd1 }
          trace := s.trace ++ [w1] }) ∧
    (s.seq.phase = .xLow →
      exec .reset s = .next
        { s with
          sck := .low, writeAns := rest, rsp := some .ok
          seq := { s.seq with op := .none, phase := .idle }
          trace := s.trace ++ [w0, .respond .ok] })) ∧
  (∀ (s : State) b rest, nextRead s.readAns = some (.level b, rest) →
    (s.seq.phase = .xRd1 →
      exec .reset s = .next
        { s with
          readAns := rest, seq := { s.seq with phase := .xRd2 }, trace := s.trace ++ [rd b] }) ∧
    (s.seq.phase = .xRd2 →
      exec .reset s = .next
        { s with
          readAns := rest, seq := { s.seq with phase := .xLow }, trace := s.trace ++ [rd b] })) ∧
  (∀ (s : State) d, s.seq.phase = .dHold → nextDelay s.delayAns = some ((), d) →
    exec .disable s = .next
      { s with
        delayAns := d, rsp := some .ok
        seq := { s.seq with op := .none, phase := .idle }
        trace := s.trace ++ [.delay 60, .respond .ok] })

/-- R31, R122, R127: the rows of RETRIEVE that SET_MODE does not share: the poll's two levels and the
end of the frame. -/
def Obligations.RetrieveRowsComplete : Prop :=
  (∀ (s : State) rest, s.seq.phase = .gLow → nextWrite s.writeAns = some (.ok, rest) →
    exec .retrieve s = .next
      { s with
        sck := .low, writeAns := rest, seq := { s.seq with phase := .gRdy }
        trace := s.trace ++ [w0] }) ∧
  (∀ (s : State) rest, s.seq.phase = .gRdy → nextRead s.readAns = some (.level .high, rest) →
    exec .retrieve s = .next
      { s with
        readAns := rest, rsp := some .wouldBlock
        seq := { s.seq with op := .none, phase := .idle }
        trace := s.trace ++ [rd .high, .respond .wouldBlock] }) ∧
  (∀ (s : State) rest, s.seq.phase = .gRdy → nextRead s.readAns = some (.level .low, rest) →
    exec .retrieve s = .next
      { s with
        readAns := rest, seq := { s.seq with phase := .gSetup }, trace := s.trace ++ [rd .low] }) ∧
  (∀ (s : State) d, s.seq.phase = .tWaitL → nextDelay s.delayAns = some ((), d) →
    (s.seq.cnt.toNat + 1 = s.modeValue.toNat →
      exec .retrieve s = .next
        { s with
          delayAns := d, rsp := some (.okValue (extend24 s.acc))
          seq := { s.seq with op := .none, phase := .idle }
          trace := s.trace ++ [.delay 1, .respond (.okValue (extend24 s.acc))] }) ∧
    (s.seq.cnt.toNat + 1 < s.modeValue.toNat →
      exec .retrieve s = .next
        { s with
          delayAns := d, seq := { s.seq with cnt := s.seq.cnt + 1, phase := .tHigh }
          trace := s.trace ++ [.delay 1] }))

/-- R31, R140, R141: the same rows of SET_MODE: a high level polls again, and the frame ends Ok. -/
def Obligations.SetModeRowsComplete : Prop :=
  ∀ m,
  (∀ (s : State) rest, s.seq.phase = .gLow → nextWrite s.writeAns = some (.ok, rest) →
    exec (.setMode m) s = .next
      { s with
        sck := .low, writeAns := rest, seq := { s.seq with phase := .gRdy }
        trace := s.trace ++ [w0] }) ∧
  (∀ (s : State) rest, s.seq.phase = .gRdy → nextRead s.readAns = some (.level .high, rest) →
    exec (.setMode m) s = .next
      { s with
        readAns := rest, seq := { s.seq with phase := .gLow }, trace := s.trace ++ [rd .high] }) ∧
  (∀ (s : State) rest, s.seq.phase = .gRdy → nextRead s.readAns = some (.level .low, rest) →
    exec (.setMode m) s = .next
      { s with
        readAns := rest, seq := { s.seq with phase := .gSetup }, trace := s.trace ++ [rd .low] }) ∧
  (∀ (s : State) d, s.seq.phase = .tWaitL → nextDelay s.delayAns = some ((), d) →
    (s.seq.cnt.toNat + 1 = s.modeValue.toNat →
      exec (.setMode m) s = .next
        { s with
          delayAns := d, rsp := some .ok
          seq := { s.seq with op := .none, phase := .idle }
          trace := s.trace ++ [.delay 1, .respond .ok] }) ∧
    (s.seq.cnt.toNat + 1 < s.modeValue.toNat →
      exec (.setMode m) s = .next
        { s with
          delayAns := d, seq := { s.seq with cnt := s.seq.cnt + 1, phase := .tHigh }
          trace := s.trace ++ [.delay 1] }))

/-- R31, R123 to R125: the rows of the frame, which RETRIEVE and SET_MODE share. -/
def Obligations.FrameRowsComplete : Prop :=
  ∀ i s, (i = .retrieve ∨ ∃ m, i = .setMode m) →
  (∀ rest, nextWrite s.writeAns = some (.ok, rest) →
    (s.seq.phase = .bHigh → exec i s = .next
      { s with
        sck := .high, writeAns := rest, seq := { s.seq with phase := .bWaitH }
        trace := s.trace ++ [w1] }) ∧
    (s.seq.phase = .bLow → exec i s = .next
      { s with
        sck := .low, writeAns := rest, seq := { s.seq with phase := .bWaitL }
        trace := s.trace ++ [w0] }) ∧
    (s.seq.phase = .tHigh → exec i s = .next
      { s with
        sck := .high, writeAns := rest, seq := { s.seq with phase := .tWaitH }
        trace := s.trace ++ [w1] }) ∧
    (s.seq.phase = .tLow → exec i s = .next
      { s with
        sck := .low, writeAns := rest, seq := { s.seq with phase := .tWaitL }
        trace := s.trace ++ [w0] })) ∧
  (∀ b rest, nextRead s.readAns = some (.level b, rest) → s.seq.phase = .bSample → exec i s = .next
    { s with
      acc := s.acc ||| (if b = .high then 1#24 else 0#24), readAns := rest
      seq := { s.seq with phase := .bLow }, trace := s.trace ++ [rd b] }) ∧
  (∀ d, nextDelay s.delayAns = some ((), d) →
    (s.seq.phase = .gSetup → exec i s = .next
      { s with
        acc := 0#24, delayAns := d, seq := { s.seq with cnt := 0#5, phase := .bHigh }
        trace := s.trace ++ [.delay 1] }) ∧
    (s.seq.phase = .bWaitH → exec i s = .next
      { s with
        acc := s.acc <<< 1, delayAns := d, seq := { s.seq with phase := .bSample }
        trace := s.trace ++ [.delay 1] }) ∧
    (s.seq.phase = .bWaitL → s.seq.cnt = 23#5 → exec i s = .next
      { s with
        delayAns := d, seq := { s.seq with cnt := 0#5, phase := .tHigh }
        trace := s.trace ++ [.delay 1] }) ∧
    (s.seq.phase = .bWaitL → s.seq.cnt ≠ 23#5 → exec i s = .next
      { s with
        delayAns := d, seq := { s.seq with cnt := s.seq.cnt + 1, phase := .bHigh }
        trace := s.trace ++ [.delay 1] }) ∧
    (s.seq.phase = .tWaitH → exec i s = .next
      { s with
        delayAns := d, seq := { s.seq with phase := .tLow }, trace := s.trace ++ [.delay 1] }))

/-! ### Line accesses, delays and their order -/

/-- R52: a LineWrite answered ok sets SCK, whatever SCK was, and the command goes on: to the next phase
of its row in the table of R31, or, where the row ends it, with Ok; answered fault(e), it ends the
command with Fault(e), and SCK is left open. -/
def Obligations.LineWriteSetsSckOrFaults : Prop :=
  ∀ (s : State) l a rest, s.seq.op ∈ phaseOps s.seq.phase → s.rstNow = false →
    s.request = some (.lineWrite l) → nextWrite s.writeAns = some (a, rest) →
    ∃ t, step s = .next t ∧ t.writeAns = rest ∧
      requests t.trace = requests s.trace ++ [.lineWrite l a] ∧
      (a = .ok → t.sck = l ∧
        (s.seq.phase, t.seq.phase) ∈
          [(Phase.nLow, Phase.idle), (.eLow, .idle), (.dHigh, .dHold), (.xHigh, .xRd1),
            (.xLow, .idle), (.gLow, .gRdy), (.bHigh, .bWaitH), (.bLow, .bWaitL),
            (.tHigh, .tWaitH), (.tLow, .tWaitL)] ∧
        (t.seq.phase = .idle → t.rsp = some .ok ∧ t.seq.op = .none) ∧
        (t.seq.phase ≠ .idle → t.rsp = none ∧ t.seq.op = s.seq.op)) ∧
      (∀ e, a = .fault e → t.rsp = some (.fault e) ∧ t.seq.phase = .idle ∧ t.seq.op = .none)

/-- R163: what taking the one exception, LineFault(e), does, for a faulted write (SCK open, R24) and a
faulted read (SCK as it was): no further request, Fault(e) with `rsp_data` 0, the engine idle, and
everything else as it stood. -/
def Obligations.LineFaultEndsCommand : Prop :=
  (∀ (s : State) l e rest, s.seq.op ∈ phaseOps s.seq.phase → s.rstNow = false →
    s.request = some (.lineWrite l) → nextWrite s.writeAns = some (.fault e, rest) →
    ∃ t, step s = .next t ∧ t.rsp = some (.fault e) ∧
      t.seq = { s.seq with op := .none, phase := .idle } ∧ t.request = none ∧
      t.mode = s.mode ∧ t.own = s.own ∧ t.acc = s.acc ∧ t.cmds = s.cmds ∧
      t.writeAns = rest ∧ t.readAns = s.readAns ∧ t.delayAns = s.delayAns ∧
      requests t.trace = requests s.trace ++ [.lineWrite l (.fault e)]) ∧
  (∀ (s : State) e rest, s.seq.op ∈ phaseOps s.seq.phase → s.rstNow = false →
    s.request = some .lineRead → nextRead s.readAns = some (.fault e, rest) →
    ∃ t, step s = .next t ∧ t.rsp = some (.fault e) ∧
      t.seq = { s.seq with op := .none, phase := .idle } ∧ t.request = none ∧
      t.mode = s.mode ∧ t.own = s.own ∧ t.acc = s.acc ∧ t.sck = s.sck ∧ t.cmds = s.cmds ∧
      t.writeAns = s.writeAns ∧ t.readAns = rest ∧ t.delayAns = s.delayAns ∧
      requests t.trace = requests s.trace ++ [.lineRead (.fault e)]) ∧
  (∀ e, rspData (.fault e) = 0#32)

/-- R59, R60, R164: a step of a command answers exactly the outstanding request, once, or waits; a
step of an idle engine makes no request. -/
def Obligations.EachStepAnswersTheOutstandingRequest : Prop :=
  (∀ s : State, s.seq.op ∈ phaseOps s.seq.phase → s.rstNow = false → s.seq.phase ≠ .idle →
    ∃ t, step s = .next t ∧ (
      (∃ l, s.request = some (.lineWrite l) ∧ t.readAns = s.readAns ∧ t.delayAns = s.delayAns ∧
        ((nextWrite s.writeAns = none ∧ t = s.tick) ∨
          ∃ a rest, nextWrite s.writeAns = some (a, rest) ∧ t.writeAns = rest ∧
            requests t.trace = requests s.trace ++ [.lineWrite l a])) ∨
      (s.request = some .lineRead ∧ t.writeAns = s.writeAns ∧ t.delayAns = s.delayAns ∧
        ((nextRead s.readAns = none ∧ t = s.tick) ∨
          ∃ a rest, nextRead s.readAns = some (a, rest) ∧ t.readAns = rest ∧
            requests t.trace = requests s.trace ++ [.lineRead a])) ∨
      (∃ n, s.request = some (.delay n) ∧ t.writeAns = s.writeAns ∧ t.readAns = s.readAns ∧
        ((nextDelay s.delayAns = none ∧ t = s.tick) ∨
          ∃ d, nextDelay s.delayAns = some ((), d) ∧ t.delayAns = d ∧
            requests t.trace = requests s.trace ++ [.delay n])))) ∧
  (∀ s t : State, s.seq.phase = .idle → step s = .next t →
    requests t.trace = requests s.trace ∧ t.writeAns = s.writeAns ∧ t.readAns = s.readAns ∧
    t.delayAns = s.delayAns)

/-- R12, R65: a step depends on an environment through the next answer of the channel it asks, alone.
Two contents of that channel with the same next answer (or with none) give the same result, up to what
is left on the channel; it makes no difference whether that answer is listed or comes from the tail;
the contents of a channel that is not asked make no difference and stay as they are (with `rst` high
none is asked, log 8); and whether there is a next state does not depend on the answers. -/
def Obligations.StepSeesOnlyTheNextAnswer : Prop :=
  (∀ (s : State) l o o' x, s.request = some (.lineWrite l) →
    (nextWrite o).map Prod.fst = (nextWrite o').map Prod.fst →
    mapNext (fun t => { t with writeAns := x }) (step { s with writeAns := o }) =
      mapNext (fun t => { t with writeAns := x }) (step { s with writeAns := o' })) ∧
  (∀ (s : State) o o' x, s.request = some .lineRead →
    (nextRead o).map Prod.fst = (nextRead o').map Prod.fst →
    mapNext (fun t => { t with readAns := x }) (step { s with readAns := o }) =
      mapNext (fun t => { t with readAns := x }) (step { s with readAns := o' })) ∧
  (∀ (s : State) n o o' x, s.request = some (.delay n) →
    (nextDelay o).map Prod.fst = (nextDelay o').map Prod.fst →
    mapNext (fun t => { t with delayAns := x }) (step { s with delayAns := o }) =
      mapNext (fun t => { t with delayAns := x }) (step { s with delayAns := o' })) ∧
  (∀ (s : State) l, s.request = some (.lineWrite l) → s.rstNow = false →
    step { s with writeAns := s.writeAns.reveal nextWrite } = step s) ∧
  (∀ s : State, s.request = some .lineRead → s.rstNow = false →
    step { s with readAns := s.readAns.reveal nextRead } = step s) ∧
  (∀ (s : State) n, s.request = some (.delay n) → s.rstNow = false →
    step { s with delayAns := s.delayAns.reveal nextDelay } = step s) ∧
  (∀ (s : State) o, (∀ l, s.request = some (.lineWrite l) → s.rstNow = true) →
    step { s with writeAns := o } = mapNext (fun t => { t with writeAns := o }) (step s)) ∧
  (∀ (s : State) o, (s.request = some .lineRead → s.rstNow = true) →
    step { s with readAns := o } = mapNext (fun t => { t with readAns := o }) (step s)) ∧
  (∀ (s : State) o, (∀ n, s.request = some (.delay n) → s.rstNow = true) →
    step { s with delayAns := o } = mapNext (fun t => { t with delayAns := o }) (step s)) ∧
  (∀ (s : State) wa ra da, (∃ t, step s = .next t) →
    ∃ t, step { s with writeAns := wa, readAns := ra, delayAns := da } = .next t)

/-- R54: a delay is one of 1 and 60 microseconds; a completed one leaves MODE, SCK and OWN alone (ACC
and SEQ change as the row that asked for it says, R31) and cannot end a command with a fault. -/
def Obligations.DelayCannotFault : Prop :=
  ∀ (s : State) n d, s.seq.op ∈ phaseOps s.seq.phase → s.rstNow = false →
    s.request = some (.delay n) → nextDelay s.delayAns = some ((), d) →
    (n = 1 ∨ n = 60) ∧
    ∃ t, step s = .next t ∧ t.mode = s.mode ∧ t.sck = s.sck ∧ t.own = s.own ∧
      requests t.trace = requests s.trace ++ [.delay n] ∧ (∀ e, t.rsp ≠ some (.fault e))

/-- R172: a request that is never answered leaves the engine waiting where it is, for ever. -/
def Obligations.UnansweredRequestWaitsForever : Prop :=
  ∀ (s : State) n, s.seq.op ∈ phaseOps s.seq.phase → s.rstPin = [] → s.rsp = none →
    ((∃ l, s.request = some (.lineWrite l) ∧ nextWrite s.writeAns = none) ∨
      (s.request = some .lineRead ∧ nextRead s.readAns = none) ∨
      (∃ k, s.request = some (.delay k) ∧ nextDelay s.delayAns = none)) →
    Host.Core.run Sys2Proof.core n s = .next s

/-- R39, R56, R60: at most one request output is up, none where the engine is idle, and `dly_us` shows
1 or 60. That one output is up in EVERY busy state is the model's choice (log 18): R30 says
"outstanding or about to be issued", and R56 drops a `*_req` after each answer. -/
def Obligations.AtMostOneRequestOutput : Prop :=
  ∀ s : State,
    (s.sckReq = true → s.doutReq = false ∧ s.dlyReq = false) ∧
    (s.doutReq = true → s.dlyReq = false) ∧
    ((s.sckReq || s.doutReq || s.dlyReq) = !s.cmdReady) ∧
    (s.dlyReq = true → s.dlyUs = 1#8 ∨ s.dlyUs = 60#8)

/-! ### Reset and the invariants -/

/-- R190, R192: `rst` abandons whatever is in progress: no response is given, no request is made or
answered, OWN = 0, SEQ is idle and every request output is 0. Nothing is said of what R190 leaves
unspecified. That the withdrawn request takes no answer and the answers to come serve later requests
(the last three clauses) is the model's choice, log 8. -/
def Obligations.ResetPinAbandonsCommand : Prop :=
  ∀ s : State, s.rstNow = true →
    ∃ t, step s = .next t ∧ t.own = false ∧ t.seq.op = .none ∧ t.seq.phase = .idle ∧
      t.rsp = none ∧ t.sckReq = false ∧ t.doutReq = false ∧ t.dlyReq = false ∧
      t.rspValid = false ∧ requests t.trace = requests s.trace ∧
      countResponses t.trace = countResponses s.trace ∧
      t.writeAns = s.writeAns ∧ t.readAns = s.readAns ∧ t.delayAns = s.delayAns

/-- R40, R190, R194: the spec's part of the state after reset, and that NEW is the one command it
takes. -/
def Obligations.ResetStateTakesOnlyNew : Prop :=
  State.reset.own = false ∧ State.reset.seq.op = .none ∧ State.reset.seq.phase = .idle ∧
  State.reset.cmdReady = true ∧ State.reset.rspValid = false ∧ State.reset.request = none ∧
  (∃ t, exec .new State.reset = .next t) ∧
  (∀ i, i.wellFormed = true → i ≠ .new → exec i State.reset = .refused .outsideLifetime)

/-- The invariants hold after reset. -/
def Obligations.InvariantsHoldAtReset : Prop :=
  EngineInv State.reset ∧ SckIsDriven State.reset ∧ IdleClock State.reset

/-- R21, R24, R30 to R32, R85, R100: every step keeps the engine's invariant, from every state that
has it. -/
def Obligations.StepKeepsInv : Prop :=
  ∀ s t : State, EngineInv s → step s = .next t → EngineInv t

/-- R24: every step keeps SCK at the level last driven with an answer ok. -/
def Obligations.StepKeepsSckDriven : Prop :=
  ∀ s t : State, SckIsDriven s → step s = .next t → SckIsDriven t

/-- R25: every step keeps the invariant of the clock line. -/
def Obligations.StepKeepsIdleClock : Prop :=
  ∀ s t : State, EngineInv s → IdleClock s → step s = .next t → IdleClock t

/-- R85: a response appears exactly when the command in progress, or DESTROY at its acceptance, ends;
then the engine is idle; a step gives at most one. -/
def Obligations.OneResponsePerCommand : Prop :=
  ∀ s t : State, EngineInv s → step s = .next t →
    countResponses t.trace = countResponses s.trace + (if t.rspValid then 1 else 0) ∧
    (∀ r, t.rsp = some r → t.seq.phase = .idle ∧ t.seq.op = .none ∧
      t.trace.getLast? = some (.respond r)) ∧
    (s.seq.phase ≠ .idle → s.rstNow = false → (t.rspValid = true ↔ t.seq.phase = .idle))

/-! ### The step -/

/-- A step runs the decoded command: an idle engine the next word of the command channel, a busy one
the command in progress; with nothing offered it stays idle. -/
def Obligations.StepRunsDecodedCommand : Prop :=
  (∀ (s : State) w ws i, s.rstNow = false → s.seq.phase = .idle → s.cmds = w :: ws →
    decode w = .ok i →
    step s = exec i { s with cmds := ws, rsp := none, rstPin := s.rstPin.tail }) ∧
  (∀ (s : State) i, s.rstNow = false → s.seq.phase ≠ .idle → s.inProgress = some i →
    step s = exec i { s with rsp := none, rstPin := s.rstPin.tail }) ∧
  (∀ s : State, s.rstNow = false → s.seq.phase = .idle → s.cmds = [] →
    step s = .next { s with rsp := none, rstPin := s.rstPin.tail })

/-- R84, R101, R167, R173: the machine stops at nothing but a command the host must not issue. -/
def Obligations.StepStopsOnlyAtIllegalCommand : Prop :=
  ∀ s : State, EngineInv s → HostKeepsDuty s → ∃ t, step s = .next t

/-- R10, R12: the parameters are a parameter of the step relation. This hardware is the build with the
spec's defaults; each delay parameter is the delay of its phases, and a phase that asks no delay asks
the same in every build; two builds differ in nothing but the numbers in the delay events, wherever
they have the same commands or the commands one of them lacks are not concerned; and the word of an
absent optional operation refuses the run (R84). -/
def Obligations.BuildParametersMoveDelaysOnly : Prop :=
  (∀ s : State, stepIn Config.params s = step s) ∧
  (∀ p : Params, phaseRequestIn p .gSetup = some (.delay p.tSetupUs) ∧
    phaseRequestIn p .bWaitH = some (.delay p.tHighUs) ∧
    phaseRequestIn p .tWaitH = some (.delay p.tHighUs) ∧
    phaseRequestIn p .bWaitL = some (.delay p.tLowUs) ∧
    phaseRequestIn p .tWaitL = some (.delay p.tLowUs) ∧
    phaseRequestIn p .dHold = some (.delay p.tPdUs)) ∧
  (∀ (p : Params) (ph : Phase), (∀ n, phaseRequest ph ≠ some (.delay n)) →
    phaseRequestIn p ph = phaseRequest ph) ∧
  (∀ (p : Params) (s : State) n d, s.seq.op ∈ phaseOps s.seq.phase → s.rstNow = false →
    phaseRequestIn p s.seq.phase = some (.delay n) → nextDelay s.delayAns = some ((), d) →
    ∃ t, stepIn p s = .next t ∧ t.delayAns = d ∧
      requests t.trace = requests s.trace ++ [.delay n]) ∧
  (∀ (p q : Params) (s : State),
    (Concerns .reset 0b101#3 s → p.hasReset = q.hasReset) →
    (Concerns .destroy 0b110#3 s → p.hasDestroy = q.hasDestroy) →
    mapNext State.eraseDelays (stepIn p s) = mapNext State.eraseDelays (stepIn q s)) ∧
  (∀ (p : Params) (s : State) w ws, s.rstNow = false → s.seq.phase = .idle → s.cmds = w :: ws →
    (p.hasReset = false ∧ opField w = 0b101#3) ∨ (p.hasDestroy = false ∧ opField w = 0b110#3) →
    stepIn p s = .refused .absentOperation)

/-! ### Frames -/

/-- R23: NEW and SET_MODE are the only writers of MODE; RETRIEVE and SET_MODE are its only readers,
and only where they end a trailing pulse. -/
def Obligations.ModeWrittenByNewAndSetModeOnly : Prop :=
  (∀ (i : Instr) (s t : State), exec i s = .next t →
    (i = .new → t.mode = s.mode ∨ t.mode = M1) ∧
    (∀ m, i = .setMode m → t.mode = s.mode ∨ t.mode = m) ∧
    (i ≠ .new → (∀ m, i ≠ .setMode m) → t.mode = s.mode)) ∧
  (∀ (s : State) rest, s.seq.phase = .nLow → nextWrite s.writeAns = some (.ok, rest) →
    ∃ t, exec .new s = .next t ∧ t.mode = M1) ∧
  (∀ (s : State) m, s.seq.phase = .idle → s.own = true → m ≠ 0b00#2 →
    ∃ t, exec (.setMode m) s = .next t ∧ t.mode = m) ∧
  (∀ i s x y, (i = .retrieve ∨ (∃ m, i = .setMode m) → s.seq.phase ≠ .tWaitL) →
    mapNext (fun t => { t with mode := x }) (exec i { s with mode := y }) =
      mapNext (fun t => { t with mode := x }) (exec i s))

/-- R27: NEW and DESTROY are the only writers of OWN, each with its value, and while OWN = 0 the
engine makes no request but those of a NEW in progress. -/
def Obligations.OwnWrittenByNewAndDestroyOnly : Prop :=
  (∀ (i : Instr) (s t : State), exec i s = .next t →
    (i = .new → t.own = true ∨ t.own = s.own) ∧
    (i = .destroy → t.own = false) ∧
    (i ≠ .new → i ≠ .destroy → t.own = s.own)) ∧
  (∀ (s : State) rest, s.seq.phase = .nLow → nextWrite s.writeAns = some (.ok, rest) →
    ∃ t, exec .new s = .next t ∧ t.own = true ∧ t.rsp = some .ok) ∧
  (∀ s t : State, EngineInv s → s.own = false → s.seq.op ≠ .new → step s = .next t →
    requests t.trace = requests s.trace)

/-- R105: while OWN = 0 no step reads MODE: what stands in the register makes no difference to anything
but the register. (The register itself keeps its content, since R104 says DESTROY does not write it;
a read of it is a free value, log 22.) -/
def Obligations.ModeUnreadableWhileUnowned : Prop :=
  ∀ (s : State) x y, s.own = false →
    mapNext (fun t => { t with mode := y }) (step { s with mode := x }) =
      mapNext (fun t => { t with mode := y }) (step s)

/-- R28, R32, R156: ACC and CNT change in no command but RETRIEVE and SET_MODE, and there only in the
phases of the table. -/
def Obligations.AccAndCntWrittenInFrameOnly : Prop :=
  ∀ (i : Instr) (s t : State), exec i s = .next t →
    (i ≠ .retrieve → (∀ m, i ≠ .setMode m) → t.acc = s.acc ∧ t.seq.cnt = s.seq.cnt) ∧
    (s.seq.phase ≠ .gSetup → s.seq.phase ≠ .bWaitH → s.seq.phase ≠ .bSample → t.acc = s.acc) ∧
    (s.seq.phase ≠ .gSetup → s.seq.phase ≠ .bWaitL → s.seq.phase ≠ .tWaitL →
      t.seq.cnt = s.seq.cnt)

/-- R51: which command reaches which channel and which it leaves alone, and that none reads the clock
line. -/
def Obligations.CommandReachesItsChannelsOnly : Prop :=
  (∀ (i : Instr) (s t : State), exec i s = .next t →
    (i = .new ∨ i = .enable → t.readAns = s.readAns ∧ t.delayAns = s.delayAns) ∧
    (i = .disable → t.readAns = s.readAns) ∧
    (i = .reset → t.delayAns = s.delayAns) ∧
    (i = .destroy → t.writeAns = s.writeAns ∧ t.readAns = s.readAns ∧
      t.delayAns = s.delayAns ∧ t.sck = s.sck)) ∧
  (∀ s : State, s.seq.phase = .idle → s.own = false →
    ∃ t, exec .new s = .next t ∧ t.request = some (.lineWrite .low)) ∧
  (∀ s : State, s.seq.phase = .idle → s.own = true →
    (∃ t, exec .enable s = .next t ∧ t.request = some (.lineWrite .low)) ∧
    (∃ t, exec .disable s = .next t ∧ t.request = some (.lineWrite .high)) ∧
    (∃ t, exec .reset s = .next t ∧ t.request = some (.lineWrite .high)) ∧
    (∃ t, exec .retrieve s = .next t ∧ t.request = some (.lineWrite .low)) ∧
    (∀ m, m ≠ 0b00#2 →
      ∃ t, exec (.setMode m) s = .next t ∧ t.request = some (.lineWrite .low))) ∧
  (∀ (s : State) rest, nextWrite s.writeAns = some (.ok, rest) →
    (s.seq.phase = .dHigh → ∃ t, exec .disable s = .next t ∧ t.request = some (.delay 60)) ∧
    (s.seq.phase = .xHigh → ∃ t, exec .reset s = .next t ∧ t.request = some .lineRead) ∧
    (s.seq.phase = .gLow → ∃ t, exec .retrieve s = .next t ∧ t.request = some .lineRead) ∧
    (s.seq.phase = .gLow → ∀ m, ∃ t, exec (.setMode m) s = .next t ∧
      t.request = some .lineRead)) ∧
  (∀ (s : State) rest, s.seq.phase = .gRdy → nextRead s.readAns = some (.level .low, rest) →
    (∃ t, exec .retrieve s = .next t ∧ t.request = some (.delay 1)) ∧
    (∀ m, ∃ t, exec (.setMode m) s = .next t ∧ t.request = some (.delay 1))) ∧
  (∀ i s k l, mapNext (fun t => { t with sck := k }) (exec i { s with sck := l }) =
    mapNext (fun t => { t with sck := k }) (exec i s))

/-- R63: what every command leaves alone: the words still offered and the reset pin; the trace is only
added to, by at most two events; a response is only added; SCK changes only with an answer of the
clock line, and a free value is drawn only where that answer is a fault (the counter is the model's
own, log 5). -/
def Obligations.EveryCommandFrame : Prop :=
  ∀ (i : Instr) (s t : State), exec i s = .next t →
    t.cmds = s.cmds ∧ t.rstPin = s.rstPin ∧
    (∃ evs, t.trace = s.trace ++ evs ∧ evs.length ≤ 2) ∧
    (t.rsp = s.rsp ∨ (t.rsp.isSome = true ∧ t.seq.phase = .idle)) ∧
    (t.sck = s.sck ∨ ∃ a rest, nextWrite s.writeAns = some (a, rest) ∧ t.writeAns = rest) ∧
    (t.draws = s.draws ∨
      ∃ e rest, nextWrite s.writeAns = some (.fault e, rest) ∧ t.writeAns = rest)

/-! ### Responses -/

/-- R86: the response word of each outcome, and which command gives which outcome. -/
def Obligations.ResponseWordAndItsCommand : Prop :=
  (rspStatus .ok = 0#2 ∧ rspData .ok = 0#32 ∧ rspError .ok = none) ∧
  (∀ v, rspStatus (.okValue v) = 0#2 ∧ rspData (.okValue v) = v ∧ rspError (.okValue v) = none) ∧
  (rspStatus .wouldBlock = 1#2 ∧ rspData .wouldBlock = 0#32 ∧ rspError .wouldBlock = none) ∧
  (∀ e, rspStatus (.fault e) = 2#2 ∧ rspData (.fault e) = 0#32 ∧ rspError (.fault e) = some e ∧
    rspErrWires (.fault e) = e) ∧
  (∀ r, rspError r = none → rspErrWires r = 0) ∧
  (∀ r, rspStatus r ≠ 3#2) ∧
  (∀ (i : Instr) (s t : State), s.rsp = none → exec i s = .next t →
    (t.rsp = some .wouldBlock → i = .retrieve) ∧
    (∀ v, t.rsp = some (.okValue v) → i = .retrieve) ∧
    (∀ e, t.rsp = some (.fault e) → i ≠ .destroy) ∧
    (t.rsp = some .ok → i ≠ .retrieve))

/-- R55: renaming every error value renames them in the result and changes nothing else, so no step
looks inside one. The error values meant are those the state holds: an environment of which nothing
is known holds none until it answers (StepSeesOnlyTheNextAnswer says that what it then answers serves
as a listed answer does). -/
def Obligations.ErrorValuesAreOpaque : Prop :=
  ∀ (f : LineErr → LineErr) (s : State), s.writeAns.known = true → s.readAns.known = true →
    step (s.mapErr f) = mapNext (State.mapErr f) (step s)

/-! ### The arithmetic -/

/-- R150: extend24 is sign extension, eight copies of bit 23 above the 24 bits. -/
def Obligations.Extend24IsSignExtension : Prop :=
  ∀ x : Raw,
    (x.getLsbD 23 = true → extend24 x = 0xFF000000#32 ||| x.setWidth 32) ∧
    (x.getLsbD 23 = false → extend24 x = x.setWidth 32) ∧
    extend24 x = x.signExtend 32 ∧
    extend24 x = (if x.getLsbD 23 then 0xFF#8 else 0x00#8) ++ x

/-- R153: the two laws of the source. -/
def Obligations.Extend24SignedValue : Prop :=
  ∀ x : Raw,
    (x.toNat ≤ 0x7FFFFF → (extend24 x).toInt = x.toNat) ∧
    (0x800000 ≤ x.toNat → (extend24 x).toInt = (x.toNat : Int) - 0x1000000)

/-- R152: range and injectivity; the largest sample is MAX_VALUE, the smallest is minus MIN_VALUE. -/
def Obligations.Extend24RangeAndInjective : Prop :=
  (∀ x : Raw, -8388608 ≤ (extend24 x).toInt ∧ (extend24 x).toInt ≤ 8388607) ∧
  (∀ x y : Raw, extend24 x = extend24 y → x = y) ∧
  (∀ x : Raw, (extend24 x).setWidth 24 = x) ∧
  (∃ x, extend24 x = Config.maxValue ∧ (extend24 x).toInt = 8388607) ∧
  (∃ x, (extend24 x).toInt = -Config.minValue.toInt ∧ (extend24 x).toInt = -8388608)

/-- R36, R92: the published constants and the test port. -/
def Obligations.PublishedConstants : Prop :=
  maxValuePort = 0x007FFFFF#32 ∧ maxValuePort.toInt = 8388607 ∧
  minValuePort = 0x00800000#32 ∧ minValuePort.toInt = 8388608 ∧
  (∀ x, extOut x = extend24 x)

/-- R129: 24 shift-and-OR updates leave the sampled levels, most significant first, whatever ACC held
before. -/
def Obligations.AccumulationIsMsbFirst : Prop :=
  ∀ (a : Raw) (bs : List Level), bs.length = 24 →
    (bs.foldl (fun v b => orSample (shiftAcc v) b) a).toNat = msbFirst bs ∧
    (∀ k, k < 24 → ((bs.foldl (fun v b => orSample (shiftAcc v) b) a).getLsbD (23 - k) = true ↔
      bs[k]? = some .high))

/-! ### Whole commands -/

/-- R102: NEW, whether its one write is answered ok or fault(e). -/
def Obligations.NewTakesTheLines : Prop :=
  ∀ (s : State) ws, Offered .new ws s → s.own = false →
    (∀ rest, nextWrite s.writeAns = some (.ok, rest) →
      Host.Core.run Sys2Proof.core 2 s = .next
        { s with
          mode := M1, own := true, sck := .low, rsp := some .ok, cmds := ws, writeAns := rest
          seq := { s.seq with op := .none, phase := .idle }
          trace := s.trace ++ [.accept .new, w0, .respond .ok] }) ∧
    (∀ e rest, nextWrite s.writeAns = some (.fault e, rest) →
      ∃ k d, Host.Core.run Sys2Proof.core 2 s = .next
        { s with
          sck := k, draws := d, rsp := some (.fault e), cmds := ws, writeAns := rest
          seq := { s.seq with op := .none, phase := .idle }
          trace := s.trace ++
            [.accept .new, .lineWrite .low (.fault e), .respond (.fault e)] })

/-- R104: DESTROY. -/
def Obligations.DestroyReleasesTheLines : Prop :=
  ∀ (s : State) ws, Offered .destroy ws s → s.own = true →
    Host.Core.run Sys2Proof.core 1 s = .next
      { s with
        own := false, rsp := some .ok, cmds := ws
        seq := { s.seq with op := .none, phase := .idle }
        trace := s.trace ++ [.accept .destroy, .respond .ok] }

/-- R110: ENABLE, whether its one write is answered ok or fault(e). -/
def Obligations.EnableDrivesClockLow : Prop :=
  ∀ (s : State) ws, Offered .enable ws s → s.own = true →
    (∀ rest, nextWrite s.writeAns = some (.ok, rest) →
      Host.Core.run Sys2Proof.core 2 s = .next
        { s with
          sck := .low, rsp := some .ok, cmds := ws, writeAns := rest
          seq := { s.seq with op := .none, phase := .idle }
          trace := s.trace ++ [.accept .enable, w0, .respond .ok] }) ∧
    (∀ e rest, nextWrite s.writeAns = some (.fault e, rest) →
      ∃ k d, Host.Core.run Sys2Proof.core 2 s = .next
        { s with
          sck := k, draws := d, rsp := some (.fault e), cmds := ws, writeAns := rest
          seq := { s.seq with op := .none, phase := .idle }
          trace := s.trace ++
            [.accept .enable, .lineWrite .low (.fault e), .respond (.fault e)] })

/-- R112: DISABLE drives the clock high, requests 60 microseconds and only then answers; a faulted
write ends it without the delay. -/
def Obligations.DisableHoldsClockHigh : Prop :=
  ∀ (s : State) ws, Offered .disable ws s → s.own = true →
    (∀ rest d, nextWrite s.writeAns = some (.ok, rest) → nextDelay s.delayAns = some ((), d) →
      Host.Core.run Sys2Proof.core 3 s = .next
        { s with
          sck := .high, rsp := some .ok, cmds := ws, writeAns := rest, delayAns := d
          seq := { s.seq with op := .none, phase := .idle }
          trace := s.trace ++ [.accept .disable, w1, .delay 60, .respond .ok] }) ∧
    (∀ e rest, nextWrite s.writeAns = some (.fault e, rest) →
      ∃ k d, Host.Core.run Sys2Proof.core 2 s = .next
        { s with
          sck := k, draws := d, rsp := some (.fault e), cmds := ws, writeAns := rest
          seq := { s.seq with op := .none, phase := .idle }
          trace := s.trace ++
            [.accept .disable, .lineWrite .high (.fault e), .respond (.fault e)] })

/-- R114, R115: RESET makes four accesses, discards the levels, leaves MODE alone, and ends at the
access that faults. -/
def Obligations.LegacyResetSequence : Prop :=
  ∀ (s : State) ws, Offered .reset ws s → s.own = true →
    (∀ a b wr rr, Yields nextWrite s.writeAns [.ok, .ok] wr →
      Yields nextRead s.readAns [.level a, .level b] rr →
      Host.Core.run Sys2Proof.core 5 s = .next
        { s with
          sck := .low, rsp := some .ok, cmds := ws, writeAns := wr, readAns := rr
          seq := { s.seq with op := .none, phase := .idle }
          trace := s.trace ++ [.accept .reset, w1, rd a, rd b, w0, .respond .ok] }) ∧
    (∀ e wr, nextWrite s.writeAns = some (.fault e, wr) →
      ∃ k d, Host.Core.run Sys2Proof.core 2 s = .next
        { s with
          sck := k, draws := d, rsp := some (.fault e), cmds := ws, writeAns := wr
          seq := { s.seq with op := .none, phase := .idle }
          trace := s.trace ++
            [.accept .reset, .lineWrite .high (.fault e), .respond (.fault e)] }) ∧
    (∀ e wr rr, nextWrite s.writeAns = some (.ok, wr) →
      nextRead s.readAns = some (.fault e, rr) →
      Host.Core.run Sys2Proof.core 3 s = .next
        { s with
          sck := .high, rsp := some (.fault e), cmds := ws, writeAns := wr, readAns := rr
          seq := { s.seq with op := .none, phase := .idle }
          trace := s.trace ++
            [.accept .reset, w1, .lineRead (.fault e), .respond (.fault e)] }) ∧
    (∀ a e wr rr, nextWrite s.writeAns = some (.ok, wr) →
      Yields nextRead s.readAns [.level a, .fault e] rr →
      Host.Core.run Sys2Proof.core 4 s = .next
        { s with
          sck := .high, rsp := some (.fault e), cmds := ws, writeAns := wr, readAns := rr
          seq := { s.seq with op := .none, phase := .idle }
          trace := s.trace ++
            [.accept .reset, w1, rd a, .lineRead (.fault e), .respond (.fault e)] }) ∧
    (∀ a b e wr rr, Yields nextWrite s.writeAns [.ok, .fault e] wr →
      Yields nextRead s.readAns [.level a, .level b] rr →
      ∃ k d, Host.Core.run Sys2Proof.core 5 s = .next
        { s with
          sck := k, draws := d, rsp := some (.fault e), cmds := ws, writeAns := wr, readAns := rr
          seq := { s.seq with op := .none, phase := .idle }
          trace := s.trace ++ [.accept .reset, w1, rd a, rd b, .lineWrite .low (.fault e),
            .respond (.fault e)] })

/-- R122: the poll of RETRIEVE, for any Mode: a high level ends it with WouldBlock after exactly W0 R1,
a low one goes on to step 3, and WouldBlock comes in no other circumstance. -/
def Obligations.PollDecidesWouldBlock : Prop :=
  (∀ (s : State) ws wr rr, Offered .retrieve ws s → s.own = true →
    nextWrite s.writeAns = some (.ok, wr) →
    nextRead s.readAns = some (.level .high, rr) →
    Host.Core.run Sys2Proof.core 3 s = .next
      { s with
        sck := .low, rsp := some .wouldBlock, cmds := ws, writeAns := wr, readAns := rr
        seq := { s.seq with op := .none, phase := .idle }
        trace := s.trace ++ [.accept .retrieve, w0, rd .high, .respond .wouldBlock] }) ∧
  (∀ (s : State) ws wr rr, Offered .retrieve ws s → s.own = true →
    nextWrite s.writeAns = some (.ok, wr) →
    nextRead s.readAns = some (.level .low, rr) →
    Host.Core.run Sys2Proof.core 3 s = .next
      { s with
        sck := .low, rsp := none, cmds := ws, writeAns := wr, readAns := rr
        seq := { s.seq with op := .retrieve, phase := .gSetup }
        trace := s.trace ++ [.accept .retrieve, w0, rd .low] }) ∧
  (∀ s t : State, step s = .next t → t.rsp = some .wouldBlock →
    s.seq.op = .retrieve ∧ s.seq.phase = .gRdy ∧ ∃ rest, nextRead s.readAns = some (.level .high, rest))

/-- R121, R127, R129, R131: a RETRIEVE whose requests are all answered well and whose poll reads low
puts exactly one frame on the lines and answers the sign-extended sample, for each Mode. -/
def Obligations.RetrieveReturnsTheSample : Prop :=
  ∀ (s : State) ws (bs : List Level) wr rr d, Offered .retrieve ws s → s.own = true →
    s.mode ≠ 0b00#2 → bs.length = 24 →
    Yields nextWrite s.writeAns (List.replicate (49 + 2 * s.mode.toNat) .ok) wr →
    Yields nextRead s.readAns (.level .low :: bs.map .level) rr →
    Yields nextDelay s.delayAns (List.replicate (49 + 2 * s.mode.toNat) ()) d →
    Host.Core.run Sys2Proof.core (124 + 4 * s.mode.toNat) s = .next
      { s with
        sck := .low, acc := BitVec.ofNat 24 (msbFirst bs)
        rsp := some (.okValue (extend24 (BitVec.ofNat 24 (msbFirst bs))))
        cmds := ws, writeAns := wr, readAns := rr, delayAns := d
        seq := { op := .none, phase := .idle, cnt := s.mode.setWidth 5 - 1#5 }
        trace := s.trace ++ (.accept .retrieve :: w0 :: rd .low :: frameBody bs s.mode.toNat ++
          [.respond (.okValue (extend24 (BitVec.ofNat 24 (msbFirst bs))))]) }

/-- R130: the counts of a RETRIEVE that ends OkValue and of one that ends WouldBlock. -/
def Obligations.RetrieveRequestCounts : Prop :=
  (∀ (s : State) ws (bs : List Level) wr rr d, Offered .retrieve ws s → s.own = true →
    s.mode ≠ 0b00#2 → bs.length = 24 →
    Yields nextWrite s.writeAns (List.replicate (49 + 2 * s.mode.toNat) .ok) wr →
    Yields nextRead s.readAns (.level .low :: bs.map .level) rr →
    Yields nextDelay s.delayAns (List.replicate (49 + 2 * s.mode.toNat) ()) d →
    ∃ t v evs, Host.Core.run Sys2Proof.core (124 + 4 * s.mode.toNat) s = .next t ∧
      t.rsp = some (.okValue v) ∧ t.trace = s.trace ++ evs ∧
      countWrites .high evs = 24 + s.mode.toNat ∧ countWrites .low evs = 25 + s.mode.toNat ∧
      countReads evs = 25 ∧ countDelays 1 evs = 1 + 2 * (24 + s.mode.toNat) ∧
      (requests evs).length = 25 + 2 * (1 + 2 * (24 + s.mode.toNat))) ∧
  (∀ (s : State) ws wr rr, Offered .retrieve ws s → s.own = true →
    nextWrite s.writeAns = some (.ok, wr) →
    nextRead s.readAns = some (.level .high, rr) →
    ∃ t evs, Host.Core.run Sys2Proof.core 3 s = .next t ∧ t.rsp = some .wouldBlock ∧
      t.trace = s.trace ++ evs ∧ requests evs = [w0, rd .high])

/-- R134: a RETRIEVE ends within 136 steps, in one of its three ways, if the environment has an answer
for each request it can make. The value is that of R121 and R127, a fault that of R128. It is read here
from ACC of the idle engine after the response, where R29 calls ACC dead: that ACC still holds it is
the model's inference (log 23). -/
def Obligations.RetrieveAlwaysEnds : Prop :=
  ∀ (s : State) ws, Offered .retrieve ws s → s.own = true → s.mode ≠ 0b00#2 →
    YieldsAtLeast nextWrite 55 s.writeAns → YieldsAtLeast nextRead 25 s.readAns →
    YieldsAtLeast nextDelay 55 s.delayAns →
    ∃ n t, n ≤ 136 ∧ Host.Core.run Sys2Proof.core n s = .next t ∧ t.seq.phase = .idle ∧
      t.cmds = ws ∧ t.mode = s.mode ∧ t.own = true ∧
      (t.rsp = some .wouldBlock ∨ (∃ e, t.rsp = some (.fault e)) ∨
        t.rsp = some (.okValue (extend24 t.acc)))

/-- R140, R141, R145, R146: a SET_MODE m that polls k times in vain and then reads low puts one frame
with m trailing pulses on the lines and answers Ok, whatever MODE was. -/
def Obligations.SetModeRunsOneFrame : Prop :=
  ∀ (s : State) ws m k (bs : List Level) wr rr d, Offered (.setMode m) ws s → s.own = true →
    m ≠ 0b00#2 → bs.length = 24 →
    Yields nextWrite s.writeAns (List.replicate (k + 49 + 2 * m.toNat) .ok) wr →
    Yields nextRead s.readAns
      (List.replicate k (.level .high) ++ .level .low :: bs.map .level) rr →
    Yields nextDelay s.delayAns (List.replicate (49 + 2 * m.toNat) ()) d →
    Host.Core.run Sys2Proof.core (2 * k + 124 + 4 * m.toNat) s = .next
      { s with
        mode := m, sck := .low, acc := BitVec.ofNat 24 (msbFirst bs), rsp := some .ok
        cmds := ws, writeAns := wr, readAns := rr, delayAns := d
        seq := { op := .none, phase := .idle, cnt := m.setWidth 5 - 1#5 }
        trace := s.trace ++ (.accept .setMode :: ((List.replicate k [w0, rd .high]).flatten ++
          (w0 :: rd .low :: frameBody bs m.toNat) ++ [.respond .ok])) }

/-- R144: while every poll reads high, SET_MODE polls on, however long, and accepts no command. -/
def Obligations.SetModePollsForever : Prop :=
  ∀ (s : State) ws m n wr rr, Offered (.setMode m) ws s → s.own = true → m ≠ 0b00#2 →
    Yields nextWrite s.writeAns (List.replicate n .ok) wr →
    Yields nextRead s.readAns (List.replicate n (.level .high)) rr →
    ∃ l, Host.Core.run Sys2Proof.core (1 + 2 * n) s = .next
      { s with
        mode := m, sck := l, rsp := none, cmds := ws, writeAns := wr, readAns := rr
        seq := { s.seq with op := .setMode, phase := .gLow }
        trace := s.trace ++ (.accept .setMode :: (List.replicate n [w0, rd .high]).flatten) }

/-- R144: if the environment answers every write with ok and every read with high, for ever, SET_MODE
polls for ever: it never waits, never ends, and accepts no command. This is the hang of R173, not the
stuck engine of R172. -/
def Obligations.SetModeNeverEnds : Prop :=
  ∀ (s : State) ws m, Offered (.setMode m) ws s → s.own = true → m ≠ 0b00#2 →
    YieldsForever nextWrite .ok s.writeAns → YieldsForever nextRead (.level .high) s.readAns →
    ∀ n, ∃ t, Host.Core.run Sys2Proof.core (1 + 2 * n) s = .next t ∧
      t.seq.op = .setMode ∧ t.seq.phase = .gLow ∧ t.mode = m ∧ t.rsp = none ∧ t.cmds = ws ∧
      requests t.trace = requests s.trace ++ (List.replicate n [w0, rd .high]).flatten

/-- R142: from its acceptance on, whatever the lines answer, MODE is m until another command is
accepted; and if the forced retrieval faults, the outcome is Fault(e) and MODE stays. -/
def Obligations.SetModeStoresModeFirst : Prop :=
  (∀ (s : State) ws m n t, Offered (.setMode m) ws s → m ≠ 0b00#2 →
    Host.Core.run Sys2Proof.core (n + 1) s = .next t → t.cmds = ws → t.mode = m) ∧
  (∀ (s : State) e, s.seq.op = .setMode → s.seq.op ∈ phaseOps s.seq.phase → s.rstNow = false →
    ((∃ l rest, s.request = some (.lineWrite l) ∧ nextWrite s.writeAns = some (.fault e, rest)) ∨
      ∃ rest, s.request = some .lineRead ∧ nextRead s.readAns = some (.fault e, rest)) →
    ∃ t, step s = .next t ∧ t.rsp = some (.fault e) ∧ t.mode = s.mode)

/-! ### The host's program -/

/-- R93, R94: a program that is over does nothing more; a host that waits for nothing issues its next
line; it waits until a response comes; on a WouldBlock RETRIEVE_BLOCKING issues RETRIEVE again, and
any other response, and any response to a command, ends the line. -/
def Obligations.HostProgramRuns : Prop :=
  (∀ s, hostStep ⟨s, [], none⟩ = .next ⟨s, [], none⟩) ∧
  (∀ s l ls, hostStep ⟨s, l :: ls, none⟩ = hostStep ⟨s.offer l.firstWord, ls, some l⟩) ∧
  (∀ s ls l t, step s = .next t →
    (t.rsp = none → hostStep ⟨s, ls, some l⟩ = .next ⟨t, ls, some l⟩) ∧
    (t.rsp = some .wouldBlock → hostStep ⟨s, ls, some .retrieveBlocking⟩ =
      .next ⟨{ t with cmds := t.cmds ++ [0x0C#5] }, ls, some .retrieveBlocking⟩) ∧
    (∀ r, t.rsp = some r → (∃ i, l = .command i) ∨ r ≠ .wouldBlock →
      hostStep ⟨s, ls, some l⟩ = .next ⟨t, ls, none⟩))

/-- R94: the host's RETRIEVE_BLOCKING, after k polls in vain: k WouldBlocks and then the sample, each
retry a RETRIEVE of its own; the line ends there, and the lines behind it are still to be issued. -/
def Obligations.RetrieveBlockingRetries : Prop :=
  ∀ (s : State) ls k (bs : List Level) wr rr d, s.seq.phase = .idle → s.rstPin = [] →
    s.cmds = [] → s.own = true → s.mode ≠ 0b00#2 → bs.length = 24 →
    Yields nextWrite s.writeAns (List.replicate (k + 49 + 2 * s.mode.toNat) .ok) wr →
    Yields nextRead s.readAns
      (List.replicate k (.level .high) ++ .level .low :: bs.map .level) rr →
    Yields nextDelay s.delayAns (List.replicate (49 + 2 * s.mode.toNat) ()) d →
    runHost (3 * k + 124 + 4 * s.mode.toNat) ⟨s, .retrieveBlocking :: ls, none⟩ = .next
      ⟨{ s with
          sck := .low, acc := BitVec.ofNat 24 (msbFirst bs)
          rsp := some (.okValue (extend24 (BitVec.ofNat 24 (msbFirst bs))))
          writeAns := wr, readAns := rr, delayAns := d
          seq := { op := .none, phase := .idle, cnt := s.mode.setWidth 5 - 1#5 }
          trace := s.trace ++ ((List.replicate k
            [.accept .retrieve, w0, rd .high, .respond .wouldBlock]).flatten ++
            (.accept .retrieve :: w0 :: rd .low :: frameBody bs s.mode.toNat) ++
            [.respond (.okValue (extend24 (BitVec.ofNat 24 (msbFirst bs))))]) }, ls, none⟩

/-- R94: if every poll reads high, for ever, RETRIEVE_BLOCKING never ends: n + 1 RETRIEVEs, each with
its own WouldBlock, for every n. -/
def Obligations.RetrieveBlockingMayNeverEnd : Prop :=
  ∀ (s : State) ls, s.seq.phase = .idle → s.rstPin = [] → s.cmds = [] → s.own = true →
    YieldsForever nextWrite .ok s.writeAns → YieldsForever nextRead (.level .high) s.readAns →
    ∀ n, ∃ t, runHost (3 * (n + 1)) ⟨s, .retrieveBlocking :: ls, none⟩ =
        .next ⟨t, ls, some .retrieveBlocking⟩ ∧
      countResponses t.trace = countResponses s.trace + (n + 1) ∧
      requests t.trace = requests s.trace ++ (List.replicate (n + 1) [w0, rd .high]).flatten
end

