-- ==== Sys2Proof/Laws/State.lean ====
section
/-!
SUPPORT. One lemma per field per update of the state, each true by `rfl`, so that no later proof
unfolds a record update.
-/

namespace Sys2Proof.Machine

variable (s : State)

/-! ### State.goto -/

@[simp] theorem State.goto_mode (p : Phase) : (s.goto p).mode = s.mode := rfl
@[simp] theorem State.goto_sck (p : Phase) : (s.goto p).sck = s.sck := rfl
@[simp] theorem State.goto_own (p : Phase) : (s.goto p).own = s.own := rfl
@[simp] theorem State.goto_acc (p : Phase) : (s.goto p).acc = s.acc := rfl
@[simp] theorem State.goto_seq (p : Phase) : (s.goto p).seq = { s.seq with phase := p } := rfl
@[simp] theorem State.goto_rsp (p : Phase) : (s.goto p).rsp = s.rsp := rfl
@[simp] theorem State.goto_cmds (p : Phase) : (s.goto p).cmds = s.cmds := rfl
@[simp] theorem State.goto_writeAns (p : Phase) : (s.goto p).writeAns = s.writeAns := rfl
@[simp] theorem State.goto_readAns (p : Phase) : (s.goto p).readAns = s.readAns := rfl
@[simp] theorem State.goto_delayAns (p : Phase) : (s.goto p).delayAns = s.delayAns := rfl
@[simp] theorem State.goto_rstPin (p : Phase) : (s.goto p).rstPin = s.rstPin := rfl
@[simp] theorem State.goto_trace (p : Phase) : (s.goto p).trace = s.trace := rfl
@[simp] theorem State.goto_draws (p : Phase) : (s.goto p).draws = s.draws := rfl

/-! ### State.gotoCnt -/

@[simp] theorem State.gotoCnt_mode (c : Count) (p : Phase) : (s.gotoCnt c p).mode = s.mode := rfl
@[simp] theorem State.gotoCnt_sck (c : Count) (p : Phase) : (s.gotoCnt c p).sck = s.sck := rfl
@[simp] theorem State.gotoCnt_own (c : Count) (p : Phase) : (s.gotoCnt c p).own = s.own := rfl
@[simp] theorem State.gotoCnt_acc (c : Count) (p : Phase) : (s.gotoCnt c p).acc = s.acc := rfl
@[simp] theorem State.gotoCnt_seq (c : Count) (p : Phase) :
    (s.gotoCnt c p).seq = { s.seq with cnt := c, phase := p } := rfl
@[simp] theorem State.gotoCnt_rsp (c : Count) (p : Phase) : (s.gotoCnt c p).rsp = s.rsp := rfl
@[simp] theorem State.gotoCnt_cmds (c : Count) (p : Phase) : (s.gotoCnt c p).cmds = s.cmds := rfl
@[simp] theorem State.gotoCnt_writeAns (c : Count) (p : Phase) :
    (s.gotoCnt c p).writeAns = s.writeAns := rfl
@[simp] theorem State.gotoCnt_readAns (c : Count) (p : Phase) :
    (s.gotoCnt c p).readAns = s.readAns := rfl
@[simp] theorem State.gotoCnt_delayAns (c : Count) (p : Phase) :
    (s.gotoCnt c p).delayAns = s.delayAns := rfl
@[simp] theorem State.gotoCnt_rstPin (c : Count) (p : Phase) :
    (s.gotoCnt c p).rstPin = s.rstPin := rfl
@[simp] theorem State.gotoCnt_trace (c : Count) (p : Phase) : (s.gotoCnt c p).trace = s.trace := rfl
@[simp] theorem State.gotoCnt_draws (c : Count) (p : Phase) : (s.gotoCnt c p).draws = s.draws := rfl

/-! ### State.respond -/

@[simp] theorem State.respond_mode (r : Response) : (s.respond r).mode = s.mode := rfl
@[simp] theorem State.respond_sck (r : Response) : (s.respond r).sck = s.sck := rfl
@[simp] theorem State.respond_own (r : Response) : (s.respond r).own = s.own := rfl
@[simp] theorem State.respond_acc (r : Response) : (s.respond r).acc = s.acc := rfl
@[simp] theorem State.respond_seq (r : Response) :
    (s.respond r).seq = { s.seq with op := .none, phase := .idle } := rfl
@[simp] theorem State.respond_rsp (r : Response) : (s.respond r).rsp = some r := rfl
@[simp] theorem State.respond_cmds (r : Response) : (s.respond r).cmds = s.cmds := rfl
@[simp] theorem State.respond_writeAns (r : Response) : (s.respond r).writeAns = s.writeAns := rfl
@[simp] theorem State.respond_readAns (r : Response) : (s.respond r).readAns = s.readAns := rfl
@[simp] theorem State.respond_delayAns (r : Response) : (s.respond r).delayAns = s.delayAns := rfl
@[simp] theorem State.respond_rstPin (r : Response) : (s.respond r).rstPin = s.rstPin := rfl
@[simp] theorem State.respond_trace (r : Response) :
    (s.respond r).trace = s.trace ++ [.respond r] := rfl
@[simp] theorem State.respond_draws (r : Response) : (s.respond r).draws = s.draws := rfl

/-! ### State.raiseLineFault -/

@[simp] theorem State.raiseLineFault_mode (e : LineErr) : (s.raiseLineFault e).mode = s.mode := rfl
@[simp] theorem State.raiseLineFault_sck (e : LineErr) : (s.raiseLineFault e).sck = s.sck := rfl
@[simp] theorem State.raiseLineFault_own (e : LineErr) : (s.raiseLineFault e).own = s.own := rfl
@[simp] theorem State.raiseLineFault_acc (e : LineErr) : (s.raiseLineFault e).acc = s.acc := rfl
@[simp] theorem State.raiseLineFault_seq (e : LineErr) :
    (s.raiseLineFault e).seq = { s.seq with op := .none, phase := .idle } := rfl
@[simp] theorem State.raiseLineFault_rsp (e : LineErr) :
    (s.raiseLineFault e).rsp = some (.fault e) := rfl
@[simp] theorem State.raiseLineFault_cmds (e : LineErr) : (s.raiseLineFault e).cmds = s.cmds := rfl
@[simp] theorem State.raiseLineFault_writeAns (e : LineErr) :
    (s.raiseLineFault e).writeAns = s.writeAns := rfl
@[simp] theorem State.raiseLineFault_readAns (e : LineErr) :
    (s.raiseLineFault e).readAns = s.readAns := rfl
@[simp] theorem State.raiseLineFault_delayAns (e : LineErr) :
    (s.raiseLineFault e).delayAns = s.delayAns := rfl
@[simp] theorem State.raiseLineFault_rstPin (e : LineErr) :
    (s.raiseLineFault e).rstPin = s.rstPin := rfl
@[simp] theorem State.raiseLineFault_trace (e : LineErr) :
    (s.raiseLineFault e).trace = s.trace ++ [.respond (.fault e)] := rfl
@[simp] theorem State.raiseLineFault_draws (e : LineErr) :
    (s.raiseLineFault e).draws = s.draws := rfl

/-! ### State.accept -/

@[simp] theorem State.accept_mode (op : Op) (p : Phase) : (s.accept op p).mode = s.mode := rfl
@[simp] theorem State.accept_sck (op : Op) (p : Phase) : (s.accept op p).sck = s.sck := rfl
@[simp] theorem State.accept_own (op : Op) (p : Phase) : (s.accept op p).own = s.own := rfl
@[simp] theorem State.accept_acc (op : Op) (p : Phase) : (s.accept op p).acc = s.acc := rfl
@[simp] theorem State.accept_seq (op : Op) (p : Phase) :
    (s.accept op p).seq = { s.seq with op := op, phase := p } := rfl
@[simp] theorem State.accept_rsp (op : Op) (p : Phase) : (s.accept op p).rsp = s.rsp := rfl
@[simp] theorem State.accept_cmds (op : Op) (p : Phase) : (s.accept op p).cmds = s.cmds := rfl
@[simp] theorem State.accept_writeAns (op : Op) (p : Phase) :
    (s.accept op p).writeAns = s.writeAns := rfl
@[simp] theorem State.accept_readAns (op : Op) (p : Phase) :
    (s.accept op p).readAns = s.readAns := rfl
@[simp] theorem State.accept_delayAns (op : Op) (p : Phase) :
    (s.accept op p).delayAns = s.delayAns := rfl
@[simp] theorem State.accept_rstPin (op : Op) (p : Phase) : (s.accept op p).rstPin = s.rstPin := rfl
@[simp] theorem State.accept_trace (op : Op) (p : Phase) :
    (s.accept op p).trace = s.trace ++ [.accept op] := rfl
@[simp] theorem State.accept_draws (op : Op) (p : Phase) : (s.accept op p).draws = s.draws := rfl

/-! ### State.tick -/

@[simp] theorem State.tick_mode : (s.tick).mode = s.mode := rfl
@[simp] theorem State.tick_sck : (s.tick).sck = s.sck := rfl
@[simp] theorem State.tick_own : (s.tick).own = s.own := rfl
@[simp] theorem State.tick_acc : (s.tick).acc = s.acc := rfl
@[simp] theorem State.tick_seq : (s.tick).seq = s.seq := rfl
@[simp] theorem State.tick_rsp : (s.tick).rsp = none := rfl
@[simp] theorem State.tick_cmds : (s.tick).cmds = s.cmds := rfl
@[simp] theorem State.tick_writeAns : (s.tick).writeAns = s.writeAns := rfl
@[simp] theorem State.tick_readAns : (s.tick).readAns = s.readAns := rfl
@[simp] theorem State.tick_delayAns : (s.tick).delayAns = s.delayAns := rfl
@[simp] theorem State.tick_rstPin : (s.tick).rstPin = s.rstPin.tail := rfl
@[simp] theorem State.tick_trace : (s.tick).trace = s.trace := rfl
@[simp] theorem State.tick_draws : (s.tick).draws = s.draws := rfl

/-! ### State.offer -/

@[simp] theorem State.offer_mode (w : CmdWord) : (s.offer w).mode = s.mode := rfl
@[simp] theorem State.offer_sck (w : CmdWord) : (s.offer w).sck = s.sck := rfl
@[simp] theorem State.offer_own (w : CmdWord) : (s.offer w).own = s.own := rfl
@[simp] theorem State.offer_acc (w : CmdWord) : (s.offer w).acc = s.acc := rfl
@[simp] theorem State.offer_seq (w : CmdWord) : (s.offer w).seq = s.seq := rfl
@[simp] theorem State.offer_rsp (w : CmdWord) : (s.offer w).rsp = s.rsp := rfl
@[simp] theorem State.offer_cmds (w : CmdWord) : (s.offer w).cmds = s.cmds ++ [w] := rfl
@[simp] theorem State.offer_writeAns (w : CmdWord) : (s.offer w).writeAns = s.writeAns := rfl
@[simp] theorem State.offer_readAns (w : CmdWord) : (s.offer w).readAns = s.readAns := rfl
@[simp] theorem State.offer_delayAns (w : CmdWord) : (s.offer w).delayAns = s.delayAns := rfl
@[simp] theorem State.offer_rstPin (w : CmdWord) : (s.offer w).rstPin = s.rstPin := rfl
@[simp] theorem State.offer_trace (w : CmdWord) : (s.offer w).trace = s.trace := rfl
@[simp] theorem State.offer_draws (w : CmdWord) : (s.offer w).draws = s.draws := rfl

/-! ### State.takeRst -/

@[simp] theorem State.takeRst_mode : (s.takeRst).mode = Config.freeMode s.draws := rfl
@[simp] theorem State.takeRst_sck : (s.takeRst).sck = Config.freeLevel s.draws := rfl
@[simp] theorem State.takeRst_own : (s.takeRst).own = false := rfl
@[simp] theorem State.takeRst_acc : (s.takeRst).acc = Config.freeAcc s.draws := rfl
@[simp] theorem State.takeRst_seq :
    (s.takeRst).seq = { op := .none, phase := .idle, cnt := Config.freeCnt s.draws } := rfl
@[simp] theorem State.takeRst_rsp : (s.takeRst).rsp = none := rfl
@[simp] theorem State.takeRst_cmds : (s.takeRst).cmds = s.cmds := rfl
@[simp] theorem State.takeRst_writeAns : (s.takeRst).writeAns = s.writeAns := rfl
@[simp] theorem State.takeRst_readAns : (s.takeRst).readAns = s.readAns := rfl
@[simp] theorem State.takeRst_delayAns : (s.takeRst).delayAns = s.delayAns := rfl
@[simp] theorem State.takeRst_rstPin : (s.takeRst).rstPin = s.rstPin := rfl
@[simp] theorem State.takeRst_trace : (s.takeRst).trace = s.trace ++ [.rst] := rfl
@[simp] theorem State.takeRst_draws : (s.takeRst).draws = s.draws + 1 := rfl

end Sys2Proof.Machine
end

