-- ==== Sys2Proof/Laws/Ops.lean ====
section
/-!
SUPPORT. What each shared operation can do, said once: the three primitives wait, go on, or (the two
line accesses) end the command with the line fault; nothing else.
-/

namespace Sys2Proof.Machine

variable {l : Level} {k : State → State} {kr : Level → State → State} {n : Nat} {s : State}

/-! ### The next answer -/

section Next

variable {α : Type} {draw : Nat → Option α} {a : α} {l : List α} {tl : Tail α}

@[simp] theorem next_listed :
    Answers.next draw { listed := a :: l, tail := tl } = some (a, { listed := l, tail := tl }) := rfl

@[simp] theorem next_silent :
    Answers.next draw { listed := [], tail := .silent } = none := rfl

@[simp] theorem next_always :
    Answers.next draw { listed := [], tail := .always a } =
      some (a, { listed := [], tail := .always a }) := rfl

@[simp] theorem next_free {n : Nat} :
    Answers.next draw { listed := [], tail := .free n } =
      (draw n).map fun a => (a, { listed := [], tail := .free (n + 1) }) := rfl

end Next

/-! ### LineWrite -/

theorem lineWrite_waiting (h : nextWrite s.writeAns = none) : lineWrite l k s = s := by
  simp [lineWrite, h]

theorem lineWrite_ok {rest : Answers WriteAnswer} (h : nextWrite s.writeAns = some (.ok, rest)) :
    lineWrite l k s =
      k { s with writeAns := rest, sck := l, trace := s.trace ++ [.lineWrite l .ok] } := by
  simp [lineWrite, h]

theorem lineWrite_fault {e : LineErr} {rest : Answers WriteAnswer}
    (h : nextWrite s.writeAns = some (.fault e, rest)) :
    lineWrite l k s = State.raiseLineFault e
      { s with
        writeAns := rest, sck := Config.freeLevel s.draws, draws := s.draws + 1
        trace := s.trace ++ [.lineWrite l (.fault e)] } := by
  simp [lineWrite, h]

/-- A property that waiting, going on and the fault all give holds after a LineWrite. -/
theorem lineWrite_rule {P : State → Prop} (wait : nextWrite s.writeAns = none → P s)
    (good : ∀ rest, nextWrite s.writeAns = some (.ok, rest) →
      P (k { s with writeAns := rest, sck := l, trace := s.trace ++ [.lineWrite l .ok] }))
    (bad : ∀ e rest, nextWrite s.writeAns = some (.fault e, rest) →
      P (State.raiseLineFault e
        { s with
          writeAns := rest, sck := Config.freeLevel s.draws, draws := s.draws + 1
          trace := s.trace ++ [.lineWrite l (.fault e)] })) :
    P (lineWrite l k s) := by
  rcases h : nextWrite s.writeAns with _ | ⟨_ | e, rest⟩
  · rw [lineWrite_waiting h]; exact wait h
  · rw [lineWrite_ok h]; exact good rest h
  · rw [lineWrite_fault h]; exact bad e rest h

/-! ### LineRead -/

theorem lineRead_waiting (h : nextRead s.readAns = none) : lineRead kr s = s := by
  simp [lineRead, h]

theorem lineRead_level {b : Level} {rest : Answers ReadAnswer}
    (h : nextRead s.readAns = some (.level b, rest)) :
    lineRead kr s =
      kr b { s with readAns := rest, trace := s.trace ++ [.lineRead (.level b)] } := by
  simp [lineRead, h]

theorem lineRead_fault {e : LineErr} {rest : Answers ReadAnswer}
    (h : nextRead s.readAns = some (.fault e, rest)) :
    lineRead kr s = State.raiseLineFault e
      { s with readAns := rest, trace := s.trace ++ [.lineRead (.fault e)] } := by
  simp [lineRead, h]

/-- A property that waiting, going on and the fault all give holds after a LineRead. -/
theorem lineRead_rule {P : State → Prop} (wait : nextRead s.readAns = none → P s)
    (good : ∀ b rest, nextRead s.readAns = some (.level b, rest) →
      P (kr b { s with readAns := rest, trace := s.trace ++ [.lineRead (.level b)] }))
    (bad : ∀ e rest, nextRead s.readAns = some (.fault e, rest) →
      P (State.raiseLineFault e
        { s with readAns := rest, trace := s.trace ++ [.lineRead (.fault e)] })) :
    P (lineRead kr s) := by
  rcases h : nextRead s.readAns with _ | ⟨b | e, rest⟩
  · rw [lineRead_waiting h]; exact wait h
  · rw [lineRead_level h]; exact good b rest h
  · rw [lineRead_fault h]; exact bad e rest h

/-! ### Delay -/

theorem delay_waiting (h : nextDelay s.delayAns = none) : delay n k s = s := by
  simp [delay, h]

theorem delay_done {u : Unit} {rest : Answers Unit} (h : nextDelay s.delayAns = some (u, rest)) :
    delay n k s = k { s with delayAns := rest, trace := s.trace ++ [.delay n] } := by
  simp [delay, h]

/-- A property that waiting and going on both give holds after a Delay, which cannot fault. -/
theorem delay_rule {P : State → Prop} (wait : nextDelay s.delayAns = none → P s)
    (good : ∀ rest, nextDelay s.delayAns = some ((), rest) →
      P (k { s with delayAns := rest, trace := s.trace ++ [.delay n] })) :
    P (delay n k s) := by
  rcases h : nextDelay s.delayAns with _ | ⟨_, rest⟩
  · rw [delay_waiting h]; exact wait h
  · rw [delay_done h]; exact good rest h

/-! ### MODE as it is read -/

theorem modeValue_owned (h : s.own = true) : s.modeValue = s.mode := by
  simp [State.modeValue, h]

theorem modeValue_unowned (h : s.own = false) : s.modeValue = Config.freeMode s.draws := by
  simp [State.modeValue, h]

/-- MODE as it is read depends on MODE, OWN and the number of free values drawn only. -/
@[simp] theorem modeValue_update {k : Level} {a : Raw} {q : Seq} {r : Option Response}
    {c : List CmdWord} {w : Answers WriteAnswer} {rd : Answers ReadAnswer} {d : Answers Unit}
    {p : List Bool} {tr : List Event} :
    State.modeValue { s with
      sck := k, acc := a, seq := q, rsp := r, cmds := c, writeAns := w, readAns := rd, delayAns := d
      rstPin := p, trace := tr } = s.modeValue := rfl

@[simp] theorem modeValue_tick : s.tick.modeValue = s.modeValue := rfl

/-! ### Accepting a command -/

theorem acceptOwned_next {op : Op} {p : Phase} {t : State} :
    acceptOwned op p s = .next t ↔ s.own = true ∧ t = s.accept op p := by
  cases h : s.own
  · simp [acceptOwned, h]
  · simp only [acceptOwned, h, if_true, true_and]
    exact ⟨fun e => by injection e with e; exact e.symm, fun e => by rw [e]⟩

/-! ### The reset pin and the word offered -/

@[simp] theorem rstNow_of_empty (h : s.rstPin = []) : s.rstNow = false := by
  simp [State.rstNow, h]

theorem offerWord_idle {w : Nat} (h : w < 32) : (s.offerWord w).seq.phase = .idle := by
  simp [State.offerWord, h]

theorem offerWord_cmds {w : Nat} (h : w < 32) :
    (s.offerWord w).cmds = BitVec.ofNat 5 w :: s.cmds := by
  simp [State.offerWord, h]

theorem offerWord_rstNow {w : Nat} (h : w < 32) : (s.offerWord w).rstNow = false := by
  cases hp : s.rstPin <;> simp [State.offerWord, h, State.rstNow, hp]

end Sys2Proof.Machine
end

