-- ==== Sys2Proof/Laws/Step.lean ====
section
/-!
SUPPORT. What one step can do, said once, and how steps compose.
-/

namespace Sys2Proof.Machine

variable {s t u : State}

/-- Everything a step that gives a next state can have been. -/
theorem step_next_cases (h : step s = .next t) :
    (s.rstNow = true ∧ t = s.tick.takeRst) ∨
    (s.rstNow = false ∧ s.seq.phase = .idle ∧ s.cmds = [] ∧ t = s.tick) ∨
    (s.rstNow = false ∧ s.seq.phase = .idle ∧ ∃ w ws i, s.cmds = w :: ws ∧ decode w = .ok i ∧
      exec i { s.tick with cmds := ws } = .next t) ∨
    (s.rstNow = false ∧ s.seq.phase ≠ .idle ∧ ∃ i, s.inProgress = some i ∧
      exec i s.tick = .next t) := by
  unfold step nextAction nextActionIn Action.take at h
  split at h
  · rename_i u hu
    split at hu
    · injection hu with hu
      exact .inl ⟨‹_›, by simp_all⟩
    · split at hu
      · rcases hc : s.cmds with _ | ⟨w, ws⟩
        · rw [hc] at hu
          injection hu with hu
          exact .inr (.inl ⟨by simp_all, ‹_›, rfl, by simp_all⟩)
        · rw [hc] at hu
          cases hd : decodeIn Config.params w <;> simp [hd] at hu
      · cases hi : s.inProgress <;> simp [hi] at hu
  · rename_i i u hu
    split at hu
    · cases hu
    · split at hu
      · rcases hc : s.cmds with _ | ⟨w, ws⟩
        · simp [hc] at hu
        · rw [hc] at hu
          cases hd : decodeIn Config.params w with
          | error r => simp [hd] at hu
          | ok j =>
            simp only [hd] at hu
            injection hu with h1 h2
            exact .inr (.inr (.inl ⟨by simp_all, ‹_›, w, ws, j, rfl, hd, by simp_all⟩))
      · cases hi : s.inProgress with
        | none => simp [hi] at hu
        | some j =>
          simp only [hi] at hu
          injection hu with h1 h2
          exact .inr (.inr (.inr ⟨by simp_all, ‹_›, j, rfl, by simp_all⟩))
  · cases h
  · cases h

theorem step_reset (h : s.rstNow = true) : step s = .next s.tick.takeRst := by
  simp [step, nextAction, nextActionIn, Action.take, h]

theorem step_waits_for_command (hr : s.rstNow = false) (hp : s.seq.phase = .idle)
    (hc : s.cmds = []) : step s = .next s.tick := by
  simp [step, nextAction, nextActionIn, Action.take, hr, hp, hc]

theorem step_accepts {w : CmdWord} {ws : List CmdWord} {i : Instr} (hr : s.rstNow = false)
    (hp : s.seq.phase = .idle) (hc : s.cmds = w :: ws) (hd : decode w = .ok i) :
    step s = exec i { s.tick with cmds := ws } := by
  simp [step, nextAction, nextActionIn, Action.take, hr, hp, hc,
    show decodeIn Config.params w = .ok i from hd]

theorem step_continues {i : Instr} (hr : s.rstNow = false) (hp : s.seq.phase ≠ .idle)
    (hi : s.inProgress = some i) : step s = exec i s.tick := by
  simp [step, nextAction, nextActionIn, Action.take, hr, hp, hi]

theorem step_refuses {w : CmdWord} {ws : List CmdWord} {e : DecodeReject} (hr : s.rstNow = false)
    (hp : s.seq.phase = .idle) (hc : s.cmds = w :: ws) (hd : decode w = .error e) :
    step s = .refused .absentOperation := by
  simp [step, nextAction, nextActionIn, Action.take, hr, hp, hc,
    show decodeIn Config.params w = .error e from hd]

theorem step_stops (hr : s.rstNow = false) (hp : s.seq.phase ≠ .idle)
    (hi : s.inProgress = none) : step s = .fault .noSuchPhase := by
  simp [step, nextAction, nextActionIn, Action.take, hr, hp, hi]

/-- An engine whose next step finds `rst` low forever and shows no response is its own tick. -/
theorem tick_eq_self (hr : s.rstPin = []) (hs : s.rsp = none) : s.tick = s := by
  cases s
  simp_all [State.tick]

/-- The word a fetch is given is what the next step runs. -/
theorem step_withFetchWord {nbits w : Nat} {i : Instr} (hw : w < 32)
    (hd : decode (BitVec.ofNat 5 w) = .ok i) :
    step (s.withFetchWord nbits w) =
      exec i { (s.withFetchWord nbits w).tick with cmds := s.cmds } :=
  step_accepts (offerWord_rstNow hw) (offerWord_idle hw) (offerWord_cmds hw) hd

/-! ### Runs -/

theorem run_zero : Host.Core.run core 0 s = .next s := rfl

theorem run_succ {n : Nat} (h : step s = .next t) :
    Host.Core.run core (n + 1) s = Host.Core.run core n t := by
  have h' : core.step s = .next t := h
  simp only [Host.Core.run, h']

/-- A run that gives a next state has a first step that does. -/
theorem run_succ_next {n : Nat} (h : Host.Core.run core (n + 1) s = .next u) :
    ∃ t, step s = .next t ∧ Host.Core.run core n t = .next u := by
  cases hs : step s with
  | next t => exact ⟨t, rfl, by rwa [run_succ hs] at h⟩
  | fault r =>
    have h' : core.step s = .fault r := hs
    simp [Host.Core.run, h'] at h
  | refused r =>
    have h' : core.step s = .refused r := hs
    simp [Host.Core.run, h'] at h

/-- Two runs, one after the other. -/
theorem run_add {m n : Nat} (h : Host.Core.run core m s = .next t) :
    Host.Core.run core (m + n) s = Host.Core.run core n t := by
  induction m generalizing s with
  | zero => cases h; simp
  | succ m ih =>
    obtain ⟨u, hs, hu⟩ := run_succ_next h
    rw [Nat.succ_add, run_succ hs]
    exact ih hu

/-- A run of `n + 1` steps is `n` steps and one more. -/
theorem run_snoc {n : Nat} (h : Host.Core.run core n s = .next t) (ht : step t = .next u) :
    Host.Core.run core (n + 1) s = .next u := by
  rw [run_add h, run_succ ht, run_zero]

/-- A property every step keeps holds at the end of every run. -/
theorem run_keeps {P : State → Prop} (hstep : ∀ a b, P a → step a = .next b → P b) :
    ∀ {n : Nat} {a b : State}, P a → Host.Core.run core n a = .next b → P b := by
  intro n
  induction n with
  | zero => intro a b ha h; cases h; exact ha
  | succ n ih =>
    intro a b ha h
    obtain ⟨u, hs, hu⟩ := run_succ_next h
    exact ih (hstep a u ha hs) hu

end Sys2Proof.Machine
end

