-- ==== Sys2Proof/Laws/Trace.lean ====
section
/-!
SUPPORT. How the readings of a trace grow when an event is added at its end.
-/

namespace Sys2Proof.Machine

variable (tr tr' : List Event)

@[simp] theorem requests_append : requests (tr ++ tr') = requests tr ++ requests tr' := by
  simp [requests]

@[simp] theorem countWrites_append (l : Level) :
    countWrites l (tr ++ tr') = countWrites l tr + countWrites l tr' := by
  simp [countWrites]

@[simp] theorem countReads_append :
    countReads (tr ++ tr') = countReads tr + countReads tr' := by
  simp [countReads]

@[simp] theorem countDelays_append (n : Nat) :
    countDelays n (tr ++ tr') = countDelays n tr + countDelays n tr' := by
  simp [countDelays]

@[simp] theorem countResponses_append :
    countResponses (tr ++ tr') = countResponses tr + countResponses tr' := by
  simp [countResponses]

@[simp] theorem pendingOp_append :
    pendingOp (tr ++ tr') = tr'.foldl pendingStep (pendingOp tr) := by
  simp [pendingOp]

@[simp] theorem drivenLevel_append :
    drivenLevel (tr ++ tr') = tr'.foldl drivenStep (drivenLevel tr) := by
  simp [drivenLevel]

@[simp] theorem endedOf_append : endedOf (tr ++ tr') = tr'.foldl endedStep (endedOf tr) := by
  simp [endedOf]

theorem lastEnded_eq : lastEnded tr = (endedOf tr).last := rfl

/-- The command being followed is the one in progress. -/
theorem endedOf_current : (endedOf tr).current = pendingOp tr := by
  induction tr using List.reverseRecOn with
  | nil => rfl
  | append_singleton tr e ih => cases e <;> simp [endedStep, pendingStep, ih]

end Sys2Proof.Machine
end

