-- ==== Sys2Proof/Laws/Exec.lean ====
section
/-!
SUPPORT. Everything `exec` can do, said once: it accepts a legal command (`accepted`), or it is in a
row of the table of spec/10_state.md rule R31, where it asks the phase's request and on a good answer
does what the row says (`rowGood`); on anything else it does not give a next state.
-/

namespace Sys2Proof.Machine

/-- The OP a command is recorded as. -/
def opOf : Instr → Op
  | .new => .new
  | .enable => .enable
  | .disable => .disable
  | .retrieve => .retrieve
  | .setMode _ => .setMode
  | .reset => .reset
  | .destroy => .destroy
  | .reservedOp7 _ => .none
  | .reservedSetMode0 => .none

/-- The first phase of a command (R33). -/
def firstPhase : Instr → Phase
  | .new => .nLow
  | .enable => .eLow
  | .disable => .dHigh
  | .retrieve => .gLow
  | .setMode _ => .gLow
  | .reset => .xHigh
  | .destroy => .idle
  | .reservedOp7 _ => .idle
  | .reservedSetMode0 => .idle

/-- The state after the acceptance of a command (R33). -/
def accepted (i : Instr) (s : State) : State :=
  match i with
  | .setMode m => { s with mode := m }.accept .setMode .gLow
  | .destroy => State.respond .ok { s.accept .destroy .idle with own := false }
  | .new => s.accept .new .nLow
  | .enable => s.accept .enable .eLow
  | .disable => s.accept .disable .dHigh
  | .retrieve => s.accept .retrieve .gLow
  | .reset => s.accept .reset .xHigh
  | .reservedOp7 _ => s
  | .reservedSetMode0 => s

/-- The columns "On a good answer" and "Next PHASE" of the table of R31; `b` is the level of a read. -/
def rowGood (i : Instr) (p : Phase) (b : Level) (t : State) : State :=
  match p with
  | .idle => t
  | .nLow => State.respond .ok { t with mode := M1, own := true }
  | .eLow => t.respond .ok
  | .dHigh => t.goto .dHold
  | .dHold => t.respond .ok
  | .xHigh => t.goto .xRd1
  | .xRd1 => t.goto .xRd2
  | .xRd2 => t.goto .xLow
  | .xLow => t.respond .ok
  | .gLow => t.goto .gRdy
  | .gRdy =>
    match b with
    | .low => t.goto .gSetup
    | .high => if i = .retrieve then t.respond .wouldBlock else t.goto .gLow
  | .gSetup => { t.gotoCnt 0#5 .bHigh with acc := 0#24 }
  | .bHigh => t.goto .bWaitH
  | .bWaitH => { t.goto .bSample with acc := shiftAcc t.acc }
  | .bSample => { t.goto .bLow with acc := orSample t.acc b }
  | .bLow => t.goto .bWaitL
  | .bWaitL =>
    if t.seq.cnt = 23#5 then t.gotoCnt 0#5 .tHigh else t.gotoCnt (t.seq.cnt + 1#5) .bHigh
  | .tHigh => t.goto .tWaitH
  | .tWaitH => t.goto .tLow
  | .tLow => t.goto .tWaitL
  | .tWaitL =>
    if t.seq.cnt = t.modeValue.setWidth 5 - 1#5 then
      t.respond (if i = .retrieve then .okValue (extend24 t.acc) else .ok)
    else t.gotoCnt (t.seq.cnt + 1#5) .tHigh

/-- The state after one event of a command in progress, by the request of its phase. -/
def rowStep (i : Instr) (s : State) : State :=
  match s.request with
  | none => s
  | some (.lineWrite l) => lineWrite l (rowGood i s.seq.phase .low) s
  | some .lineRead => lineRead (rowGood i s.seq.phase) s
  | some (.delay n) => delay n (rowGood i s.seq.phase .low) s

variable {i : Instr} {s t : State}

/-- An idle engine accepts a legal command. -/
theorem exec_idle (hp : s.seq.phase = .idle) (hl : legalNow s.own i = true) :
    exec i s = .next (accepted i s) := by
  cases i <;> simp_all [legalNow, exec, execNew, execEnable, execDisable, execDisableIn, execRetrieve,
    execRetrieveIn, execSetMode, execSetModeIn, execReset, execDestroy, acceptOwned, accepted, modeOperand]

/-- A command in a row of the table takes that row. -/
theorem exec_row (ho : opOf i ∈ phaseOps s.seq.phase) (hp : s.seq.phase ≠ .idle) :
    exec i s = .next (rowStep i s) := by
  have hq : s.request = phaseRequest s.seq.phase := rfl
  unfold rowStep
  rw [hq]
  cases i <;> cases h : s.seq.phase <;>
    simp [h, phaseOps, opOf] at ho hp <;>
    simp only [exec, execNew, execEnable, execDisable, execDisableIn, execRetrieve,
      execRetrieveIn, execSetMode, execSetModeIn, execReset, phaseRequest, phaseRequestIn, h, phaseGLow, phaseGSetup, phaseBHigh, phaseBWaitH, phaseBSample, phaseBLow,
      phaseBWaitL, phaseTHigh, phaseTWaitH, phaseTLow, phaseTWaitL, lastDataPulse,
      lastTrailingPulse, nextCount, Config.defaultMode, beq_iff_eq] <;>
    congr 2 <;> funext b <;> first | rfl | (cases b <;> rfl)

/-- Every next state of `exec` comes from one of the two. -/
theorem exec_next_cases (h : exec i s = .next t) :
    (s.seq.phase = .idle ∧ legalNow s.own i = true ∧ t = accepted i s) ∨
    (s.seq.phase ≠ .idle ∧ opOf i ∈ phaseOps s.seq.phase ∧ t = rowStep i s) := by
  by_cases hp : s.seq.phase = .idle
  · by_cases hl : legalNow s.own i = true
    · rw [exec_idle hp hl] at h
      injection h with h
      exact .inl ⟨hp, hl, h.symm⟩
    · exfalso
      cases i <;> simp_all [legalNow, exec, execNew, execEnable, execDisable,
        execDisableIn, execRetrieve, execRetrieveIn, execSetMode, execSetModeIn, execReset, execDestroy, execReservedOp7, execReservedSetMode0, acceptOwned]
      split at h <;> simp_all
  · by_cases ho : opOf i ∈ phaseOps s.seq.phase
    · rw [exec_row ho hp] at h
      injection h with h
      exact .inr ⟨hp, ho, h.symm⟩
    · exfalso
      cases i <;> cases hs : s.seq.phase <;> simp_all [phaseOps, opOf, exec, execNew, execEnable,
        execDisable, execDisableIn, execRetrieve, execRetrieveIn, execSetMode, execSetModeIn, execReset, execDestroy, execReservedOp7,
        execReservedSetMode0]

/-- What one event of a command in progress can be. -/
theorem rowStep_rule {P : State → Prop}
    (wait : (∃ l, s.request = some (.lineWrite l) ∧ nextWrite s.writeAns = none) ∨
      (s.request = some .lineRead ∧ nextRead s.readAns = none) ∨
      (∃ n, s.request = some (.delay n) ∧ nextDelay s.delayAns = none) ∨ s.request = none → P s)
    (write : ∀ l rest, s.request = some (.lineWrite l) → nextWrite s.writeAns = some (.ok, rest) →
      P (rowGood i s.seq.phase .low
        { s with writeAns := rest, sck := l, trace := s.trace ++ [.lineWrite l .ok] }))
    (writeFault : ∀ l e rest, s.request = some (.lineWrite l) → nextWrite s.writeAns = some (.fault e, rest) →
      P (State.raiseLineFault e
        { s with
          writeAns := rest, sck := Config.freeLevel s.draws, draws := s.draws + 1
          trace := s.trace ++ [.lineWrite l (.fault e)] }))
    (read : ∀ b rest, s.request = some .lineRead → nextRead s.readAns = some (.level b, rest) →
      P (rowGood i s.seq.phase b
        { s with readAns := rest, trace := s.trace ++ [.lineRead (.level b)] }))
    (readFault : ∀ e rest, s.request = some .lineRead → nextRead s.readAns = some (.fault e, rest) →
      P (State.raiseLineFault e
        { s with readAns := rest, trace := s.trace ++ [.lineRead (.fault e)] }))
    (wait_done : ∀ n rest, s.request = some (.delay n) →
      nextDelay s.delayAns = some ((), rest) →
      P (rowGood i s.seq.phase .low
        { s with delayAns := rest, trace := s.trace ++ [.delay n] })) :
    P (rowStep i s) := by
  unfold rowStep
  rcases h : s.request with _ | _ | _ | _
  · exact wait (.inr (.inr (.inr h)))
  · rename_i l
    exact lineWrite_rule (fun hw => wait (.inl ⟨l, h, hw⟩)) (fun r hw => write l r h hw)
      (fun e r hw => writeFault l e r h hw)
  · exact lineRead_rule (fun hw => wait (.inr (.inl ⟨h, hw⟩))) (fun b r hw => read b r h hw)
      (fun e r hw => readFault e r h hw)
  · rename_i n
    exact delay_rule (fun hw => wait (.inr (.inr (.inl ⟨n, h, hw⟩))))
      (fun r hw => wait_done n r h hw)

/-! ### What a row leaves alone, and what it writes -/

section RowFrame

variable (i : Instr) (p : Phase) (b : Level) (s : State)

@[simp] theorem rowGood_sck : (rowGood i p b s).sck = s.sck := by
  cases p <;> simp [rowGood] <;> (repeat' split) <;> simp

@[simp] theorem rowGood_cmds : (rowGood i p b s).cmds = s.cmds := by
  cases p <;> simp [rowGood] <;> (repeat' split) <;> simp

@[simp] theorem rowGood_writeAns : (rowGood i p b s).writeAns = s.writeAns := by
  cases p <;> simp [rowGood] <;> (repeat' split) <;> simp

@[simp] theorem rowGood_readAns : (rowGood i p b s).readAns = s.readAns := by
  cases p <;> simp [rowGood] <;> (repeat' split) <;> simp

@[simp] theorem rowGood_delayAns : (rowGood i p b s).delayAns = s.delayAns := by
  cases p <;> simp [rowGood] <;> (repeat' split) <;> simp

@[simp] theorem rowGood_rstPin : (rowGood i p b s).rstPin = s.rstPin := by
  cases p <;> simp [rowGood] <;> (repeat' split) <;> simp

@[simp] theorem rowGood_draws : (rowGood i p b s).draws = s.draws := by
  cases p <;> simp [rowGood] <;> (repeat' split) <;> simp

@[simp] theorem rowGood_requests : requests (rowGood i p b s).trace = requests s.trace := by
  cases p <;> simp [rowGood] <;> (repeat' split) <;> simp [requests, Event.isRequest]

/-- MODE is written by the row of NEW alone. -/
@[simp] theorem rowGood_mode : (rowGood i p b s).mode = if p = .nLow then M1 else s.mode := by
  cases p <;> simp [rowGood] <;> (repeat' split) <;> simp

/-- OWN is written by the row of NEW alone. -/
@[simp] theorem rowGood_own : (rowGood i p b s).own = if p = .nLow then true else s.own := by
  cases p <;> simp [rowGood] <;> (repeat' split) <;> simp

/-- A good answer never ends a command with Fault. -/
theorem rowGood_not_fault (h : s.rsp = none) (e : LineErr) :
    (rowGood i p b s).rsp ≠ some (.fault e) := by
  cases p <;> simp [rowGood, h] <;> (repeat' split) <;> simp [h]

end RowFrame

section AcceptFrame

variable (i : Instr) (s : State)

@[simp] theorem accepted_sck : (accepted i s).sck = s.sck := by cases i <;> simp [accepted]
@[simp] theorem accepted_acc : (accepted i s).acc = s.acc := by cases i <;> simp [accepted]
@[simp] theorem accepted_cmds : (accepted i s).cmds = s.cmds := by cases i <;> simp [accepted]
@[simp] theorem accepted_writeAns : (accepted i s).writeAns = s.writeAns := by
  cases i <;> simp [accepted]
@[simp] theorem accepted_readAns : (accepted i s).readAns = s.readAns := by
  cases i <;> simp [accepted]
@[simp] theorem accepted_delayAns : (accepted i s).delayAns = s.delayAns := by
  cases i <;> simp [accepted]
@[simp] theorem accepted_rstPin : (accepted i s).rstPin = s.rstPin := by cases i <;> simp [accepted]
@[simp] theorem accepted_draws : (accepted i s).draws = s.draws := by cases i <;> simp [accepted]
@[simp] theorem accepted_cnt : (accepted i s).seq.cnt = s.seq.cnt := by
  cases i <;> simp [accepted]
@[simp] theorem accepted_requests : requests (accepted i s).trace = requests s.trace := by
  cases i <;> simp [accepted, requests, Event.isRequest]

end AcceptFrame

/-! ### A step by the phase it starts in -/

/-- The command OP names is in progress in its own row. -/
theorem inProgress_opOf (h : s.inProgress = some i) : opOf i = s.seq.op := by
  unfold State.inProgress at h
  cases ho : s.seq.op <;> rw [ho] at h <;> simp at h <;> subst h <;> rfl

@[simp] theorem tick_request : s.tick.request = s.request := rfl

/-- A phase that asks for something is not IDLE. -/
theorem busy_of_request {r : Request} (h : s.request = some r) : s.seq.phase ≠ .idle := by
  intro hp
  simp [State.request, hp, phaseRequest, phaseRequestIn] at h

/-- What a step of an idle engine can be: a reset, a wait, or the acceptance of a legal command. -/
theorem idle_step_cases (hp : s.seq.phase = .idle) (h : step s = .next t) :
    (s.rstNow = true ∧ t = s.tick.takeRst) ∨
    (s.rstNow = false ∧ s.cmds = [] ∧ t = s.tick) ∨
    (s.rstNow = false ∧ ∃ w ws i, s.cmds = w :: ws ∧ decode w = .ok i ∧
      legalNow s.own i = true ∧ t = accepted i { s.tick with cmds := ws }) := by
  rcases step_next_cases h with h | ⟨hr, _, hc, ht⟩ | ⟨hr, _, w, ws, i, hc, hd, he⟩ | ⟨_, hb, _⟩
  · exact .inl h
  · exact .inr (.inl ⟨hr, hc, ht⟩)
  · rcases exec_next_cases he with ⟨_, hl, ht⟩ | ⟨hb, _⟩
    · exact .inr (.inr ⟨hr, w, ws, i, hc, hd, hl, ht⟩)
    · exact absurd hp hb
  · exact absurd hp hb

/-- What a step of a busy engine can be: a reset, or the row of its phase. -/
theorem busy_step_cases (hp : s.seq.phase ≠ .idle) (h : step s = .next t) :
    (s.rstNow = true ∧ t = s.tick.takeRst) ∨
    (s.rstNow = false ∧ ∃ i, s.inProgress = some i ∧ opOf i ∈ phaseOps s.seq.phase ∧
      t = rowStep i s.tick) := by
  rcases step_next_cases h with h | ⟨_, hi, _⟩ | ⟨_, hi, _⟩ | ⟨hr, _, i, hi, he⟩
  · exact .inl h
  · exact absurd hi hp
  · exact absurd hi hp
  · rcases exec_next_cases he with ⟨hb, _⟩ | ⟨_, ho, ht⟩
    · exact absurd hb hp
    · exact .inr ⟨hr, i, hi, ho, ht⟩

/-- A busy engine in a row of the table, with `rst` low, takes that row. -/
theorem step_row (ho : s.seq.op ∈ phaseOps s.seq.phase) (hp : s.seq.phase ≠ .idle)
    (hr : s.rstNow = false) :
    ∃ i, s.inProgress = some i ∧ opOf i = s.seq.op ∧ step s = .next (rowStep i s.tick) := by
  have hi : ∃ i, s.inProgress = some i := by
    unfold State.inProgress
    cases hs : s.seq.op <;> simp
    rw [hs] at ho
    cases hq : s.seq.phase <;> simp_all [phaseOps]
  obtain ⟨i, hi⟩ := hi
  refine ⟨i, hi, inProgress_opOf hi, ?_⟩
  rw [step_continues hr hp hi, exec_row (by simpa [inProgress_opOf hi] using ho) (by simpa using hp)]

end Sys2Proof.Machine
end

