-- ==== Sys2Proof/Laws/Environment.lean ====
section
/-!
SUPPORT. What an environment yields, the host's run as a chain of steps, and this hardware as one of
the builds, with the small lemmas for comparing outcomes: the lemmas a proof about a whole program or about answers without end cites.
-/

namespace Sys2Proof.Machine

/-! ### Answers -/

section Answers

variable {α : Type} {next : Answers α → Option (α × Answers α)} {draw : Nat → Option α}
  {a : α} {as bs : List α} {o o' : Answers α} {tl : Tail α}

@[simp] theorem yields_nil : Yields next o [] o' ↔ o = o' := Iff.rfl

@[simp] theorem yields_cons :
    Yields next o (a :: as) o' ↔ ∃ o1, next o = some (a, o1) ∧ Yields next o1 as o' := Iff.rfl

/-- Answers one after the other. -/
theorem yields_append :
    Yields next o (as ++ bs) o' ↔ ∃ o1, Yields next o as o1 ∧ Yields next o1 bs o' := by
  induction as generalizing o with
  | nil => simp
  | cons a as ih => simp only [List.cons_append, yields_cons, ih]; tauto

/-- The listed answers come first. -/
theorem yields_listed : Yields (Answers.next draw) ⟨as ++ bs, tl⟩ as ⟨bs, tl⟩ := by
  induction as with
  | nil => rfl
  | cons a as ih => exact ⟨_, rfl, ih⟩

/-- As many answers as are listed are sure to come. -/
theorem yieldsAtLeast_listed {n : Nat} (h : n ≤ o.listed.length) :
    YieldsAtLeast (Answers.next draw) n o := by
  obtain ⟨l, tl⟩ := o
  refine ⟨l.take n, ⟨l.drop n, tl⟩, by simpa using h, ?_⟩
  simpa using yields_listed (draw := draw) (as := l.take n) (bs := l.drop n) (tl := tl)

/-- A channel whose tail gives one answer for ever does so. -/
theorem yieldsForever_always : YieldsForever (Answers.next draw) a ⟨[], .always a⟩ := by
  intro n
  refine ⟨⟨[], .always a⟩, ?_⟩
  induction n with
  | zero => rfl
  | succ n ih => exact ⟨_, rfl, ih⟩

/-- Writing the tail's next answer into the list leaves the next answer, and what follows, as it is. -/
@[simp] theorem next_reveal :
    Answers.next draw (o.reveal (Answers.next draw)) = Answers.next draw o := by
  unfold Answers.reveal
  split
  · rename_i h
    rw [h]
    rfl
  · rfl

/-- An answer given for ever is given now, and for ever after. -/
theorem yieldsForever_next (h : YieldsForever next a o) :
    ∃ o', next o = some (a, o') ∧ YieldsForever next a o' := by
  obtain ⟨o1, o', h1, -⟩ := h 1
  refine ⟨o', h1, fun n => ?_⟩
  obtain ⟨o2, o3, h3, h4⟩ := h (n + 1)
  rw [h1] at h3
  cases h3
  exact ⟨o2, h4⟩

end Answers

/-! ### The host's run -/

theorem runHost_zero {h : HostRun} : runHost 0 h = .next h := rfl

theorem runHost_succ {n : Nat} {h g : HostRun} (hg : hostStep h = .next g) :
    runHost (n + 1) h = runHost n g := by
  simp [runHost, hg]

/-- A host that waits for nothing issues its next line, and the step is that of waiting for it. -/
theorem hostStep_issues {s : State} {l : AsmLine} {ls : List AsmLine} :
    hostStep ⟨s, l :: ls, none⟩ = hostStep ⟨s.offer l.firstWord, ls, some l⟩ := rfl

/-- A host that waits goes with the engine and then looks. -/
theorem hostStep_waits {s t : State} {l : AsmLine} {ls : List AsmLine} (h : step s = .next t) :
    hostStep ⟨s, ls, some l⟩ = .next (HostRun.receive ⟨s, ls, some l⟩ t) := by
  simp [hostStep, HostRun.finished, HostRun.issue, h]

/-- Two runs of the host, one after the other. -/
theorem runHost_add {m n : Nat} {h g : HostRun} (hg : runHost m h = .next g) :
    runHost (m + n) h = runHost n g := by
  induction m generalizing h with
  | zero => cases hg; simp
  | succ m ih =>
    cases hs : hostStep h with
    | next k =>
      rw [runHost_succ hs] at hg
      rw [Nat.succ_add, runHost_succ hs, ih hg]
    | fault f => simp [runHost, hs] at hg
    | refused r => simp [runHost, hs] at hg

/-! ### Mapping a next state -/

section MapNext

variable {g : State → State} {s : State}

@[simp] theorem mapNext_next : mapNext g (.next s) = .next (g s) := rfl
@[simp] theorem mapNext_fault {f : Fault} : mapNext g (.fault f) = .fault f := rfl
@[simp] theorem mapNext_refused {r : Refusal} : mapNext g (.refused r) = .refused r := rfl

@[simp] theorem mapNext_ite {c : Prop} [Decidable c] {x y : Host.Outcome State Fault Refusal} :
    mapNext g (if c then x else y) = if c then mapNext g x else mapNext g y := by
  split <;> rfl

end MapNext

/-! ### This hardware among the builds -/

@[simp] theorem eraseDelays_mode (s : State) : s.eraseDelays.mode = s.mode := rfl
@[simp] theorem eraseDelays_sck (s : State) : s.eraseDelays.sck = s.sck := rfl
@[simp] theorem eraseDelays_own (s : State) : s.eraseDelays.own = s.own := rfl
@[simp] theorem eraseDelays_acc (s : State) : s.eraseDelays.acc = s.acc := rfl
@[simp] theorem eraseDelays_seq (s : State) : s.eraseDelays.seq = s.seq := rfl
@[simp] theorem eraseDelays_rsp (s : State) : s.eraseDelays.rsp = s.rsp := rfl
@[simp] theorem eraseDelays_trace (s : State) :
    s.eraseDelays.trace = s.trace.map Event.eraseDelay := rfl

/-- Delays of any two lengths look the same once their numbers are erased. -/
@[simp] theorem eraseDelay_delay (m : Nat) : Event.eraseDelay (.delay m) = .delay 0 := rfl

theorem execIn_params (i : Instr) (s : State) : execIn Config.params i s = exec i s := by
  cases i <;> rfl

end Sys2Proof.Machine
end

