-- ==== Sys2Proof/Laws/Frame.lean ====
section
/-!
SUPPORT. What one pulse and one row do as runs of steps, and the arithmetic of SEQ.CNT: the lemmas a
proof about a whole frame (spec/42_retrieve.md rules R123 and R124) cites instead of single steps.
-/

namespace Sys2Proof.Machine

/-! ### Counting -/

/-- A Mode has at least one trailing pulse. -/
theorem mode_pos {m : ModeBits} (h : m ≠ 0b00#2) : 0 < m.toNat := by
  revert m
  decide

/-- The next trailing pulse is still below MODE. -/
theorem trailing_next_lt {c : Count} {m : ModeBits} (h : c.toNat < m.toNat)
    (hl : c ≠ m.setWidth 5 - 1#5) : (c + 1#5).toNat < m.toNat := by
  revert c m
  decide

/-- The last trailing pulse is the one before MODE. -/
theorem trailing_last_iff {c : Count} {m : ModeBits} (h : c.toNat < m.toNat) :
    c = m.setWidth 5 - 1#5 ↔ c.toNat + 1 = m.toNat := by
  revert c m
  decide

/-- The next data pulse is still below 24. -/
theorem data_next_lt {c : Count} (h : c.toNat < 24) (hl : c ≠ 23#5) : (c + 1#5).toNat < 24 := by
  revert c
  decide

/-! ### A row as a step -/

section Frame

variable {s : State} {i : Instr}

/-- A busy engine whose pin is low and whose channel shows nothing takes the row of its command. -/
theorem step_rowStep (hi : s.inProgress = some i) (ho : s.seq.op ∈ phaseOps s.seq.phase)
    (hp : s.seq.phase ≠ .idle) (hr : s.rstPin = []) (hs : s.rsp = none) :
    step s = .next (rowStep i s) := by
  rw [step_continues (rstNow_of_empty hr) hp hi, tick_eq_self hr hs,
    exec_row (by rwa [inProgress_opOf hi]) hp]

/-- A write row answered ok. -/
theorem step_write {l : Level} {rest : Answers WriteAnswer} (hi : s.inProgress = some i)
    (ho : s.seq.op ∈ phaseOps s.seq.phase) (hr : s.rstPin = []) (hs : s.rsp = none)
    (hq : s.request = some (.lineWrite l)) (hw : nextWrite s.writeAns = some (.ok, rest)) :
    step s = .next (rowGood i s.seq.phase .low
      { s with writeAns := rest, sck := l, trace := s.trace ++ [.lineWrite l .ok] }) := by
  rw [step_rowStep hi ho (busy_of_request hq) hr hs, rowStep, hq]
  simp only [lineWrite_ok hw]

/-- A read row answered with a level. -/
theorem step_read {b : Level} {rest : Answers ReadAnswer} (hi : s.inProgress = some i)
    (ho : s.seq.op ∈ phaseOps s.seq.phase) (hr : s.rstPin = []) (hs : s.rsp = none)
    (hq : s.request = some .lineRead) (ha : nextRead s.readAns = some (.level b, rest)) :
    step s = .next (rowGood i s.seq.phase b
      { s with readAns := rest, trace := s.trace ++ [.lineRead (.level b)] }) := by
  rw [step_rowStep hi ho (busy_of_request hq) hr hs, rowStep, hq]
  simp only [lineRead_level ha]

/-- A delay row that completes. -/
theorem step_delay {n : Nat} {u : Unit} {rest : Answers Unit} (hi : s.inProgress = some i)
    (ho : s.seq.op ∈ phaseOps s.seq.phase) (hr : s.rstPin = []) (hs : s.rsp = none)
    (hq : s.request = some (.delay n)) (hd : nextDelay s.delayAns = some (u, rest)) :
    step s = .next (rowGood i s.seq.phase .low
      { s with delayAns := rest, trace := s.trace ++ [.delay n] }) := by
  rw [step_rowStep hi ho (busy_of_request hq) hr hs, rowStep, hq]
  simp only [delay_done hd]

/-! ### One pulse -/

/-- A command that runs frames is in progress, the pin is low and nothing is being presented. -/
structure InFrame (s : State) : Prop where
  op : s.seq.op = .retrieve ∨ s.seq.op = .setMode
  pin : s.rstPin = []
  rsp : s.rsp = none

/-- Five steps are one data pulse: one shift, one sample, two writes, two delays (R123). -/
theorem run_dataPulse {b : Level} {w1 wr : Answers WriteAnswer} {rr : Answers ReadAnswer}
    {d1 d : Answers Unit} (hf : InFrame s) (hp : s.seq.phase = .bHigh)
    (hw : nextWrite s.writeAns = some (.ok, w1)) (hw1 : nextWrite w1 = some (.ok, wr))
    (ha : nextRead s.readAns = some (.level b, rr))
    (hd : nextDelay s.delayAns = some ((), d1)) (hd1 : nextDelay d1 = some ((), d)) :
    Host.Core.run core 5 s = .next
      { s with
        sck := .low, acc := orSample (shiftAcc s.acc) b
        writeAns := wr, readAns := rr, delayAns := d
        seq := if s.seq.cnt = 23#5 then { s.seq with cnt := 0#5, phase := .tHigh }
          else { s.seq with cnt := s.seq.cnt + 1#5, phase := .bHigh }
        trace := s.trace ++ dataPulse b } := by
  obtain ⟨mo, sc, ow, ac, ⟨op, ph, ct⟩, rs, cm, wa, ra, dd, rp, tr, dr⟩ := s
  obtain ⟨hop, hpin, hrsp⟩ := hf
  simp only at hop hpin hrsp hp hw ha hd
  subst hpin hrsp hp
  rcases hop with rfl | rfl
  all_goals
    rw [run_succ (step_write rfl (by simp [phaseOps]) rfl rfl rfl hw)]
    rw [run_succ (step_delay rfl (by simp [phaseOps, rowGood]) rfl rfl rfl hd)]
    rw [run_succ (step_read rfl (by simp [phaseOps, rowGood]) rfl rfl rfl ha)]
    rw [run_succ (step_write rfl (by simp [phaseOps, rowGood]) rfl rfl rfl hw1)]
    rw [run_succ (step_delay rfl (by simp [phaseOps, rowGood]) rfl rfl rfl hd1), run_zero]
    by_cases hc : ct = 23#5 <;>
      simp [rowGood, State.goto, State.gotoCnt, hc, dataPulse, Config.params]

/-- Four steps are one trailing pulse that is not the last (R124). -/
theorem run_trailingPulse {w1 wr : Answers WriteAnswer} {d1 d : Answers Unit}
    (hf : InFrame s) (hp : s.seq.phase = .tHigh)
    (hw : nextWrite s.writeAns = some (.ok, w1)) (hw1 : nextWrite w1 = some (.ok, wr))
    (hd : nextDelay s.delayAns = some ((), d1)) (hd1 : nextDelay d1 = some ((), d))
    (hc : s.seq.cnt ≠ s.modeValue.setWidth 5 - 1#5) :
    Host.Core.run core 4 s = .next
      { s with
        sck := .low, writeAns := wr, delayAns := d
        seq := { s.seq with cnt := s.seq.cnt + 1#5, phase := .tHigh }
        trace := s.trace ++ trailingPulse } := by
  obtain ⟨mo, sc, ow, ac, ⟨op, ph, ct⟩, rs, cm, wa, ra, dd, rp, tr, dr⟩ := s
  obtain ⟨hop, hpin, hrsp⟩ := hf
  simp only [State.modeValue] at hop hpin hrsp hp hw hd hc
  subst hpin hrsp hp
  rcases hop with rfl | rfl
  all_goals
    rw [run_succ (step_write rfl (by simp [phaseOps]) rfl rfl rfl hw)]
    rw [run_succ (step_delay rfl (by simp [phaseOps, rowGood]) rfl rfl rfl hd)]
    rw [run_succ (step_write rfl (by simp [phaseOps, rowGood]) rfl rfl rfl hw1)]
    rw [run_succ (step_delay rfl (by simp [phaseOps, rowGood]) rfl rfl rfl hd1), run_zero]
    simp [rowGood, State.goto, State.gotoCnt, State.modeValue, hc, trailingPulse, Config.params]

/-- The last trailing pulse ends the command: RETRIEVE with the sample, SET_MODE with Ok (R127;
43_set_mode.md R141). -/
theorem run_lastPulse {w1 wr : Answers WriteAnswer} {d1 d : Answers Unit}
    (hf : InFrame s) (hp : s.seq.phase = .tHigh)
    (hw : nextWrite s.writeAns = some (.ok, w1)) (hw1 : nextWrite w1 = some (.ok, wr))
    (hd : nextDelay s.delayAns = some ((), d1)) (hd1 : nextDelay d1 = some ((), d))
    (hc : s.seq.cnt = s.modeValue.setWidth 5 - 1#5) :
    Host.Core.run core 4 s = .next (State.respond
      (if s.seq.op = .retrieve then .okValue (extend24 s.acc) else .ok)
      { s with
        sck := .low, writeAns := wr, delayAns := d, trace := s.trace ++ trailingPulse }) := by
  obtain ⟨mo, sc, ow, ac, ⟨op, ph, ct⟩, rs, cm, wa, ra, dd, rp, tr, dr⟩ := s
  obtain ⟨hop, hpin, hrsp⟩ := hf
  simp only [State.modeValue] at hop hpin hrsp hp hw hd hc
  subst hpin hrsp hp hc
  rcases hop with rfl | rfl
  all_goals
    rw [run_succ (step_write rfl (by simp [phaseOps]) rfl rfl rfl hw)]
    rw [run_succ (step_delay rfl (by simp [phaseOps, rowGood]) rfl rfl rfl hd)]
    rw [run_succ (step_write rfl (by simp [phaseOps, rowGood]) rfl rfl rfl hw1)]
    rw [run_succ (step_delay rfl (by simp [phaseOps, rowGood]) rfl rfl rfl hd1), run_zero]
    simp [rowGood, State.goto, State.respond, State.modeValue, trailingPulse, Config.params]

end Frame

end Sys2Proof.Machine
end

