-- ==== Sys2Proof/Laws/PerInstr.lean ====
section
/-!
SUPPORT. What the encoder writes for each command, one lemma per constructor: the field `op` of its
word is the number the table of spec/30_encoding.md rule R81 gives it.
-/

namespace Sys2Proof.Laws.EncodeOpField

/-- Bits 4:2 of the encoded word are the command's `op` number (R80, R81). -/
def Statement (i : Instr) : Prop := opField (encode i) = encodeOp i

theorem new : Statement .new := by unfold Statement; decide
theorem enable : Statement .enable := by unfold Statement; decide
theorem disable : Statement .disable := by unfold Statement; decide
theorem retrieve : Statement .retrieve := by unfold Statement; decide
theorem setMode (m : ModeBits) : Statement (.setMode m) := by revert m; unfold Statement; decide
theorem reset : Statement .reset := by unfold Statement; decide
theorem destroy : Statement .destroy := by unfold Statement; decide
theorem reservedOp7 (mode : ModeBits) : Statement (.reservedOp7 mode) := by
  revert mode; unfold Statement; decide
theorem reservedSetMode0 : Statement .reservedSetMode0 := by unfold Statement; decide

end Sys2Proof.Laws.EncodeOpField
end

