-- ==== Sys2Proof/Tests/Slice0.lean ====
section
/-!
SUPPORT. The author's own tests. Expected values come from spec/95_test_vectors.md (the vector's
number is named) or are worked out by hand from the rule named. The second half gives, for every
obligation with hypotheses, concrete values that meet them all together.
-/

namespace Sys2Proof.Tests

open Sys2Proof.Machine

/-! ### Small states -/

/-- A channel that gives these answers and no more. -/
def only {α : Type} (l : List α) : Answers α := ⟨l, .silent⟩

/-- Idle, in Mode `m`, with one word offered; `d` delays will be completed. -/
def idleWith (own : Bool) (m : ModeBits) (w : CmdWord) (wa : List WriteAnswer)
    (ra : List ReadAnswer) (d : Nat) : State :=
  { State.reset with
    own := own, mode := m, cmds := [w]
    writeAns := only wa, readAns := only ra, delayAns := only (List.replicate d ()) }

/-- A command in progress in a phase. -/
def busy (op : Op) (p : Phase) (c : Count) (m : ModeBits) (wa : List WriteAnswer)
    (ra : List ReadAnswer) (d : Nat) : State :=
  { State.reset with
    own := op != .new, mode := m, seq := ⟨op, p, c⟩
    writeAns := only wa, readAns := only ra, delayAns := only (List.replicate d ())
    sck := (heldLevel p).getD .low, trace := [.accept op] }

/-- Reads something of a next state. -/
def read {α : Type} (f : State → α) : Host.Outcome State Fault Refusal → Option α
  | .next t => some (f t)
  | .fault _ => none
  | .refused _ => none

/-- What a test reads of a result: OWN, MODE, SCK, PHASE and the response. -/
def view (o : Host.Outcome State Fault Refusal) :
    Option (Bool × ModeBits × Level × Phase × Option Response) :=
  read (fun t => (t.own, t.mode, t.sck, t.seq.phase, t.rsp)) o

/-- A test's error value. -/
def err : LineErr := 7

/-! ### Well-formedness: each check refuses an ill-formed term -/

theorem test_setMode_zero_illFormed : (Instr.setMode 0b00#2).wellFormed = false := by decide

theorem test_reserved_illFormed : (Instr.reservedOp7 0b01#2).wellFormed = false ∧
    Instr.reservedSetMode0.wellFormed = false := by decide

theorem test_absent_reset_illFormed :
    Instr.reset.wellFormedIn { hasReset := false } = false := by decide

theorem test_absent_destroy_illFormed :
    Instr.destroy.wellFormedIn { hasDestroy := false } = false := by decide

theorem test_setMode_wellFormed : (Instr.setMode M3).wellFormed = true := by decide

/-! ### Decoding: words written out bit by bit from the table of 30_encoding.md R81 -/

theorem test_decode_new : decode 0b00000#5 = .ok .new ∧ decode 0b00011#5 = .ok .new := by decide

theorem test_decode_enable : decode 0b00100#5 = .ok .enable := by decide

theorem test_decode_disable : decode 0b01000#5 = .ok .disable := by decide

theorem test_decode_retrieve : decode 0b01100#5 = .ok .retrieve := by decide

theorem test_decode_setMode : decode 0b10001#5 = .ok (.setMode 0b01#2) ∧
    decode 0b10011#5 = .ok (.setMode 0b11#2) := by decide

theorem test_decode_reset : decode 0b10100#5 = .ok .reset := by decide

theorem test_decode_destroy : decode 0b11000#5 = .ok .destroy := by decide

theorem test_decode_reserved : decode 0b11110#5 = .ok (.reservedOp7 0b10#2) ∧
    decode 0b10000#5 = .ok .reservedSetMode0 := by decide

/-- cmd_word has five wires (R80). -/
theorem test_decode_wide : decodeNat 32 = .error .widerThanCommandWord := by decide

/-! ### extend24 (95_test_vectors.md section 2.1) -/

/-- V4 and V3. -/
theorem test_extend24_ends : extend24 0x800000#24 = 0xFF800000#32 ∧
    extend24 0x7FFFFF#24 = 0x007FFFFF#32 := by decide

/-- V9 and V11. -/
theorem test_extend24_bits : extend24 0xA5A5A5#24 = 0xFFA5A5A5#32 ∧
    extend24 0x400000#24 = 0x00400000#32 := by decide

/-! ### One step of each command -/

/-- V60: NEW's one write answered ok. -/
theorem test_new_ok : view (step (busy .new .nLow 0 0b11#2 [.ok] [] 0)) =
    some (true, 0b01#2, .low, .idle, some .ok) := by decide

/-- V66: NEW while owned is refused. -/
theorem test_new_owned_refused :
    step (idleWith true M1 0x00#5 [.ok] [] 0) = .refused .outsideLifetime := rfl

/-- V70: ENABLE from a high clock. -/
theorem test_enable_ok :
    view (step { busy .enable .eLow 0 M1 [.ok] [] 0 with sck := .high }) =
      some (true, M1, .low, .idle, some .ok) := by decide

/-- V72: ENABLE's write faults. -/
theorem test_enable_fault :
    read (fun t => (t.rsp, t.seq.phase, t.own)) (step (busy .enable .eLow 0 M1 [.fault err] [] 0)) =
      some (some (.fault err), .idle, true) := rfl

/-- V73: DISABLE's write is followed by the hold, not by the response. -/
theorem test_disable_write : view (step (busy .disable .dHigh 0 M2 [.ok] [] 1)) =
    some (true, M2, .high, .dHold, none) := by decide

/-- V73: DISABLE ends with the clock high. -/
theorem test_disable_hold : view (step (busy .disable .dHold 0 M2 [] [] 1)) =
    some (true, M2, .high, .idle, some .ok) := by decide

/-- V40: a high poll ends RETRIEVE with WouldBlock, SCK low. -/
theorem test_retrieve_wouldBlock :
    view (step (busy .retrieve .gRdy 0 M2 [] [.level .high] 0)) =
      some (true, M2, .low, .idle, some .wouldBlock) := by decide

/-- V21: the last delay of the last trailing pulse gives OkValue(-1). -/
theorem test_retrieve_value :
    view (step { busy .retrieve .tWaitL 0 M1 [] [] 1 with acc := 0xFFFFFF#24 }) =
      some (true, M1, .low, .idle, some (.okValue 0xFFFFFFFF#32)) := by decide

/-- V54: SET_MODE stores MODE when it is accepted. -/
theorem test_setMode_accept : view (step (idleWith true M1 0x13#5 [] [] 0)) =
    some (true, M3, .low, .gLow, none) := by decide

/-- V51: a high poll makes SET_MODE poll again. -/
theorem test_setMode_polls : view (step (busy .setMode .gRdy 0 M3 [] [.level .high] 0)) =
    some (true, M3, .low, .gLow, none) := by decide

/-- V76: RESET ends with the clock low and MODE as it was. -/
theorem test_reset_ends : view (step (busy .reset .xLow 0 M3 [.ok] [] 0)) =
    some (true, M3, .low, .idle, some .ok) := by decide

/-- V77: the second read of RESET faults: the clock stays high. -/
theorem test_reset_read_fault : view (step (busy .reset .xRd2 0 M1 [] [.fault err] 0)) =
    some (true, M1, .high, .idle, some (.fault err)) := rfl

/-- V63: DESTROY leaves the line high. -/
theorem test_destroy_ok :
    view (step { idleWith true M1 0x18#5 [] [] 0 with sck := .high }) =
      some (false, M1, .high, .idle, some .ok) := by decide

/-- V65: a command while un-owned is refused. -/
theorem test_destroy_unowned_refused :
    step (idleWith false M1 0x18#5 [] [] 0) = .refused .outsideLifetime := rfl

/-- R84: the reserved words. -/
theorem test_reserved_refused :
    step (idleWith true M1 0x1C#5 [] [] 0) = .refused .reservedWord ∧
    step (idleWith true M1 0x10#5 [] [] 0) = .refused .reservedWord := ⟨rfl, rfl⟩

/-- R33, R194: the word NEW fetched after reset is accepted by the next step. -/
theorem test_fetch_after_reset : view (step (State.reset.withFetchWord 8 0x00)) =
    some (false, 0b00#2, .low, .nLow, none) := by decide

/-! ### The host's side (30_encoding.md R93, R94) -/

theorem test_asm_setMode : (asmLine ["SET_MODE", "BX"]).map AsmLine.firstWord = some 0x12#5 := by
  decide

theorem test_asm_comment :
    (asmLine ["DISABLE", ";", "hold"]).map AsmLine.firstWord = some 0x08#5 := by decide

theorem test_asm_unknown : asmLine ["HALT"] = none := by decide

/-! ### Witnesses: values that meet the hypotheses of each obligation together

`witness_<Obligation>_<clause>`. The values stand at the ends of a range where there is one. -/

/-- An owned, idle engine offered `w`, with answers for anything. -/
def ready (w : CmdWord) : State :=
  idleWith true M3 w (List.replicate 60 .ok) (List.replicate 60 (.level .low)) 60

theorem offered_ready {w : CmdWord} {i : Instr} (h : decode w = .ok i) : Offered i [] (ready w) :=
  ⟨rfl, rfl, w, rfl, h⟩

theorem offered_idleWith {own : Bool} {m : ModeBits} {w : CmdWord} {wa : List WriteAnswer}
    {ra : List ReadAnswer} {d : Nat} {i : Instr} (h : decode w = .ok i) :
    Offered i [] (idleWith own m w wa ra d) :=
  ⟨rfl, rfl, w, rfl, h⟩

/-- A channel that gives these answers and no more gives these. -/
theorem yields_all {α : Type} {draw : Nat → Option α} {l : List α} :
    Yields (Answers.next draw) (only l) l (only []) := by
  simpa [only] using yields_listed (draw := draw) (as := l) (bs := []) (tl := .silent)

/-- An owned, idle engine has the invariant. -/
theorem ready_inv (w : CmdWord) : EngineInv (ready w) where
  row := by simp [ready, idleWith, State.reset, phaseOps]
  newUnowned := by simp [ready, idleWith, State.reset]
  otherOwned := by simp [ready, idleWith, State.reset]
  modeLegal := by simp [ready, idleWith, M3]
  dataCount := by simp [ready, idleWith, State.reset, isDataPhase]
  trailingCount := by simp [ready, idleWith, State.reset, isTrailingPhase]
  level := by simp [ready, idleWith, State.reset, heldLevel]
  pending := rfl

/-- RETRIEVE at the end of its last data pulse. -/
def lastBit : State := busy .retrieve .bWaitL 23 M3 [.ok] [] 1

theorem lastBit_inv : EngineInv lastBit where
  row := by decide
  newUnowned := by decide
  otherOwned := by decide
  modeLegal := by decide
  dataCount := by decide
  trailingCount := by decide
  level := by intro l h; cases h; rfl
  pending := rfl

/-- RETRIEVE at its last trailing pulse in Mode M3. -/
def lastPulse : State := busy .retrieve .tWaitL 2 M3 [] [] 1

theorem lastPulse_inv : EngineInv lastPulse where
  row := by decide
  newUnowned := by decide
  otherOwned := by decide
  modeLegal := by decide
  dataCount := by decide
  trailingCount := by decide
  level := by intro l h; cases h; rfl
  pending := rfl

theorem witness_ModeFieldIgnored_words :
    opField 0x18#5 = opField 0x1B#5 ∧ opField 0x18#5 ≠ 0b100#3 ∧ opField 0x18#5 ≠ 0b111#3 := by
  decide

theorem witness_ModeFieldIgnored_assembler :
    Instr.destroy.wellFormed = true ∧ ∀ m, Instr.destroy ≠ .setMode m := by
  constructor <;> decide

theorem witness_DecodeEncodeAgree : (Instr.setMode M3).wellFormed = true ∧
    decode 0x1F#5 = .ok (.reservedOp7 0b11#2) ∧ opField 0x1F#5 = 0b111#3 := by decide

theorem witness_ReservedWordsRefused_step :
    (idleWith true M1 0x1F#5 [] [] 0).rstNow = false ∧
    (idleWith true M1 0x1F#5 [] [] 0).seq.phase = .idle ∧
    (idleWith true M1 0x1F#5 [] [] 0).cmds = [0x1F#5] ∧
    0x1F#5 ∈ [0x10#5, 0x1C#5, 0x1D#5, 0x1E#5, 0x1F#5] := by decide

theorem witness_ReservedWordsRefused_absent :
    (({ hasReset := false } : Params).hasReset = false ∧ opField 0x14#5 = 0b101#3) ∧
    (({ hasDestroy := false } : Params).hasDestroy = false ∧ opField 0x1B#5 = 0b110#3) := by decide

theorem witness_CommandOutsideLifetimeRefused :
    (Instr.enable.wellFormed = true ∧ State.reset.seq.phase = .idle ∧
      legalNow State.reset.own .enable = false) ∧
    (Instr.new.wellFormed = true ∧ (ready 0x00#5).seq.phase = .idle ∧
      legalNow (ready 0x00#5).own .new = false) := by decide

theorem witness_AcceptanceStartsCommand_idle :
    (State.reset.seq.phase = .idle ∧ State.reset.own = false) ∧
    ((ready 0x11#5).seq.phase = .idle ∧ (ready 0x11#5).own = true ∧ M1 ≠ 0b00#2 ∧ M3 ≠ 0b00#2) := by
  decide

theorem witness_AcceptanceStartsCommand_busy :
    lastBit.rstNow = false ∧ lastBit.seq.phase ≠ .idle ∧ ∃ t, step lastBit = .next t :=
  ⟨rfl, by decide, _, rfl⟩

theorem witness_LifecycleRowsComplete :
    ((busy .new .nLow 0 0 [.ok] [] 0).seq.phase = .nLow ∧
      nextWrite (busy .new .nLow 0 0 [.ok] [] 0).writeAns = some (.ok, only [])) ∧
    ((ready 0x18#5).seq.phase = .idle ∧ (ready 0x18#5).own = true) := by decide

theorem witness_PowerRowsComplete_writes :
    [(Op.enable, Phase.eLow), (.disable, .dHigh), (.reset, .xHigh), (.reset, .xLow)].all
      (fun k => (busy k.1 k.2 0 M1 [.ok] [] 0).seq.phase == k.2 &&
        nextWrite (busy k.1 k.2 0 M1 [.ok] [] 0).writeAns == some (.ok, only [])) = true := by
  decide

theorem witness_PowerRowsComplete_reads :
    [Phase.xRd1, .xRd2].all
      (fun p => (busy .reset p 0 M1 [] [.level .high] 0).seq.phase == p &&
        nextRead (busy .reset p 0 M1 [] [.level .high] 0).readAns == some (.level .high, only [])) = true := by
  decide

theorem witness_PowerRowsComplete_hold :
    (busy .disable .dHold 0 M1 [] [] 1).seq.phase = .dHold ∧
    nextDelay (busy .disable .dHold 0 M1 [] [] 1).delayAns = some ((), only []) := by decide

theorem witness_RetrieveRowsComplete_poll :
    ((busy .retrieve .gLow 0 M1 [.ok] [] 0).seq.phase = .gLow ∧
      nextWrite (busy .retrieve .gLow 0 M1 [.ok] [] 0).writeAns = some (.ok, only [])) ∧
    ((busy .retrieve .gRdy 0 M1 [] [.level .high] 0).seq.phase = .gRdy ∧
      nextRead (busy .retrieve .gRdy 0 M1 [] [.level .high] 0).readAns = some (.level .high, only [])) ∧
    ((busy .retrieve .gRdy 0 M1 [] [.level .low] 0).seq.phase = .gRdy ∧
      nextRead (busy .retrieve .gRdy 0 M1 [] [.level .low] 0).readAns = some (.level .low, only [])) := by
  decide

theorem witness_RetrieveRowsComplete_end :
    (lastPulse.seq.phase = .tWaitL ∧ nextDelay lastPulse.delayAns = some ((), only []) ∧
      lastPulse.seq.cnt.toNat + 1 = lastPulse.modeValue.toNat) ∧
    ((busy .retrieve .tWaitL 0 M2 [] [] 1).seq.phase = .tWaitL ∧
      nextDelay (busy .retrieve .tWaitL 0 M2 [] [] 1).delayAns = some ((), only []) ∧
      (busy .retrieve .tWaitL 0 M2 [] [] 1).seq.cnt.toNat + 1 <
        (busy .retrieve .tWaitL 0 M2 [] [] 1).modeValue.toNat) := by decide

theorem witness_SetModeRowsComplete_poll :
    ((busy .setMode .gLow 0 M1 [.ok] [] 0).seq.phase = .gLow ∧
      nextWrite (busy .setMode .gLow 0 M1 [.ok] [] 0).writeAns = some (.ok, only [])) ∧
    ((busy .setMode .gRdy 0 M1 [] [.level .high] 0).seq.phase = .gRdy ∧
      nextRead (busy .setMode .gRdy 0 M1 [] [.level .high] 0).readAns = some (.level .high, only [])) ∧
    ((busy .setMode .gRdy 0 M1 [] [.level .low] 0).seq.phase = .gRdy ∧
      nextRead (busy .setMode .gRdy 0 M1 [] [.level .low] 0).readAns = some (.level .low, only [])) := by
  decide

theorem witness_SetModeRowsComplete_end :
    ((busy .setMode .tWaitL 0 M1 [] [] 1).seq.phase = .tWaitL ∧
      nextDelay (busy .setMode .tWaitL 0 M1 [] [] 1).delayAns = some ((), only []) ∧
      (busy .setMode .tWaitL 0 M1 [] [] 1).seq.cnt.toNat + 1 =
        (busy .setMode .tWaitL 0 M1 [] [] 1).modeValue.toNat) ∧
    ((busy .setMode .tWaitL 1 M3 [] [] 1).seq.phase = .tWaitL ∧
      nextDelay (busy .setMode .tWaitL 1 M3 [] [] 1).delayAns = some ((), only []) ∧
      (busy .setMode .tWaitL 1 M3 [] [] 1).seq.cnt.toNat + 1 <
        (busy .setMode .tWaitL 1 M3 [] [] 1).modeValue.toNat) := by decide

theorem witness_FrameRowsComplete_writes :
    [Phase.bHigh, .bLow, .tHigh, .tLow].all
      (fun p => (busy .setMode p 0 M1 [.ok] [] 0).seq.phase == p &&
        nextWrite (busy .setMode p 0 M1 [.ok] [] 0).writeAns == some (.ok, only [])) = true := by
  decide

theorem witness_FrameRowsComplete_sample :
    (busy .retrieve .bSample 23 M1 [] [.level .high] 0).seq.phase = .bSample ∧
    nextRead (busy .retrieve .bSample 23 M1 [] [.level .high] 0).readAns = some (.level .high, only []) := by
  decide

theorem witness_FrameRowsComplete_delays :
    [Phase.gSetup, .bWaitH, .bWaitL, .tWaitH].all
      (fun p => (busy .retrieve p 0 M1 [] [] 1).seq.phase == p &&
        nextDelay (busy .retrieve p 0 M1 [] [] 1).delayAns == some ((), only [])) = true ∧
    lastBit.seq.cnt = 23#5 ∧ (busy .retrieve .bWaitL 22 M1 [] [] 1).seq.cnt ≠ 23#5 := by decide

/-- A LineWrite outstanding in a state of a command, `rst` low, the next answer `a`. -/
def WriteAnswered (s : State) (l : Level) (a : WriteAnswer) : Prop :=
  s.seq.op ∈ phaseOps s.seq.phase ∧ s.rstNow = false ∧ s.request = some (.lineWrite l) ∧
    nextWrite s.writeAns = some (a, only [])

theorem witness_LineWriteSetsSckOrFaults :
    WriteAnswered (busy .retrieve .bHigh 0 M1 [.ok] [] 0) .high .ok ∧
    WriteAnswered (busy .new .nLow 0 0 [.ok] [] 0) .low .ok ∧
    WriteAnswered (busy .retrieve .bHigh 0 M1 [.fault err] [] 0) .high (.fault err) :=
  ⟨⟨by decide, rfl, rfl, rfl⟩, ⟨by decide, rfl, rfl, rfl⟩, by decide, rfl, rfl, rfl⟩

theorem witness_LineFaultEndsCommand_write :
    WriteAnswered (busy .setMode .tLow 2 M3 [.fault err] [] 0) .low (.fault err) :=
  ⟨by decide, rfl, rfl, rfl⟩

theorem witness_LineFaultEndsCommand_read :
    (busy .reset .xRd2 0 M3 [] [.fault err] 0).seq.op ∈
      phaseOps (busy .reset .xRd2 0 M3 [] [.fault err] 0).seq.phase ∧
    (busy .reset .xRd2 0 M3 [] [.fault err] 0).rstNow = false ∧
    (busy .reset .xRd2 0 M3 [] [.fault err] 0).request = some .lineRead ∧
    nextRead (busy .reset .xRd2 0 M3 [] [.fault err] 0).readAns = some (.fault err, only []) :=
  ⟨by decide, rfl, rfl, rfl⟩

theorem witness_EachStepAnswersTheOutstandingRequest_busy :
    lastBit.seq.op ∈ phaseOps lastBit.seq.phase ∧ lastBit.rstNow = false ∧
    lastBit.seq.phase ≠ .idle := by decide

theorem witness_EachStepAnswersTheOutstandingRequest_idle :
    (ready 0x0C#5).seq.phase = .idle ∧ ∃ t, step (ready 0x0C#5) = .next t := ⟨rfl, _, rfl⟩

/-- For each channel a state that asks it, and two contents with the same next answer that go on
differently. -/
theorem witness_StepSeesOnlyTheNextAnswer_asked :
    ((busy .enable .eLow 0 M1 [] [] 0).request = some (.lineWrite .low) ∧
      (nextWrite (only [.ok])).map Prod.fst = (nextWrite ⟨[], .always .ok⟩).map Prod.fst) ∧
    ((busy .retrieve .gRdy 0 M1 [] [] 0).request = some .lineRead ∧
      (nextRead (only [.level .low, .level .high])).map Prod.fst =
        (nextRead (only [.level .low])).map Prod.fst) ∧
    (lastBit.request = some (.delay 1) ∧
      (nextDelay (only [()])).map Prod.fst = (nextDelay ⟨[], .always ()⟩).map Prod.fst) :=
  ⟨⟨rfl, rfl⟩, ⟨rfl, rfl⟩, rfl, rfl⟩

/-- An environment whose tail answers, and one of which nothing is known. -/
theorem witness_StepSeesOnlyTheNextAnswer_reveal :
    ({ busy .enable .eLow 0 M1 [] [] 0 with writeAns := ⟨[], .always .ok⟩ }.request =
        some (.lineWrite .low) ∧
      { busy .enable .eLow 0 M1 [] [] 0 with writeAns := ⟨[], .always .ok⟩ }.rstNow = false) ∧
    ({ busy .retrieve .gRdy 0 M1 [] [] 0 with readAns := ⟨[], .free 7⟩ }.request =
        some .lineRead ∧
      { busy .retrieve .gRdy 0 M1 [] [] 0 with readAns := ⟨[], .free 7⟩ }.rstNow = false) ∧
    (lastBit.request = some (.delay 1) ∧ lastBit.rstNow = false) := by decide

/-- A phase that does not ask the channel, and one that does while `rst` is high. -/
theorem witness_StepSeesOnlyTheNextAnswer_unasked :
    (∀ l, lastBit.request = some (.lineWrite l) → lastBit.rstNow = true) ∧
    (lastBit.request = some .lineRead → lastBit.rstNow = true) ∧
    (∀ n, { lastBit with rstPin := [true] }.request = some (.delay n) →
      { lastBit with rstPin := [true] }.rstNow = true) ∧
    ∃ t, step lastBit = .next t :=
  have hq : lastBit.request = some (.delay 1) := rfl
  ⟨fun _ h => (by simp [hq] at h), fun h => (by simp [hq] at h), fun _ _ => rfl, _, rfl⟩

/-- A tail's answer, written into the list, is the same next answer. -/
theorem test_reveal : (Answers.reveal nextWrite ⟨[], .always .ok⟩).listed = [.ok] ∧
    nextWrite ⟨[], .always .ok⟩ = some (.ok, ⟨[], .always .ok⟩) := ⟨rfl, rfl⟩

theorem witness_DelayCannotFault :
    (lastBit.seq.op ∈ phaseOps lastBit.seq.phase ∧ lastBit.rstNow = false ∧
      lastBit.request = some (.delay 1) ∧ nextDelay lastBit.delayAns = some ((), only [])) ∧
    ((busy .disable .dHold 0 M1 [] [] 1).seq.op ∈ phaseOps .dHold ∧
      (busy .disable .dHold 0 M1 [] [] 1).rstNow = false ∧
      (busy .disable .dHold 0 M1 [] [] 1).request = some (.delay 60) ∧
      nextDelay (busy .disable .dHold 0 M1 [] [] 1).delayAns = some ((), only [])) := by decide

theorem witness_UnansweredRequestWaitsForever :
    [(Phase.gLow, Request.lineWrite .low), (.gRdy, .lineRead), (.gSetup, .delay 1)].all (fun k =>
      (busy .retrieve k.1 0 M1 [] [] 0).seq.op ∈ phaseOps k.1 &&
      (busy .retrieve k.1 0 M1 [] [] 0).rstPin == [] &&
      (busy .retrieve k.1 0 M1 [] [] 0).rsp == none &&
      (busy .retrieve k.1 0 M1 [] [] 0).request == some k.2 &&
      nextWrite (busy .retrieve k.1 0 M1 [] [] 0).writeAns == none &&
      nextRead (busy .retrieve k.1 0 M1 [] [] 0).readAns == none &&
      nextDelay (busy .retrieve k.1 0 M1 [] [] 0).delayAns == none) = true := by decide

theorem witness_AtMostOneRequestOutput :
    (busy .retrieve .gLow 0 M1 [] [] 0).sckReq = true ∧
    (busy .retrieve .gRdy 0 M1 [] [] 0).doutReq = true ∧ lastBit.dlyReq = true := by decide

theorem witness_ResetPinAbandonsCommand : { lastBit with rstPin := [true] }.rstNow = true := by
  decide

theorem witness_ResetStateTakesOnlyNew :
    (Instr.setMode M1).wellFormed = true ∧ Instr.setMode M1 ≠ .new := by decide

theorem witness_StepKeepsInv :
    (EngineInv lastBit ∧ ∃ t, step lastBit = .next t) ∧
    (EngineInv (ready 0x13#5) ∧ ∃ t, step (ready 0x13#5) = .next t) :=
  ⟨⟨lastBit_inv, _, rfl⟩, ready_inv _, _, rfl⟩

theorem witness_StepKeepsSckDriven :
    SckIsDriven { lastBit with sck := .high, trace := [w1] } ∧
    drivenLevel [w1] = some .high ∧
    ∃ t, step { lastBit with sck := .high, trace := [w1] } = .next t :=
  ⟨by intro l h; cases h; rfl, rfl, _, rfl⟩

theorem witness_StepKeepsIdleClock :
    EngineInv lastPulse ∧ IdleClock lastPulse ∧ ∃ t, step lastPulse = .next t :=
  ⟨lastPulse_inv, (by intro _ h; cases h), _, rfl⟩

/-- The clause of R25 about DISABLE, in a state that meets it. -/
theorem witness_StepKeepsIdleClock_disable :
    IdleClock { ready 0x04#5 with sck := .high, trace := [.accept .disable, .respond .ok] } ∧
    lastEnded [.accept .disable, .respond .ok] = some (.disable, .ok) := by
  refine ⟨?_, by decide⟩
  intro _ _ op r h _
  cases h
  decide

theorem witness_OneResponsePerCommand :
    EngineInv lastPulse ∧ lastPulse.seq.phase ≠ .idle ∧ lastPulse.rstNow = false ∧
    ∃ t r, step lastPulse = .next t ∧ t.rsp = some r :=
  ⟨lastPulse_inv, by decide, rfl, _, _, rfl, rfl⟩

theorem witness_StepRunsDecodedCommand_accepts :
    (ready 0x0F#5).rstNow = false ∧ (ready 0x0F#5).seq.phase = .idle ∧
    (ready 0x0F#5).cmds = [0x0F#5] ∧ decode 0x0F#5 = .ok .retrieve := by decide

theorem witness_StepRunsDecodedCommand_continues :
    lastBit.rstNow = false ∧ lastBit.seq.phase ≠ .idle ∧
    lastBit.inProgress = some .retrieve := by decide

theorem witness_StepRunsDecodedCommand_waits :
    State.reset.rstNow = false ∧ State.reset.seq.phase = .idle ∧ State.reset.cmds = [] := by decide

theorem witness_StepStopsOnlyAtIllegalCommand :
    EngineInv (ready 0x0C#5) ∧ HostKeepsDuty (ready 0x0C#5) := by
  refine ⟨ready_inv _, ?_⟩
  intro _ w ws h
  injection h with h1 h2
  subst h1
  exact ⟨.retrieve, by decide, rfl⟩

/-- A build with other delays and without RESET and DESTROY. -/
def slow : Params :=
  { tHighUs := 2, tLowUs := 3, tSetupUs := 4, tPdUs := 255, hasReset := false, hasDestroy := false }

theorem witness_BuildParametersMoveDelaysOnly_delay :
    lastBit.seq.op ∈ phaseOps lastBit.seq.phase ∧ lastBit.rstNow = false ∧
    phaseRequestIn slow lastBit.seq.phase = some (.delay 3) ∧
    nextDelay lastBit.delayAns = some ((), only []) := ⟨by decide, rfl, rfl, rfl⟩

/-- A phase that asks no delay. -/
theorem witness_BuildParametersMoveDelaysOnly_phase :
    ∀ n, phaseRequest .gLow ≠ some (.delay n) := by
  intro n h
  cases h

/-- Two builds that differ in DESTROY alone, RESET in progress and offered behind. -/
theorem witness_BuildParametersMoveDelaysOnly_builds :
    let s := { busy .reset .xLow 0 M1 [.ok] [] 0 with cmds := [0x14#5] }
    Concerns .reset 0b101#3 s ∧ slow.hasReset = ({ slow with hasDestroy := true } : Params).hasReset ∧
    ¬ Concerns .destroy 0b110#3 s :=
  ⟨.inl rfl, rfl, by
    rintro (h | ⟨w, ws, h, hw⟩)
    · cases h
    · cases h
      exact absurd hw (by decide)⟩

theorem witness_BuildParametersMoveDelaysOnly_absent :
    ((ready 0x16#5).rstNow = false ∧ (ready 0x16#5).seq.phase = .idle ∧
      (ready 0x16#5).cmds = [0x16#5] ∧ slow.hasReset = false ∧ opField 0x16#5 = 0b101#3) ∧
    ((ready 0x18#5).rstNow = false ∧ (ready 0x18#5).seq.phase = .idle ∧
      (ready 0x18#5).cmds = [0x18#5] ∧ slow.hasDestroy = false ∧ opField 0x18#5 = 0b110#3) := by
  decide

/-- R10: the hold of a build with T_PD_US = 255. -/
theorem test_build_hold :
    read (fun t => t.trace) (stepIn slow (busy .disable .dHold 0 M1 [] [] 1)) =
      some [.accept .disable, .delay 255, .respond .ok] := rfl

theorem witness_ModeWrittenByNewAndSetModeOnly_exec :
    (∃ t, exec .new (busy .new .nLow 0 0 [.ok] [] 0) = .next t) ∧
    (∃ t, exec (.setMode M3) (ready 0x13#5) = .next t) ∧
    (∃ t, exec .retrieve lastPulse = .next t) := ⟨⟨_, rfl⟩, ⟨_, rfl⟩, _, rfl⟩

theorem witness_ModeWrittenByNewAndSetModeOnly_writers :
    ((busy .new .nLow 0 0 [.ok] [] 0).seq.phase = .nLow ∧
      nextWrite (busy .new .nLow 0 0 [.ok] [] 0).writeAns = some (.ok, only [])) ∧
    ((ready 0x11#5).seq.phase = .idle ∧ (ready 0x11#5).own = true ∧ M1 ≠ 0b00#2) := by decide

theorem witness_ModeWrittenByNewAndSetModeOnly_readers :
    lastBit.seq.phase ≠ .tWaitL ∧ Instr.reset ≠ .retrieve ∧ ∀ m, Instr.reset ≠ .setMode m := by
  refine ⟨by decide, by decide, by decide⟩

theorem witness_OwnWrittenByNewAndDestroyOnly_exec :
    (∃ t, exec .new (busy .new .nLow 0 0 [.ok] [] 0) = .next t) ∧
    (∃ t, exec .destroy (ready 0x18#5) = .next t) ∧
    (∃ t, exec .retrieve lastPulse = .next t) := ⟨⟨_, rfl⟩, ⟨_, rfl⟩, _, rfl⟩

theorem witness_OwnWrittenByNewAndDestroyOnly_unowned :
    EngineInv (idleWith false M1 0x00#5 [] [] 0) ∧
    (idleWith false M1 0x00#5 [] [] 0).own = false ∧
    (idleWith false M1 0x00#5 [] [] 0).seq.op ≠ .new ∧
    ∃ t, step (idleWith false M1 0x00#5 [] [] 0) = .next t := by
  refine ⟨?_, rfl, by decide, _, rfl⟩
  constructor <;> simp [idleWith, State.reset, phaseOps, isDataPhase, isTrailingPhase, heldLevel,
    pendingOp]

/-- R105: the engine after a DESTROY, and one that is taking the lines. -/
theorem witness_ModeUnreadableWhileUnowned :
    (idleWith false M2 0x00#5 [] [] 0).own = false ∧
    (busy .new .nLow 0 M2 [.ok] [] 0).own = false := by decide

theorem witness_AccAndCntWrittenInFrameOnly :
    (∃ t, exec .reset (busy .reset .xRd1 0 M1 [] [.level .high] 0) = .next t) ∧
    (∃ t, exec .retrieve lastBit = .next t) ∧ lastBit.seq.phase ≠ .gSetup ∧
    lastBit.seq.phase ≠ .bWaitH ∧ lastBit.seq.phase ≠ .bSample :=
  ⟨⟨_, rfl⟩, ⟨_, rfl⟩, by decide, by decide, by decide⟩

theorem witness_CommandReachesItsChannelsOnly :
    (∃ t, exec .new (busy .new .nLow 0 0 [.ok] [] 0) = .next t) ∧
    (∃ t, exec .enable (busy .enable .eLow 0 M1 [.ok] [] 0) = .next t) ∧
    (∃ t, exec .disable (busy .disable .dHold 0 M1 [] [] 1) = .next t) ∧
    (∃ t, exec .reset (busy .reset .xRd1 0 M1 [] [.level .high] 0) = .next t) ∧
    (∃ t, exec .destroy (ready 0x18#5) = .next t) :=
  ⟨⟨_, rfl⟩, ⟨_, rfl⟩, ⟨_, rfl⟩, ⟨_, rfl⟩, _, rfl⟩

theorem witness_CommandReachesItsChannelsOnly_first :
    (State.reset.seq.phase = .idle ∧ State.reset.own = false) ∧
    ((ready 0x04#5).seq.phase = .idle ∧ (ready 0x04#5).own = true ∧ M3 ≠ 0b00#2) := by decide

theorem witness_CommandReachesItsChannelsOnly_second :
    [(Op.disable, Phase.dHigh), (.reset, .xHigh), (.retrieve, .gLow), (.setMode, .gLow)].all
      (fun k => (busy k.1 k.2 0 M1 [.ok] [] 0).seq.phase == k.2 &&
        nextWrite (busy k.1 k.2 0 M1 [.ok] [] 0).writeAns == some (.ok, only [])) = true ∧
    (busy .retrieve .gRdy 0 M1 [] [.level .low] 0).seq.phase = .gRdy ∧
    nextRead (busy .retrieve .gRdy 0 M1 [] [.level .low] 0).readAns =
      some (.level .low, only []) := by decide

theorem witness_EveryCommandFrame : ∃ t, exec .retrieve lastPulse = .next t := ⟨_, rfl⟩

theorem witness_ResponseWordAndItsCommand :
    (∃ t, (busy .retrieve .gRdy 0 M1 [] [.level .high] 0).rsp = none ∧
      exec .retrieve (busy .retrieve .gRdy 0 M1 [] [.level .high] 0) = .next t ∧
      t.rsp = some .wouldBlock) ∧
    (∃ t v, lastPulse.rsp = none ∧ exec .retrieve lastPulse = .next t ∧
      t.rsp = some (.okValue v)) ∧
    (∃ t, (busy .reset .xRd1 0 M1 [] [.fault err] 0).rsp = none ∧
      exec .reset (busy .reset .xRd1 0 M1 [] [.fault err] 0) = .next t ∧
      t.rsp = some (.fault err)) ∧
    (∃ t, (ready 0x18#5).rsp = none ∧ exec .destroy (ready 0x18#5) = .next t ∧
      t.rsp = some .ok) ∧
    rspError .wouldBlock = none :=
  ⟨⟨_, rfl, rfl, rfl⟩, ⟨_, _, rfl, rfl, rfl⟩, ⟨_, rfl, rfl, rfl⟩, ⟨_, rfl, rfl, rfl⟩, rfl⟩

theorem witness_ErrorValuesAreOpaque :
    (busy .enable .eLow 0 M1 [.fault err] [] 0).writeAns.known = true ∧
    (busy .enable .eLow 0 M1 [.fault err] [] 0).readAns.known = true := ⟨rfl, rfl⟩

theorem witness_Extend24IsSignExtension :
    (0x800000#24).getLsbD 23 = true ∧ (0x7FFFFF#24).getLsbD 23 = false := by decide

theorem witness_Extend24SignedValue :
    (0x7FFFFF#24).toNat ≤ 0x7FFFFF ∧ 0x800000 ≤ (0x800000#24).toNat := by decide

theorem witness_Extend24RangeAndInjective : extend24 0x800001#24 = extend24 0x800001#24 := rfl

theorem witness_AccumulationIsMsbFirst :
    (Level.high :: List.replicate 23 .low).length = 24 ∧ 0 < 24 ∧ 23 < 24 := by decide

theorem witness_NewTakesTheLines :
    (Offered .new [] (idleWith false 0 0x03#5 [.ok] [] 0) ∧
      (idleWith false 0 0x03#5 [.ok] [] 0).own = false ∧
      nextWrite (idleWith false 0 0x03#5 [.ok] [] 0).writeAns = some (.ok, only [])) ∧
    (Offered .new [] (idleWith false 0 0x00#5 [.fault err] [] 0) ∧
      (idleWith false 0 0x00#5 [.fault err] [] 0).own = false ∧
      nextWrite (idleWith false 0 0x00#5 [.fault err] [] 0).writeAns = some (.fault err, only [])) :=
  ⟨⟨offered_idleWith rfl, rfl, rfl⟩, offered_idleWith rfl, rfl, rfl⟩

theorem witness_DestroyReleasesTheLines :
    Offered .destroy [] (ready 0x18#5) ∧ (ready 0x18#5).own = true := ⟨offered_ready rfl, rfl⟩

theorem witness_EnableDrivesClockLow :
    (Offered .enable [] (idleWith true M1 0x04#5 [.ok] [] 0) ∧
      (idleWith true M1 0x04#5 [.ok] [] 0).own = true ∧
      nextWrite (idleWith true M1 0x04#5 [.ok] [] 0).writeAns = some (.ok, only [])) ∧
    (Offered .enable [] (idleWith true M1 0x04#5 [.fault err] [] 0) ∧
      (idleWith true M1 0x04#5 [.fault err] [] 0).own = true ∧
      nextWrite (idleWith true M1 0x04#5 [.fault err] [] 0).writeAns = some (.fault err, only [])) :=
  ⟨⟨offered_idleWith rfl, rfl, rfl⟩, offered_idleWith rfl, rfl, rfl⟩

theorem witness_DisableHoldsClockHigh :
    (Offered .disable [] (idleWith true M1 0x08#5 [.ok] [] 1) ∧
      (idleWith true M1 0x08#5 [.ok] [] 1).own = true ∧
      nextWrite (idleWith true M1 0x08#5 [.ok] [] 1).writeAns = some (.ok, only []) ∧
      nextDelay (idleWith true M1 0x08#5 [.ok] [] 1).delayAns = some ((), only [])) ∧
    (Offered .disable [] (idleWith true M1 0x08#5 [.fault err] [] 0) ∧
      (idleWith true M1 0x08#5 [.fault err] [] 0).own = true ∧
      nextWrite (idleWith true M1 0x08#5 [.fault err] [] 0).writeAns = some (.fault err, only [])) :=
  ⟨⟨offered_idleWith rfl, rfl, rfl, rfl⟩, offered_idleWith rfl, rfl, rfl⟩

/-- One state for each clause of LegacyResetSequence: no fault, then a fault at each access. -/
theorem witness_LegacyResetSequence :
    (Offered .reset [] (idleWith true M3 0x14#5 [.ok, .ok] [.level .high, .level .low] 0) ∧
      Yields nextWrite (only [.ok, .ok]) [.ok, .ok] (only []) ∧
      Yields nextRead (only [.level .high, .level .low]) [.level .high, .level .low] (only [])) ∧
    (Offered .reset [] (idleWith true M3 0x14#5 [.fault err] [] 0) ∧
      nextWrite (only [.fault err]) = some (.fault err, only [])) ∧
    (Offered .reset [] (idleWith true M3 0x14#5 [.ok] [.fault err] 0) ∧
      nextWrite (only [.ok]) = some (.ok, only []) ∧
      nextRead (only [.fault err]) = some (.fault err, only [])) ∧
    (Offered .reset [] (idleWith true M3 0x14#5 [.ok] [.level .high, .fault err] 0) ∧
      Yields nextRead (only [.level .high, .fault err]) [.level .high, .fault err] (only [])) ∧
    (Offered .reset [] (idleWith true M3 0x14#5 [.ok, .fault err] [.level .low, .level .high] 0) ∧
      Yields nextWrite (only [.ok, .fault err]) [.ok, .fault err] (only []) ∧
      Yields nextRead (only [.level .low, .level .high]) [.level .low, .level .high] (only [])) ∧
    (ready 0x14#5).own = true :=
  ⟨⟨offered_idleWith rfl, yields_all, yields_all⟩, ⟨offered_idleWith rfl, rfl⟩,
    ⟨offered_idleWith rfl, rfl, rfl⟩, ⟨offered_idleWith rfl, yields_all⟩,
    ⟨offered_idleWith rfl, yields_all, yields_all⟩, rfl⟩

theorem witness_PollDecidesWouldBlock_high :
    Offered .retrieve [] (idleWith true M2 0x0C#5 [.ok] [.level .high] 0) ∧
    (idleWith true M2 0x0C#5 [.ok] [.level .high] 0).own = true ∧
    nextWrite (idleWith true M2 0x0C#5 [.ok] [.level .high] 0).writeAns = some (.ok, only []) ∧
    nextRead (idleWith true M2 0x0C#5 [.ok] [.level .high] 0).readAns = some (.level .high, only []) :=
  ⟨offered_idleWith rfl, rfl, rfl, rfl⟩

theorem witness_PollDecidesWouldBlock_low :
    Offered .retrieve [] (idleWith true M2 0x0C#5 [.ok] [.level .low] 0) ∧
    (idleWith true M2 0x0C#5 [.ok] [.level .low] 0).own = true ∧
    nextWrite (idleWith true M2 0x0C#5 [.ok] [.level .low] 0).writeAns = some (.ok, only []) ∧
    nextRead (idleWith true M2 0x0C#5 [.ok] [.level .low] 0).readAns = some (.level .low, only []) :=
  ⟨offered_idleWith rfl, rfl, rfl, rfl⟩

theorem witness_PollDecidesWouldBlock_only :
    ∃ t, step (busy .retrieve .gRdy 0 M3 [] [.level .high] 0) = .next t ∧
      t.rsp = some .wouldBlock := ⟨_, rfl, rfl⟩

/-- The samples of the source's scenario, 0xFFFFF3 (95_test_vectors.md S10). -/
def samples : List Level :=
  List.replicate 20 .high ++ [.low, .low, .high, .high]

/-- The source's scenario, in Mode `m`. -/
def scenario (w : CmdWord) (m : ModeBits) (k : Nat) (n : ModeBits) : State :=
  idleWith true m w (List.replicate (k + 49 + 2 * n.toNat) .ok)
    (List.replicate k (.level .high) ++ .level .low :: samples.map .level) (49 + 2 * n.toNat)

/-- S10 itself, Mode M3 (RetrieveReturnsTheSample and RetrieveRequestCounts). -/
theorem witness_RetrieveReturnsTheSample :
    Offered .retrieve [] (scenario 0x0C#5 M3 0 M3) ∧ (scenario 0x0C#5 M3 0 M3).own = true ∧
    (scenario 0x0C#5 M3 0 M3).mode ≠ 0b00#2 ∧ samples.length = 24 ∧
    Yields nextWrite (scenario 0x0C#5 M3 0 M3).writeAns
      (List.replicate (49 + 2 * (scenario 0x0C#5 M3 0 M3).mode.toNat) .ok) (only []) ∧
    Yields nextRead (scenario 0x0C#5 M3 0 M3).readAns (.level .low :: samples.map .level)
      (only []) ∧
    Yields nextDelay (scenario 0x0C#5 M3 0 M3).delayAns
      (List.replicate (49 + 2 * (scenario 0x0C#5 M3 0 M3).mode.toNat) ()) (only []) :=
  ⟨offered_idleWith rfl, rfl, by decide, rfl, yields_all, yields_all, yields_all⟩

/-- S10: what the scenario's samples are worth. -/
theorem test_samples_value : msbFirst samples = 0xFFFFF3 ∧
    extend24 (BitVec.ofNat 24 (msbFirst samples)) = 0xFFFFFFF3#32 := by decide

theorem witness_RetrieveAlwaysEnds :
    Offered .retrieve [] (ready 0x0C#5) ∧ (ready 0x0C#5).own = true ∧
    (ready 0x0C#5).mode ≠ 0b00#2 ∧ YieldsAtLeast nextWrite 55 (ready 0x0C#5).writeAns ∧
    YieldsAtLeast nextRead 25 (ready 0x0C#5).readAns ∧
    YieldsAtLeast nextDelay 55 (ready 0x0C#5).delayAns :=
  ⟨offered_ready rfl, rfl, by decide, yieldsAtLeast_listed (by decide),
    yieldsAtLeast_listed (by decide), yieldsAtLeast_listed (by decide)⟩

/-- V51: from Mode M1, two polls in vain. -/
theorem witness_SetModeRunsOneFrame :
    Offered (.setMode M3) [] (scenario 0x13#5 M1 2 M3) ∧ (scenario 0x13#5 M1 2 M3).own = true ∧
    M3 ≠ 0b00#2 ∧ samples.length = 24 ∧
    Yields nextWrite (scenario 0x13#5 M1 2 M3).writeAns
      (List.replicate (2 + 49 + 2 * M3.toNat) .ok) (only []) ∧
    Yields nextRead (scenario 0x13#5 M1 2 M3).readAns
      (List.replicate 2 (.level .high) ++ .level .low :: samples.map .level) (only []) ∧
    Yields nextDelay (scenario 0x13#5 M1 2 M3).delayAns
      (List.replicate (49 + 2 * M3.toNat) ()) (only []) :=
  ⟨offered_idleWith rfl, rfl, by decide, rfl, yields_all, yields_all, yields_all⟩

theorem witness_SetModePollsForever :
    Offered (.setMode M2) []
      (idleWith true M1 0x12#5 (List.replicate 3 .ok) (List.replicate 3 (.level .high)) 0) ∧
    M2 ≠ 0b00#2 ∧
    Yields nextWrite (only (List.replicate 3 .ok)) (List.replicate 3 .ok) (only []) ∧
    Yields nextRead (only (List.replicate 3 (.level .high))) (List.replicate 3 (.level .high))
      (only []) :=
  ⟨offered_idleWith rfl, by decide, yields_all, yields_all⟩

/-- An environment that answers every write with ok and every read with high, for ever. -/
def busyLines (own : Bool) (cmds : List CmdWord) : State :=
  { State.reset with
    own := own, mode := M1, cmds := cmds
    writeAns := ⟨[], .always .ok⟩, readAns := ⟨[], .always (.level .high)⟩ }

theorem witness_SetModeNeverEnds :
    Offered (.setMode M2) [0x0C#5] (busyLines true [0x12#5, 0x0C#5]) ∧
    (busyLines true [0x12#5, 0x0C#5]).own = true ∧ M2 ≠ 0b00#2 ∧
    YieldsForever nextWrite .ok (busyLines true [0x12#5, 0x0C#5]).writeAns ∧
    YieldsForever nextRead (.level .high) (busyLines true [0x12#5, 0x0C#5]).readAns :=
  ⟨⟨rfl, rfl, _, rfl, rfl⟩, rfl, by decide, yieldsForever_always, yieldsForever_always⟩

/-- V54: the first write of a SET_MODE faults. -/
theorem witness_SetModeStoresModeFirst :
    Offered (.setMode M3) [] (idleWith true M1 0x13#5 [.fault err] [] 0) ∧ M3 ≠ 0b00#2 ∧
    ∃ t, Host.Core.run core (1 + 1) (idleWith true M1 0x13#5 [.fault err] [] 0) = .next t ∧
      t.cmds = [] ∧ t.rsp = some (.fault err) :=
  ⟨offered_idleWith rfl, by decide, _, rfl, rfl, rfl⟩

theorem witness_SetModeStoresModeFirst_fault :
    WriteAnswered (busy .setMode .gLow 0 M3 [.fault err] [] 0) .low (.fault err) ∧
    (busy .setMode .gLow 0 M3 [.fault err] [] 0).seq.op = .setMode ∧
    (busy .setMode .gRdy 0 M3 [] [.fault err] 0).seq.op ∈ phaseOps .gRdy ∧
    (busy .setMode .gRdy 0 M3 [] [.fault err] 0).request = some .lineRead ∧
    nextRead (busy .setMode .gRdy 0 M3 [] [.fault err] 0).readAns = some (.fault err, only []) :=
  ⟨⟨by decide, rfl, rfl, rfl⟩, rfl, by decide, rfl, rfl⟩

/-- The engine shows no response, then WouldBlock, then a sample. -/
theorem witness_HostProgramRuns :
    (∃ t, step (ready 0x0C#5) = .next t ∧ t.rsp = none) ∧
    (∃ t, step (busy .retrieve .gRdy 0 M1 [] [.level .high] 0) = .next t ∧
      t.rsp = some .wouldBlock ∧ AsmLine.command .retrieve = .command .retrieve) ∧
    (∃ t r, step lastPulse = .next t ∧ t.rsp = some r ∧ r ≠ .wouldBlock) :=
  ⟨⟨_, rfl, rfl⟩, ⟨_, rfl, rfl, rfl⟩, _, _, rfl, rfl, by simp⟩

/-- R94: a plain RETRIEVE is over at WouldBlock, RETRIEVE_BLOCKING is not. -/
theorem test_host_retries :
    (HostRun.receive ⟨lastPulse, [], some (.command .retrieve)⟩
      { lastPulse with rsp := some .wouldBlock }).finished = true ∧
    (HostRun.receive ⟨lastPulse, [], some .retrieveBlocking⟩
      { lastPulse with rsp := some .wouldBlock }).engine.cmds = [0x0C#5] := by decide

/-- Two polls in vain, in Mode M3, with a line behind. -/
theorem witness_RetrieveBlockingRetries :
    { scenario 0x0C#5 M3 2 M3 with cmds := [] }.seq.phase = .idle ∧
    { scenario 0x0C#5 M3 2 M3 with cmds := [] }.rstPin = [] ∧
    { scenario 0x0C#5 M3 2 M3 with cmds := [] }.own = true ∧
    { scenario 0x0C#5 M3 2 M3 with cmds := [] }.mode ≠ 0b00#2 ∧ samples.length = 24 ∧
    Yields nextWrite (scenario 0x0C#5 M3 2 M3).writeAns
      (List.replicate (2 + 49 + 2 * (scenario 0x0C#5 M3 2 M3).mode.toNat) .ok) (only []) ∧
    Yields nextRead (scenario 0x0C#5 M3 2 M3).readAns
      (List.replicate 2 (.level .high) ++ .level .low :: samples.map .level) (only []) ∧
    Yields nextDelay (scenario 0x0C#5 M3 2 M3).delayAns
      (List.replicate (49 + 2 * (scenario 0x0C#5 M3 2 M3).mode.toNat) ()) (only []) :=
  ⟨rfl, rfl, rfl, by decide, rfl, yields_all, yields_all, yields_all⟩

theorem witness_RetrieveBlockingMayNeverEnd :
    (busyLines true []).seq.phase = .idle ∧ (busyLines true []).rstPin = [] ∧
    (busyLines true []).cmds = [] ∧ (busyLines true []).own = true ∧
    YieldsForever nextWrite .ok (busyLines true []).writeAns ∧
    YieldsForever nextRead (.level .high) (busyLines true []).readAns :=
  ⟨rfl, rfl, rfl, rfl, yieldsForever_always, yieldsForever_always⟩

end Sys2Proof.Tests
end

section
/-!
SUPPORT. The engine in any build (spec/00_scope.md R10, R12): where a build runs a command as this
hardware does, the rows where its delay is its parameter, and the statement that the parameters move
nothing else.
-/

namespace Sys2Proof.Machine

/-- The command's operation is one the build `p` has (R10). -/
def presentIn (p : Params) : Instr → Bool
  | .reset => p.hasReset
  | .destroy => p.hasDestroy
  | .new => true
  | .enable => true
  | .disable => true
  | .retrieve => true
  | .setMode _ => true
  | .reservedOp7 _ => true
  | .reservedSetMode0 => true

/-- The phases that ask for a delay (R31). -/
def asksDelay : Phase → Bool
  | .dHold | .gSetup | .bWaitH | .bWaitL | .tWaitH | .tWaitL => true
  | _ => false

variable {p q : Params} {i : Instr} {s t : State} {w : CmdWord}

/-! ### The request of a phase -/

theorem asksDelay_of_phaseRequestIn {ph : Phase} {n : Nat}
    (h : phaseRequestIn p ph = some (.delay n)) : asksDelay ph = true := by
  cases ph <;> simp_all [phaseRequestIn, asksDelay]

theorem phaseRequestIn_of_asksDelay {ph : Phase} (h : asksDelay ph = true) :
    ∃ n, phaseRequestIn p ph = some (.delay n) := by
  cases ph <;> simp_all [phaseRequestIn, asksDelay]

/-- A phase that asks for no delay asks the same in every build. -/
theorem phaseRequestIn_eq {ph : Phase} (h : asksDelay ph = false) :
    phaseRequestIn p ph = phaseRequest ph := by
  cases ph <;> simp_all [asksDelay, phaseRequest, phaseRequestIn]

/-! ### A command in a build -/

theorem presentIn_congr (hr : opOf i = .reset → p.hasReset = q.hasReset)
    (hd : opOf i = .destroy → p.hasDestroy = q.hasDestroy) :
    presentIn p i = presentIn q i := by
  cases i with
  | reset => exact hr rfl
  | destroy => exact hd rfl
  | _ => rfl

theorem execIn_absent (h : presentIn p i = false) :
    execIn p i s = .refused .absentOperation := by
  cases i <;> simp_all [presentIn, execIn]

/-- A command in a row that asks for a delay takes that row, with the build's delay. -/
theorem execIn_delay_row {n : Nat} (ho : opOf i ∈ phaseOps s.seq.phase)
    (hq : phaseRequestIn p s.seq.phase = some (.delay n)) :
    execIn p i s = .next (delay n (rowGood i s.seq.phase .low) s) := by
  have hd := asksDelay_of_phaseRequestIn hq
  cases i <;> cases h : s.seq.phase <;> simp [h, asksDelay, phaseOps, opOf] at hd ho
  -- What is left are the rows of DISABLE, RETRIEVE and SET_MODE that ask for a delay.
  all_goals
    rw [h] at hq
    cases hq
    simp only [execIn, execDisableIn, execRetrieveIn, execSetModeIn, h, phaseGSetup, phaseBWaitH,
      phaseBWaitL, phaseTWaitH, phaseTWaitL, lastDataPulse, lastTrailingPulse, nextCount,
      beq_iff_eq]
    rfl

/-- Off the rows that ask for a delay a build that has the operation does what this hardware
does. -/
theorem execIn_eq_exec (hi : presentIn p i = true)
    (h : asksDelay s.seq.phase = true → opOf i ∉ phaseOps s.seq.phase) :
    execIn p i s = exec i s := by
  cases i <;> cases hp : s.seq.phase <;>
    simp_all [presentIn, asksDelay, phaseOps, opOf, execIn, exec, execDisable, execDisableIn,
      execRetrieve, execRetrieveIn, execSetMode, execSetModeIn]

/-! ### What is left when the numbers of the delays are erased -/

@[simp] theorem eraseDelays_modeValue : s.eraseDelays.modeValue = s.modeValue := rfl

theorem rowGood_eraseDelays (ph : Phase) (b : Level) :
    (rowGood i ph b s).eraseDelays = rowGood i ph b s.eraseDelays := by
  have hrespond (r : Response) : (s.respond r).eraseDelays = s.eraseDelays.respond r := by
    simp [State.eraseDelays, State.respond, Event.eraseDelay]
  cases ph with
  | nLow => simp [rowGood, State.eraseDelays, State.respond, Event.eraseDelay]
  | eLow => exact hrespond _
  | dHold => exact hrespond _
  | xLow => exact hrespond _
  | gRdy =>
    cases b with
    | low => rfl
    | high =>
      by_cases hi : i = .retrieve
      · simpa [rowGood, hi] using hrespond _
      · simp only [rowGood, hi, if_false]
        rfl
  | bWaitL =>
    simp only [rowGood, apply_ite State.eraseDelays, eraseDelays_seq]
    rfl
  | tWaitL =>
    by_cases hc : s.seq.cnt = s.modeValue.setWidth 5 - 1#5
    · simpa [rowGood, hc] using hrespond _
    · simp only [rowGood, eraseDelays_seq, eraseDelays_modeValue, hc, if_false]
      rfl
  | _ => rfl

theorem delay_row_eraseDelays (m n : Nat) (ph : Phase) (b : Level) :
    (delay m (rowGood i ph b) s).eraseDelays = (delay n (rowGood i ph b) s).eraseDelays := by
  rcases h : nextDelay s.delayAns with _ | ⟨_, rest⟩
  · rw [delay_waiting h, delay_waiting h]
  · rw [delay_done h, delay_done h, rowGood_eraseDelays, rowGood_eraseDelays]
    simp [State.eraseDelays]

theorem execIn_eraseDelays (h : presentIn p i = presentIn q i) :
    mapNext State.eraseDelays (execIn p i s) = mapNext State.eraseDelays (execIn q i s) := by
  cases hi : presentIn p i with
  | false => rw [execIn_absent hi, execIn_absent (h ▸ hi)]
  | true =>
    by_cases hr : asksDelay s.seq.phase = true ∧ opOf i ∈ phaseOps s.seq.phase
    · obtain ⟨hd, ho⟩ := hr
      obtain ⟨m, hm⟩ := phaseRequestIn_of_asksDelay (p := p) hd
      obtain ⟨n, hn⟩ := phaseRequestIn_of_asksDelay (p := q) hd
      rw [execIn_delay_row ho hm, execIn_delay_row ho hn, mapNext_next, mapNext_next,
        delay_row_eraseDelays]
    · rw [execIn_eq_exec hi (fun hd ho => hr ⟨hd, ho⟩),
        execIn_eq_exec (h ▸ hi) (fun hd ho => hr ⟨hd, ho⟩)]

/-! ### The decoder of a build -/

/-- Builds that agree on the operation of a word, if it is an optional one, decode it alike. -/
theorem decodeIn_congr (hr : opField w = 0b101#3 → p.hasReset = q.hasReset)
    (hd : opField w = 0b110#3 → p.hasDestroy = q.hasDestroy) : decodeIn p w = decodeIn q w := by
  by_cases h5 : opField w = 0b101#3
  · simp [decodeIn, h5, hr h5]
  · by_cases h6 : opField w = 0b110#3
    · simp [decodeIn, h6, hd h6]
    · simp [decodeIn, h5, h6]

theorem decodeIn_absent (h : (p.hasReset = false ∧ opField w = 0b101#3) ∨
    (p.hasDestroy = false ∧ opField w = 0b110#3)) : decodeIn p w = .error .absentOperation := by
  rcases h with ⟨h, hw⟩ | ⟨h, hw⟩ <;> simp [decodeIn, h, hw]

theorem presentIn_of_decodeIn (h : decodeIn p w = .ok i) : presentIn p i = true := by
  unfold decodeIn at h
  split_ifs at h <;> cases h <;> simp_all [presentIn]

/-! ### A step in a build -/

theorem stepIn_continues (hr : s.rstNow = false) (hp : s.seq.phase ≠ .idle)
    (hi : s.inProgress = some i) : stepIn p s = execIn p i s.tick := by
  simp [stepIn, nextActionIn, Action.take, hr, hp, hi]

theorem stepIn_refuses {ws : List CmdWord} {e : DecodeReject} (hr : s.rstNow = false)
    (hp : s.seq.phase = .idle) (hc : s.cmds = w :: ws) (hd : decodeIn p w = .error e) :
    stepIn p s = .refused .absentOperation := by
  simp [stepIn, nextActionIn, Action.take, hr, hp, hc, hd]

/-- The action depends on the build through the decoding of the next word alone. -/
theorem nextActionIn_congr (h : ∀ w ws, s.cmds = w :: ws → decodeIn p w = decodeIn q w) :
    nextActionIn p s = nextActionIn q s := by
  cases hc : s.cmds with
  | nil => simp [nextActionIn, hc]
  | cons w ws => simp [nextActionIn, hc, h w ws hc]

/-- A command that runs was decoded, so that the build has it, or is in progress. -/
theorem presentIn_of_run (h : nextActionIn p s = .run i t) :
    presentIn p i = true ∨ s.inProgress = some i := by
  unfold nextActionIn at h
  split at h
  · cases h
  · split at h
    · split at h
      · cases h
      · split at h
        · cases h
          exact .inl (presentIn_of_decodeIn ‹_›)
        · cases h
    · split at h
      · cases h
        exact .inr ‹_›
      · cases h

/-- Two builds that agree on the optional commands concerned take the same step up to the numbers of
the delays. -/
theorem stepIn_eraseDelays (hr : Concerns .reset 0b101#3 s → p.hasReset = q.hasReset)
    (hd : Concerns .destroy 0b110#3 s → p.hasDestroy = q.hasDestroy) :
    mapNext State.eraseDelays (stepIn p s) = mapNext State.eraseDelays (stepIn q s) := by
  have hact : nextActionIn p s = nextActionIn q s := nextActionIn_congr fun w ws hc =>
    decodeIn_congr (fun hw => hr (.inr ⟨w, ws, hc, hw⟩)) (fun hw => hd (.inr ⟨w, ws, hc, hw⟩))
  unfold stepIn
  rw [← hact]
  cases ha : nextActionIn p s with
  | run i t =>
    apply execIn_eraseDelays
    by_cases hi : s.inProgress = some i
    · have hop := inProgress_opOf hi
      exact presentIn_congr (fun h => hr (.inl (hop ▸ h))) (fun h => hd (.inl (hop ▸ h)))
    · rw [(presentIn_of_run ha).resolve_right hi, (presentIn_of_run (hact ▸ ha)).resolve_right hi]
  | stay t => rfl
  | refuse r => rfl
  | stop f => rfl

/-- A completed delay of a phase is recorded with the build's number. -/
theorem stepIn_delay {n : Nat} {d : Answers Unit} (ho : s.seq.op ∈ phaseOps s.seq.phase)
    (hr : s.rstNow = false) (hq : phaseRequestIn p s.seq.phase = some (.delay n))
    (hd : nextDelay s.delayAns = some ((), d)) :
    ∃ t, stepIn p s = .next t ∧ t.delayAns = d ∧
      requests t.trace = requests s.trace ++ [.delay n] := by
  have hp : s.seq.phase ≠ .idle := fun hp => by simp [hp, phaseRequestIn] at hq
  obtain ⟨i, hi, hop, -⟩ := step_row ho hp hr
  have hrow : execIn p i s.tick = .next (delay n (rowGood i s.seq.phase .low) s.tick) :=
    execIn_delay_row (s := s.tick) (by rwa [hop]) hq
  rw [stepIn_continues hr hp hi, hrow, delay_done (s := s.tick) hd]
  exact ⟨_, rfl, by simp, by rw [rowGood_requests]; simp [requests, Event.isRequest]⟩

theorem stepIn_params (s : State) : stepIn Config.params s = step s := by
  have hrun : execIn Config.params = exec := funext fun i => funext fun s => execIn_params i s
  unfold stepIn step nextAction
  rw [hrun]

/-- Settles O28: clause by clause from the lemmas on a build's requests, its commands, its decoder
and its steps. -/
theorem buildParametersMoveDelaysOnly : Obligations.BuildParametersMoveDelaysOnly := by
  refine ⟨stepIn_params, fun p => ⟨rfl, rfl, rfl, rfl, rfl, rfl⟩, fun p ph h => ?_,
    fun p s n d ho hr hq hd => stepIn_delay ho hr hq hd,
    fun p q s hr hd => stepIn_eraseDelays hr hd,
    fun p s w ws hr hp hc h => stepIn_refuses hr hp hc (decodeIn_absent h)⟩
  refine phaseRequestIn_eq (Bool.eq_false_iff.mpr fun hd => ?_)
  obtain ⟨n, hn⟩ := phaseRequestIn_of_asksDelay (p := Config.params) hd
  exact h n hn

end Sys2Proof.Machine
end

section
/-!
SUPPORT. What a step sees of an environment (spec/20_memory.md R65): the next answer to the request
it asks. The answers still to come are taken together (`Channels`); a step on any channels is a
function of that one answer, on the channels left when it is taken (`exists_stepOnChannels`).
-/

namespace Sys2Proof.Machine

/-! ### The three channels together -/

/-- The answers still to come on the three channels. -/
structure Channels where
  write : Answers WriteAnswer
  read : Answers ReadAnswer
  delay : Answers Unit

def State.channels (s : State) : Channels := ⟨s.writeAns, s.readAns, s.delayAns⟩

def State.withChannels (c : Channels) (s : State) : State :=
  { s with writeAns := c.write, readAns := c.read, delayAns := c.delay }

/-- What a channel holds once its next answer, if there is one, is taken. -/
def Answers.rest {α : Type} (next : Answers α → Option (α × Answers α)) (o : Answers α) :
    Answers α :=
  ((next o).map Prod.snd).getD o

/-- The answer to a request as the event it makes; `none`: it has not come, or nothing is asked. -/
def Channels.answer (c : Channels) : Option Request → Option Event
  | none => none
  | some (.lineWrite l) => ((nextWrite c.write).map Prod.fst).map (.lineWrite l)
  | some .lineRead => ((nextRead c.read).map Prod.fst).map .lineRead
  | some (.delay n) => ((nextDelay c.delay).map Prod.fst).map fun _ => .delay n

/-- The channels once the answer to a request is taken. -/
def Channels.left (c : Channels) : Option Request → Channels
  | none => c
  | some (.lineWrite _) => { c with write := c.write.rest nextWrite }
  | some .lineRead => { c with read := c.read.rest nextRead }
  | some (.delay _) => { c with delay := c.delay.rest nextDelay }

/-- The request a step asks: none while `rst` is high (log 8). -/
def State.asks (s : State) : Option Request := if s.rstNow then none else s.request

variable {s : State} {i : Instr} {c c' : Channels} {r : Request}

@[simp] theorem withChannels_request : (s.withChannels c).request = s.request := rfl
@[simp] theorem withChannels_writeAns : (s.withChannels c).writeAns = c.write := rfl
@[simp] theorem withChannels_readAns : (s.withChannels c).readAns = c.read := rfl
@[simp] theorem withChannels_delayAns : (s.withChannels c).delayAns = c.delay := rfl

theorem asks_eq_some : s.asks = some r ↔ s.rstNow = false ∧ s.request = some r := by
  cases h : s.rstNow <;> simp [State.asks, h]

/-- A step in a phase that asks `r` asks nothing else. -/
theorem asks_of_request (h : s.request = some r) : s.asks = none ∨ s.asks = some r := by
  cases hr : s.rstNow <;> simp [State.asks, hr, h]

/-! ### Revealing the next answer -/

section Reveal

variable {α : Type} {draw : Nat → Option α} {o : Answers α}

theorem reveal_of_next_none (h : Answers.next draw o = none) :
    o.reveal (Answers.next draw) = o := by
  simp [Answers.reveal, h]

theorem next_fst_reveal :
    (Answers.next draw (o.reveal (Answers.next draw))).map Prod.fst =
      (Answers.next draw o).map Prod.fst := by
  rw [next_reveal]

theorem rest_reveal :
    (o.reveal (Answers.next draw)).rest (Answers.next draw) = o.rest (Answers.next draw) := by
  unfold Answers.rest
  rw [next_reveal]
  cases h : Answers.next draw o with
  | none => simp [reveal_of_next_none h]
  | some a => rfl

end Reveal

/-! ### The event of a command, given its answer -/

/-- What one event of the command `i` makes of the state, the channels aside, when it is answered
as `a` says. -/
def rowResult (i : Instr) (a : Option Event) (s : State) : State :=
  match a with
  | some (.lineWrite l .ok) =>
    rowGood i s.seq.phase .low { s with sck := l, trace := s.trace ++ [.lineWrite l .ok] }
  | some (.lineWrite l (.fault e)) =>
    State.raiseLineFault e
      { s with
        sck := Config.freeLevel s.draws, draws := s.draws + 1
        trace := s.trace ++ [.lineWrite l (.fault e)] }
  | some (.lineRead (.level b)) =>
    rowGood i s.seq.phase b { s with trace := s.trace ++ [.lineRead (.level b)] }
  | some (.lineRead (.fault e)) =>
    State.raiseLineFault e { s with trace := s.trace ++ [.lineRead (.fault e)] }
  | some (.delay n) => rowGood i s.seq.phase .low { s with trace := s.trace ++ [.delay n] }
  | _ => s

/-- A row neither reads nor writes the channels. -/
theorem rowGood_withChannels (ph : Phase) (b : Level) :
    rowGood i ph b (s.withChannels c) = (rowGood i ph b s).withChannels c := by
  cases ph with
  | gRdy =>
    cases b with
    | low => rfl
    | high => by_cases hi : i = .retrieve <;> simp only [rowGood, hi, if_true, if_false] <;> rfl
  | bWaitL =>
    simp only [rowGood, apply_ite (State.withChannels c)]
    rfl
  | tWaitL =>
    simp only [rowGood, apply_ite (State.withChannels c)]
    rfl
  | _ => rfl

theorem lineWrite_withChannels (l : Level) :
    lineWrite l (rowGood i s.seq.phase .low) (s.withChannels c) =
      (rowResult i (c.answer (some (.lineWrite l))) s).withChannels
        (c.left (some (.lineWrite l))) := by
  rcases h : nextWrite c.write with _ | ⟨_ | e, rest⟩ <;>
    simp only [lineWrite, withChannels_writeAns, Channels.answer, Channels.left, Answers.rest, h]
  · rfl
  · exact rowGood_withChannels (c := { c with write := rest })
      (s := { s with sck := l, trace := s.trace ++ [.lineWrite l .ok] }) ..
  · rfl

theorem lineRead_withChannels :
    lineRead (rowGood i s.seq.phase) (s.withChannels c) =
      (rowResult i (c.answer (some .lineRead)) s).withChannels (c.left (some .lineRead)) := by
  rcases h : nextRead c.read with _ | ⟨b | e, rest⟩ <;>
    simp only [lineRead, withChannels_readAns, Channels.answer, Channels.left, Answers.rest, h]
  · rfl
  · exact rowGood_withChannels (c := { c with read := rest })
      (s := { s with trace := s.trace ++ [.lineRead (.level b)] }) ..
  · rfl

theorem delay_withChannels (n : Nat) :
    delay n (rowGood i s.seq.phase .low) (s.withChannels c) =
      (rowResult i (c.answer (some (.delay n))) s).withChannels (c.left (some (.delay n))) := by
  rcases h : nextDelay c.delay with _ | ⟨_, rest⟩ <;>
    simp only [delay, withChannels_delayAns, Channels.answer, Channels.left, Answers.rest, h]
  · rfl
  · exact rowGood_withChannels (c := { c with delay := rest })
      (s := { s with trace := s.trace ++ [.delay n] }) ..

/-- A row of the table on any channels: the outcome is that of the answer, on the channels left. -/
theorem rowStep_withChannels :
    rowStep i (s.withChannels c) =
      (rowResult i (c.answer s.request) s).withChannels (c.left s.request) := by
  unfold rowStep
  rw [withChannels_request]
  rcases s.request with _ | l | _ | n
  · rfl
  · exact lineWrite_withChannels (s := s) l
  · exact lineRead_withChannels (s := s)
  · exact delay_withChannels (s := s) n

/-! ### Where a command has no row -/

/-- Why an idle engine refuses a command that is not legal now (R84, R101). -/
def refusalOf : Instr → Refusal
  | .setMode m => if isMode m then .outsideLifetime else .reservedWord
  | .reservedOp7 _ => .reservedWord
  | .reservedSetMode0 => .reservedWord
  | .new => .outsideLifetime
  | .enable => .outsideLifetime
  | .disable => .outsideLifetime
  | .retrieve => .outsideLifetime
  | .reset => .outsideLifetime
  | .destroy => .outsideLifetime

theorem exec_illegal (hp : s.seq.phase = .idle) (hl : legalNow s.own i = false) :
    exec i s = .refused (refusalOf i) := by
  cases i with
  | setMode m =>
    cases hm : isMode m <;>
      simp_all [legalNow, refusalOf, exec, execSetMode, execSetModeIn, acceptOwned]
  | _ =>
    simp_all [legalNow, refusalOf, exec, execNew, execEnable, execDisable, execDisableIn,
      execRetrieve, execRetrieveIn, execReset, execDestroy, execReservedOp7,
      execReservedSetMode0, acceptOwned]

theorem exec_off_row (hi : opOf i ≠ .none) (hp : s.seq.phase ≠ .idle)
    (ho : opOf i ∉ phaseOps s.seq.phase) : exec i s = .fault .noSuchPhase := by
  cases i <;> cases h : s.seq.phase <;> simp_all [phaseOps, opOf, exec, execNew, execEnable,
    execDisable, execDisableIn, execRetrieve, execRetrieveIn, execSetMode, execSetModeIn, execReset,
    execDestroy]

theorem opOf_inProgress (h : s.inProgress = some i) : opOf i ≠ .none := by
  rw [inProgress_opOf h]
  intro ho
  simp [State.inProgress, ho] at h

/-! ### A step on any channels -/

theorem accepted_withChannels : accepted i (s.withChannels c) = (accepted i s).withChannels c := by
  cases i <;> rfl

theorem exec_idle_withChannels (hp : s.seq.phase = .idle) :
    exec i (s.withChannels c) = mapNext (State.withChannels c) (exec i s) := by
  cases hl : legalNow s.own i with
  | true =>
    rw [exec_idle hp hl, exec_idle (s := s.withChannels c) hp hl, accepted_withChannels,
      mapNext_next]
  | false =>
    rw [exec_illegal hp hl, exec_illegal (s := s.withChannels c) hp hl, mapNext_refused]

/-- A step of an idle engine takes no answer. -/
theorem step_idle_withChannels (hr : s.rstNow = false) (hp : s.seq.phase = .idle) :
    step (s.withChannels c) = mapNext (State.withChannels c) (step s) := by
  cases hc : s.cmds with
  | nil =>
    rw [step_waits_for_command hr hp hc, step_waits_for_command (s := s.withChannels c) hr hp hc]
    rfl
  | cons w ws =>
    cases hd : decode w with
    | error e =>
      rw [step_refuses hr hp hc hd, step_refuses (s := s.withChannels c) hr hp hc hd,
        mapNext_refused]
    | ok i =>
      rw [step_accepts hr hp hc hd, step_accepts (s := s.withChannels c) hr hp hc hd]
      exact exec_idle_withChannels (s := { s.tick with cmds := ws }) hp

/-- `F`, a function of the answer alone, is what the step from `s` does on any channels, which keep
what is left when the answer is taken. Whether it gives a next state does not depend on the
answer. -/
structure StepOnChannels (s : State) (F : Option Event → Host.Outcome State Fault Refusal) :
    Prop where
  step_eq : ∀ c, step (s.withChannels c) =
    mapNext (State.withChannels (c.left s.asks)) (F (c.answer s.asks))
  next_iff : ∀ a b, (∃ t, F a = .next t) → ∃ t, F b = .next t

/-- A step sees of the environment the answer to what it asks, and no more. -/
theorem exists_stepOnChannels (s : State) : ∃ F, StepOnChannels s F := by
  cases hr : s.rstNow with
  | true =>
    have ha : s.asks = none := by simp [State.asks, hr]
    refine ⟨fun _ => .next s.tick.takeRst, fun c => ?_, fun _ _ h => h⟩
    rw [ha, step_reset (s := s.withChannels c) hr]
    rfl
  | false =>
    have ha : s.asks = s.request := by simp [State.asks, hr]
    by_cases hp : s.seq.phase = .idle
    · have hq : s.request = none := by simp [State.request, hp, phaseRequest, phaseRequestIn]
      refine ⟨fun _ => step s, fun c => ?_, fun _ _ h => h⟩
      rw [ha, hq]
      exact step_idle_withChannels hr hp
    · cases hi : s.inProgress with
      | none =>
        exact ⟨fun _ => .fault .noSuchPhase, fun c => step_stops (s := s.withChannels c) hr hp hi,
          fun _ _ h => h⟩
      | some i =>
        have hstep (c : Channels) : step (s.withChannels c) = exec i (s.tick.withChannels c) :=
          step_continues (s := s.withChannels c) hr hp hi
        by_cases ho : opOf i ∈ phaseOps s.seq.phase
        · refine ⟨fun a => .next (rowResult i a s.tick), fun c => ?_, fun _ _ _ => ⟨_, rfl⟩⟩
          rw [hstep, exec_row (s := s.tick.withChannels c) ho hp, rowStep_withChannels, ha]
          rfl
        · refine ⟨fun _ => .fault .noSuchPhase, fun c => ?_, fun _ _ h => h⟩
          rw [hstep, exec_off_row (s := s.tick.withChannels c) (opOf_inProgress hi) hp ho]
          rfl

theorem mapNext_mapNext (g h : State → State) (x : Host.Outcome State Fault Refusal) :
    mapNext g (mapNext h x) = mapNext (fun t => g (h t)) x := by
  cases x <;> rfl

theorem mapNext_self (x : Host.Outcome State Fault Refusal) : mapNext (fun t => t) x = x := by
  cases x <;> rfl

theorem exists_mapNext_eq_next {g : State → State} {x : Host.Outcome State Fault Refusal} :
    (∃ t, mapNext g x = .next t) ↔ ∃ t, x = .next t := by
  cases x <;> simp

/-! ### Comparing two contents of the channels -/

/-- Channels with the same answer to what is asked give the same step, seen through `g` and `g'`, if
what is left on them looks the same through these. -/
theorem mapNext_step_congr {g g' : State → State} (ha : c.answer s.asks = c'.answer s.asks)
    (hl : ∀ t : State, g (t.withChannels (c.left s.asks)) = g' (t.withChannels (c'.left s.asks))) :
    mapNext g (step (s.withChannels c)) = mapNext g' (step (s.withChannels c')) := by
  obtain ⟨F, hF⟩ := exists_stepOnChannels s
  rw [hF.step_eq, hF.step_eq, mapNext_mapNext, mapNext_mapNext, ha]
  exact congrArg (mapNext · _) (funext hl)

/-- The phase asks `r`; then the step asks `r` or, while `rst` is high, nothing. -/
theorem mapNext_step_of_request {g : State → State} (hq : s.request = some r)
    (ha : c.answer (some r) = c'.answer (some r))
    (hl : ∀ t : State,
      g (t.withChannels (c.left (some r))) = g (t.withChannels (c'.left (some r))))
    (hw : ∀ t : State, g (t.withChannels c) = g (t.withChannels c')) :
    mapNext g (step (s.withChannels c)) = mapNext g (step (s.withChannels c')) := by
  apply mapNext_step_congr <;> rcases asks_of_request hq with h | h <;> rw [h]
  · rfl
  · exact ha
  · exact hw
  · exact hl

theorem step_congr_of_asks (hr : s.asks = some r) (ha : c.answer (some r) = c'.answer (some r))
    (hl : c.left (some r) = c'.left (some r)) :
    step (s.withChannels c) = step (s.withChannels c') := by
  rw [← mapNext_self (step (s.withChannels c)), ← mapNext_self (step (s.withChannels c'))]
  exact mapNext_step_congr (hr ▸ ha) fun t => by rw [hr, hl]

/-- Channels that differ, before and after, by `g` alone, where nothing is asked. -/
theorem step_frame {g : State → State} (ha : c'.answer s.asks = c.answer s.asks)
    (hl : ∀ t : State, t.withChannels (c'.left s.asks) = g (t.withChannels (c.left s.asks))) :
    step (s.withChannels c') = mapNext g (step (s.withChannels c)) := by
  rw [← mapNext_self (step (s.withChannels c'))]
  exact mapNext_step_congr ha hl

theorem exists_step_withChannels (h : ∃ t, step s = .next t) :
    ∃ t, step (s.withChannels c) = .next t := by
  obtain ⟨F, hF⟩ := exists_stepOnChannels s
  rw [show s = s.withChannels s.channels from rfl, hF.step_eq, exists_mapNext_eq_next] at h
  rw [hF.step_eq, exists_mapNext_eq_next]
  exact hF.next_iff _ _ h

section Unasked

variable {q : Option Request}

theorem write_unasked (h : ∀ l, q ≠ some (.lineWrite l)) (o : Answers WriteAnswer) :
    { c with write := o }.answer q = c.answer q ∧
      { c with write := o }.left q = { c.left q with write := o } := by
  rcases q with _ | l | _ | n
  case some.lineWrite => exact absurd rfl (h l)
  all_goals exact ⟨rfl, rfl⟩

theorem read_unasked (h : q ≠ some .lineRead) (o : Answers ReadAnswer) :
    { c with read := o }.answer q = c.answer q ∧
      { c with read := o }.left q = { c.left q with read := o } := by
  rcases q with _ | l | _ | n
  case some.lineRead => exact absurd rfl h
  all_goals exact ⟨rfl, rfl⟩

theorem delay_unasked (h : ∀ n, q ≠ some (.delay n)) (o : Answers Unit) :
    { c with delay := o }.answer q = c.answer q ∧
      { c with delay := o }.left q = { c.left q with delay := o } := by
  rcases q with _ | l | _ | n
  case some.delay => exact absurd rfl (h n)
  all_goals exact ⟨rfl, rfl⟩

/-- A request that is up only while `rst` is high is not asked. -/
theorem asks_ne (h : s.request = some r → s.rstNow = true) : s.asks ≠ some r := fun ha => by
  obtain ⟨hr, hq⟩ := asks_eq_some.mp ha
  simp [h hq] at hr

end Unasked

/-- Settles O15: each clause compares the step on two contents of one channel, which give the same
answer to what the step asks. -/
theorem stepSeesOnlyTheNextAnswer : Obligations.StepSeesOnlyTheNextAnswer := by
  refine ⟨fun s l o o' x hq ho => ?_, fun s o o' x hq ho => ?_, fun s n o o' x hq ho => ?_,
    fun s l hq hr => ?_, fun s hq hr => ?_, fun s n hq hr => ?_,
    fun s o h => ?_, fun s o h => ?_, fun s o h => ?_, fun s wa ra da h => ?_⟩
  · exact mapNext_step_of_request (c := { s.channels with write := o })
      (c' := { s.channels with write := o' }) hq (congrArg (Option.map _) ho)
      (fun _ => rfl) (fun _ => rfl)
  · exact mapNext_step_of_request (c := { s.channels with read := o })
      (c' := { s.channels with read := o' }) hq (congrArg (Option.map _) ho)
      (fun _ => rfl) (fun _ => rfl)
  · exact mapNext_step_of_request (c := { s.channels with delay := o })
      (c' := { s.channels with delay := o' }) hq (congrArg (Option.map _) ho)
      (fun _ => rfl) (fun _ => rfl)
  · exact step_congr_of_asks (c := { s.channels with write := s.writeAns.reveal nextWrite })
      (c' := s.channels) (asks_eq_some.mpr ⟨hr, hq⟩)
      (congrArg (Option.map _) next_fst_reveal)
      (congrArg (fun o => { s.channels with write := o }) rest_reveal)
  · exact step_congr_of_asks (c := { s.channels with read := s.readAns.reveal nextRead })
      (c' := s.channels) (asks_eq_some.mpr ⟨hr, hq⟩)
      (congrArg (Option.map _) next_fst_reveal)
      (congrArg (fun o => { s.channels with read := o }) rest_reveal)
  · exact step_congr_of_asks (c := { s.channels with delay := s.delayAns.reveal nextDelay })
      (c' := s.channels) (asks_eq_some.mpr ⟨hr, hq⟩)
      (congrArg (Option.map _) next_fst_reveal)
      (congrArg (fun o => { s.channels with delay := o }) rest_reveal)
  · obtain ⟨ha, hl⟩ := write_unasked (c := s.channels) (fun l => asks_ne (h l)) o
    exact step_frame ha fun t => by rw [hl]; rfl
  · obtain ⟨ha, hl⟩ := read_unasked (c := s.channels) (asks_ne h) o
    exact step_frame ha fun t => by rw [hl]; rfl
  · obtain ⟨ha, hl⟩ := delay_unasked (c := s.channels) (fun n => asks_ne (h n)) o
    exact step_frame ha fun t => by rw [hl]; rfl
  · exact exists_step_withChannels (c := ⟨wa, ra, da⟩) h

end Sys2Proof.Machine
end

section
/-!
SUPPORT. The clock line between the commands (spec/10_state.md R24, R25): a good row leaves the line at
its own write or, where it asks for no write, at the level the command has put there before; where the
command then ends, that level is high for DISABLE and low for the others.
-/

namespace Sys2Proof.Machine

variable {i : Instr} {ph : Phase} {b : Level} {l : Level} {s t : State}

/-! ### The level last driven -/

@[simp] theorem accepted_drivenLevel :
    drivenLevel (accepted i s).trace = drivenLevel s.trace := by
  cases i <;> simp [accepted, drivenStep]

@[simp] theorem rowGood_drivenLevel :
    drivenLevel (rowGood i ph b s).trace = drivenLevel s.trace := by
  cases ph <;> simp [rowGood, drivenStep] <;> (repeat' split) <;> simp [drivenStep]

/-- A row keeps SCK at the level last driven: its write drives the level it sets, a fault leaves the
level unknown, and nothing else touches the line. -/
theorem rowStep_keeps_sckDriven (h : SckIsDriven s) : SckIsDriven (rowStep i s) := by
  apply rowStep_rule
  case wait => exact fun _ => h
  case write => intro l rest _ _ k hk; simpa [drivenStep] using hk
  case writeFault => intro l e rest _ _ k hk; simp [drivenStep] at hk
  case read => intro b rest _ _ k hk; simpa using h k (by simpa [drivenStep] using hk)
  case readFault => intro e rest _ _ k hk; simpa using h k (by simpa [drivenStep] using hk)
  case wait_done => intro n rest _ _ k hk; simpa using h k (by simpa [drivenStep] using hk)

/-- Settles O23: by what the step was; `rst` leaves no level known, and acceptance drives none. -/
theorem stepKeepsSckDriven : Obligations.StepKeepsSckDriven := by
  intro s t h hs
  by_cases hp : s.seq.phase = .idle
  · rcases idle_step_cases hp hs with ⟨_, rfl⟩ | ⟨_, _, rfl⟩ | ⟨_, w, ws, i, _, _, _, rfl⟩
    · intro l hl
      simp [drivenStep] at hl
    · exact h
    · intro l hl
      simpa using h l (by simpa using hl)
  · rcases busy_step_cases hp hs with ⟨_, rfl⟩ | ⟨_, i, _, _, rfl⟩
    · intro l hl
      simp [drivenStep] at hl
    · exact rowStep_keeps_sckDriven (s := s.tick) h

/-! ### The level at the end of a command -/

/-- The level R25 gives the clock line after a command that did not end with Fault. -/
def idleLevel (op : Op) : Level := if op = .disable then .high else .low

/-- The level of the clock line once the request of a phase is answered well, where the command has
made a write by then. -/
def levelAfter (ph : Phase) : Option Level :=
  match phaseRequest ph with
  | some (.lineWrite l) => some l
  | _ => heldLevel ph

theorem levelAfter_write (h : phaseRequest ph = some (.lineWrite l)) : levelAfter ph = some l := by
  simp [levelAfter, h]

theorem levelAfter_no_write (h : ∀ l, phaseRequest ph ≠ some (.lineWrite l)) :
    levelAfter ph = heldLevel ph := by
  unfold levelAfter
  split
  · exact absurd ‹_› (h _)
  · rfl

/-- A row that ends its command leaves the clock line at the level of R25. -/
theorem levelAfter_of_rowGood_idle (ho : opOf i ∈ phaseOps ph) (hp : ph ≠ .idle)
    (h : (rowGood i ph b s).seq.phase = .idle) : levelAfter ph = some (idleLevel (opOf i)) := by
  have hframe (ho : opOf i ∈ [Op.retrieve, .setMode]) : idleLevel (opOf i) = .low := by
    rcases List.mem_pair.mp ho with ho | ho <;> rw [ho] <;> rfl
  cases ph with
  | idle => exact absurd rfl hp
  | nLow => rw [List.mem_singleton.mp ho]; rfl
  | eLow => rw [List.mem_singleton.mp ho]; rfl
  | dHold => rw [List.mem_singleton.mp ho]; rfl
  | xLow => rw [List.mem_singleton.mp ho]; rfl
  | gRdy => rw [hframe ho]; rfl
  | tWaitL => rw [hframe ho]; rfl
  | bWaitL => simp only [rowGood] at h; split at h <;> cases h
  | _ => cases h

/-- A row that ends its command records the response last. -/
theorem rowGood_trace_of_idle (hp : ph ≠ .idle) (h : (rowGood i ph b s).seq.phase = .idle) :
    ∃ r, (rowGood i ph b s).trace = s.trace ++ [.respond r] := by
  cases ph with
  | idle => exact absurd rfl hp
  | nLow => exact ⟨_, rfl⟩
  | eLow => exact ⟨_, rfl⟩
  | dHold => exact ⟨_, rfl⟩
  | xLow => exact ⟨_, rfl⟩
  | gRdy =>
    simp only [rowGood] at h ⊢
    split at h
    · cases h
    · split at h
      · exact ⟨.wouldBlock, by rw [if_pos ‹_›]; rfl⟩
      · cases h
  | bWaitL => simp only [rowGood] at h; split at h <;> cases h
  | tWaitL =>
    simp only [rowGood] at h ⊢
    split at h
    · exact ⟨_, by rw [if_pos ‹_›]; rfl⟩
    · cases h
  | _ => cases h

/-! ### The invariant of the clock line -/

/-- An engine that is un-owned, or busy, meets R25. -/
theorem idleClock_of_not (h : s.own = true → s.seq.phase ≠ .idle) : IdleClock s :=
  fun ho hp => absurd hp (h ho)

/-- R25 after the end of a command, from the level it leaves. -/
theorem idleClock_of_ended {op : Op} {r : Response} (he : lastEnded s.trace = some (op, r))
    (h : r.isFault = false → s.sck = idleLevel op) : IdleClock s := by
  intro _ _ op' r' he' hr
  cases he.symm.trans he'
  rw [h hr, idleLevel]
  exact ⟨fun hne => if_neg hne, fun heq => if_pos heq⟩

theorem lastEnded_respond (tr : List Event) (r : Response) :
    lastEnded (tr ++ [.respond r]) = some (pendingOp tr, r) := by
  simp [lastEnded_eq, endedStep, endedOf_current]

theorem raiseLineFault_idleClock (e : LineErr) : IdleClock (s.raiseLineFault e) :=
  idleClock_of_ended (lastEnded_respond s.trace (.fault e)) nofun

/-- A good row meets R25 when the line stands where the command has put it. -/
theorem rowGood_idleClock (ho : opOf i ∈ phaseOps ph) (hp : ph ≠ .idle)
    (hop : pendingOp s.trace = opOf i) (hl : ∀ l, levelAfter ph = some l → s.sck = l) :
    IdleClock (rowGood i ph b s) := by
  by_cases h : (rowGood i ph b s).seq.phase = .idle
  · obtain ⟨r, hr⟩ := rowGood_trace_of_idle hp h
    refine idleClock_of_ended (by rw [hr, lastEnded_respond, hop]) fun _ => ?_
    rw [rowGood_sck]
    exact hl _ (levelAfter_of_rowGood_idle ho hp h)
  · exact idleClock_of_not fun _ => h

/-- An engine that has just accepted a command is busy or, after DESTROY, un-owned. -/
theorem accepted_idleClock (hl : legalNow s.own i = true) : IdleClock (accepted i s) := by
  apply idleClock_of_not
  cases i with
  | reservedOp7 m => cases hl
  | reservedSetMode0 => cases hl
  | _ => simp [accepted]

/-- An event of a busy command meets R25: it waits in its phase, it faults, or its row is good. -/
theorem rowStep_idleClock (hi : EngineInv s) (hop : opOf i = s.seq.op) (hp : s.seq.phase ≠ .idle) :
    IdleClock (rowStep i s) := by
  have ho : opOf i ∈ phaseOps s.seq.phase := hop ▸ hi.row
  have hpend : pendingOp s.trace = opOf i := hi.pending.trans hop.symm
  have hheld (h : ∀ l, s.request ≠ some (.lineWrite l)) (l : Level)
      (hl : levelAfter s.seq.phase = some l) : s.sck = l :=
    hi.level l (levelAfter_no_write h ▸ hl)
  apply rowStep_rule
  case wait => exact fun _ => idleClock_of_not fun _ => hp
  case write =>
    intro l rest hq _
    refine rowGood_idleClock ho hp (by simpa [pendingStep] using hpend) fun k hk => ?_
    exact Option.some.inj ((levelAfter_write hq).symm.trans hk)
  case writeFault => exact fun _ e _ _ _ => raiseLineFault_idleClock e
  case read =>
    intro b rest hq _
    exact rowGood_idleClock ho hp (by simpa [pendingStep] using hpend) (hheld (by simp [hq]))
  case readFault => exact fun e _ _ _ => raiseLineFault_idleClock e
  case wait_done =>
    intro n rest hq _
    exact rowGood_idleClock ho hp (by simpa [pendingStep] using hpend) (hheld (by simp [hq]))

/-- The engine's invariant does not look at the response shown or at the reset pin. -/
theorem EngineInv.tick (h : EngineInv s) : EngineInv s.tick :=
  ⟨h.row, h.newUnowned, h.otherOwned, h.modeLegal, h.dataCount, h.trailingCount, h.level, h.pending⟩

/-- Settles O24: by what the step was; `rst` leaves the engine un-owned, and a row that ends its
command leaves the line where R25 has it. -/
theorem stepKeepsIdleClock : Obligations.StepKeepsIdleClock := by
  intro s t hi h hs
  by_cases hp : s.seq.phase = .idle
  · rcases idle_step_cases hp hs with ⟨_, rfl⟩ | ⟨_, _, rfl⟩ | ⟨_, w, ws, i, _, _, hl, rfl⟩
    · exact idleClock_of_not nofun
    · exact h
    · exact accepted_idleClock hl
  · rcases busy_step_cases hp hs with ⟨_, rfl⟩ | ⟨_, i, hc, _, rfl⟩
    · exact idleClock_of_not nofun
    · exact rowStep_idleClock hi.tick (inProgress_opOf hc) hp

end Sys2Proof.Machine
end

section
/-!
SUPPORT. Who writes and who reads the registers (spec/10_state.md R23, R27, R32): MODE and OWN are
written at acceptance and in the row of NEW, ACC and CNT in the rows of the frame, and MODE is read in
the row T_WAITL alone.
-/

namespace Sys2Proof.Machine

variable {i : Instr} {ph : Phase} {b : Level} {s t u : State} {x y : ModeBits}

/-! ### Which command has a row in which phase -/

theorem opOf_eq_new : opOf i = .new ↔ i = .new := by cases i <;> simp [opOf]

/-- The phases of the poll and of the frame have rows for RETRIEVE and SET_MODE alone. -/
theorem opOf_mem_frame :
    opOf i ∈ [Op.retrieve, .setMode] ↔ i = .retrieve ∨ ∃ m, i = .setMode m := by
  cases i <;> simp [opOf]

/-- The row N_LOW is NEW's. -/
theorem phase_ne_nLow (ho : opOf i ∈ phaseOps ph) (hi : i ≠ .new) : ph ≠ .nLow := by
  rintro rfl
  exact hi (opOf_eq_new.mp (List.mem_singleton.mp ho))

/-- DESTROY has no row: it ends when it is accepted. -/
theorem destroy_not_mem_phaseOps : opOf .destroy ∉ phaseOps ph := by
  cases ph <;> simp [opOf, phaseOps]

/-- With no command in progress the engine is idle. -/
theorem phase_idle_of_none (h : Op.none ∈ phaseOps ph) : ph = .idle := by
  cases ph <;> simp_all [phaseOps]

/-! ### What acceptance and a row write -/

theorem accepted_mode (h : ∀ m, i ≠ .setMode m) : (accepted i s).mode = s.mode := by
  cases i with
  | setMode m => exact absurd rfl (h m)
  | _ => rfl

theorem accepted_own (h : i ≠ .destroy) : (accepted i s).own = s.own := by
  cases i with
  | destroy => exact absurd rfl h
  | _ => rfl

/-- ACC is written by the rows G_SETUP, B_WAITH and B_SAMPLE. -/
theorem rowGood_acc (h1 : ph ≠ .gSetup) (h2 : ph ≠ .bWaitH) (h3 : ph ≠ .bSample) :
    (rowGood i ph b s).acc = s.acc := by
  cases ph with
  | gSetup => exact absurd rfl h1
  | bWaitH => exact absurd rfl h2
  | bSample => exact absurd rfl h3
  | gRdy => simp only [rowGood]; (repeat' split) <;> rfl
  | bWaitL => simp only [rowGood]; split <;> rfl
  | tWaitL => simp only [rowGood]; split <;> rfl
  | _ => rfl

/-- CNT is written by the rows G_SETUP, B_WAITL and T_WAITL. -/
theorem rowGood_cnt (h1 : ph ≠ .gSetup) (h2 : ph ≠ .bWaitL) (h3 : ph ≠ .tWaitL) :
    (rowGood i ph b s).seq.cnt = s.seq.cnt := by
  cases ph with
  | gSetup => exact absurd rfl h1
  | bWaitL => exact absurd rfl h2
  | tWaitL => exact absurd rfl h3
  | gRdy => simp only [rowGood]; (repeat' split) <;> rfl
  | _ => rfl

/-! ### What an event of a busy command writes -/

/-- What a request and its answer leave alone. -/
structure SameRegisters (s u : State) : Prop where
  mode : u.mode = s.mode
  own : u.own = s.own
  acc : u.acc = s.acc
  cnt : u.seq.cnt = s.seq.cnt
  cmds : u.cmds = s.cmds

/-- An event of a busy command writes no register, where it waits or faults, or it is the good row, on
a state with the same registers. -/
theorem rowStep_cases (i : Instr) (s : State) :
    SameRegisters s (rowStep i s) ∨
      ∃ b u, SameRegisters s u ∧ rowStep i s = rowGood i s.seq.phase b u := by
  apply rowStep_rule (P := fun t => SameRegisters s t ∨
    ∃ b u, SameRegisters s u ∧ t = rowGood i s.seq.phase b u)
  case wait => exact fun _ => .inl ⟨rfl, rfl, rfl, rfl, rfl⟩
  case writeFault => exact fun _ _ _ _ _ => .inl ⟨rfl, rfl, rfl, rfl, rfl⟩
  case readFault => exact fun _ _ _ _ => .inl ⟨rfl, rfl, rfl, rfl, rfl⟩
  -- What is left are the good rows.
  all_goals
    intros
    refine .inr ⟨_, _, ?_, rfl⟩
    exact ⟨rfl, rfl, rfl, rfl, rfl⟩

theorem rowStep_mode :
    (rowStep i s).mode = s.mode ∨ s.seq.phase = .nLow ∧ (rowStep i s).mode = M1 := by
  rcases rowStep_cases i s with h | ⟨b, u, hu, h⟩
  · exact .inl h.mode
  · rw [h, rowGood_mode, hu.mode]
    split
    · exact .inr ⟨‹_›, rfl⟩
    · exact .inl rfl

theorem rowStep_own :
    (rowStep i s).own = s.own ∨ s.seq.phase = .nLow ∧ (rowStep i s).own = true := by
  rcases rowStep_cases i s with h | ⟨b, u, hu, h⟩
  · exact .inl h.own
  · rw [h, rowGood_own, hu.own]
    split
    · exact .inr ⟨‹_›, rfl⟩
    · exact .inl rfl

theorem rowStep_acc (h1 : s.seq.phase ≠ .gSetup) (h2 : s.seq.phase ≠ .bWaitH)
    (h3 : s.seq.phase ≠ .bSample) : (rowStep i s).acc = s.acc := by
  rcases rowStep_cases i s with h | ⟨b, u, hu, h⟩
  · exact h.acc
  · rw [h, rowGood_acc h1 h2 h3, hu.acc]

theorem rowStep_cnt (h1 : s.seq.phase ≠ .gSetup) (h2 : s.seq.phase ≠ .bWaitL)
    (h3 : s.seq.phase ≠ .tWaitL) : (rowStep i s).seq.cnt = s.seq.cnt := by
  rcases rowStep_cases i s with h | ⟨b, u, hu, h⟩
  · exact h.cnt
  · rw [h, rowGood_cnt h1 h2 h3, hu.cnt]

theorem rowStep_cmds : (rowStep i s).cmds = s.cmds := by
  rcases rowStep_cases i s with h | ⟨b, u, hu, h⟩
  · exact h.cmds
  · rw [h, rowGood_cmds, hu.cmds]

/-! ### A row answered well -/

theorem exec_write {l : Level} {rest : Answers WriteAnswer} (hp : s.seq.phase = ph)
    (hq : phaseRequest ph = some (.lineWrite l)) (ho : opOf i ∈ phaseOps ph)
    (hw : nextWrite s.writeAns = some (.ok, rest)) :
    exec i s = .next (rowGood i ph .low
      { s with writeAns := rest, sck := l, trace := s.trace ++ [.lineWrite l .ok] }) := by
  subst hp
  have hq : s.request = some (.lineWrite l) := hq
  rw [exec_row ho (busy_of_request hq), rowStep, hq]
  exact congrArg _ (lineWrite_ok hw)

theorem exec_read {rest : Answers ReadAnswer} (hp : s.seq.phase = ph)
    (hq : phaseRequest ph = some .lineRead) (ho : opOf i ∈ phaseOps ph)
    (ha : nextRead s.readAns = some (.level b, rest)) :
    exec i s = .next (rowGood i ph b
      { s with readAns := rest, trace := s.trace ++ [.lineRead (.level b)] }) := by
  subst hp
  have hq : s.request = some .lineRead := hq
  rw [exec_row ho (busy_of_request hq), rowStep, hq]
  exact congrArg _ (lineRead_level ha)

theorem exec_delay {n : Nat} {rest : Answers Unit} (hp : s.seq.phase = ph)
    (hq : phaseRequest ph = some (.delay n)) (ho : opOf i ∈ phaseOps ph)
    (hd : nextDelay s.delayAns = some ((), rest)) :
    exec i s = .next (rowGood i ph .low
      { s with delayAns := rest, trace := s.trace ++ [.delay n] }) := by
  subst hp
  have hq : s.request = some (.delay n) := hq
  rw [exec_row ho (busy_of_request hq), rowStep, hq]
  exact congrArg _ (delay_done hd)

/-! ### ACC and CNT -/

/-- Settles O32: acceptance writes neither, and the rows that do are those of the frame. -/
theorem accAndCntWrittenInFrameOnly : Obligations.AccAndCntWrittenInFrameOnly := by
  intro i s t h
  rcases exec_next_cases h with ⟨_, _, rfl⟩ | ⟨_, ho, rfl⟩
  · simp
  · refine ⟨fun hr hm => ?_, rowStep_acc, rowStep_cnt⟩
    have hphase {p : Phase} (hf : phaseOps p = [.retrieve, .setMode]) : s.seq.phase ≠ p := by
      intro hp
      rw [hp, hf, opOf_mem_frame] at ho
      rcases ho with rfl | ⟨m, rfl⟩
      · exact hr rfl
      · exact hm m rfl
    exact ⟨rowStep_acc (hphase rfl) (hphase rfl) (hphase rfl),
      rowStep_cnt (hphase rfl) (hphase rfl) (hphase rfl)⟩

/-! ### OWN -/

/-- Settles O30: OWN is written at DESTROY's acceptance and in NEW's row, and an un-owned engine
without a NEW in progress is idle. -/
theorem ownWrittenByNewAndDestroyOnly : Obligations.OwnWrittenByNewAndDestroyOnly := by
  refine ⟨fun i s t h => ?_, fun s rest hp hw => ?_, fun s t hi hown hnew hs => ?_⟩
  · rcases exec_next_cases h with ⟨_, _, rfl⟩ | ⟨_, ho, rfl⟩
    · exact ⟨fun hn => .inr (accepted_own (by simp [hn])), fun hd => by rw [hd]; rfl,
        fun _ hd => accepted_own hd⟩
    · refine ⟨fun _ => ?_, fun hd => ?_, fun hn _ => ?_⟩
      · exact rowStep_own.symm.imp_left And.right
      · exact absurd (hd ▸ ho) destroy_not_mem_phaseOps
      · exact rowStep_own.resolve_right fun h => phase_ne_nLow ho hn h.1
  · exact ⟨_, exec_write hp rfl (by decide) hw, rfl, rfl⟩
  · have hnone : s.seq.op = .none := by
      by_contra hne
      simp [hi.otherOwned hne hnew] at hown
    have hp : s.seq.phase = .idle := phase_idle_of_none (hnone ▸ hi.row)
    rcases idle_step_cases hp hs with ⟨_, rfl⟩ | ⟨_, _, rfl⟩ | ⟨_, w, ws, i, _, _, _, rfl⟩
    · simp [requests, Event.isRequest]
    · rfl
    · exact accepted_requests ..

/-! ### MODE -/

/-- The state with `x` in the register MODE. -/
def State.withMode (x : ModeBits) (s : State) : State := { s with mode := x }

theorem accepted_withMode :
    (accepted i (s.withMode y)).withMode x = (accepted i s).withMode x := by
  cases i <;> rfl

/-- A row but T_WAITL does not read MODE. -/
theorem rowGood_withMode (h : ph ≠ .tWaitL) :
    (rowGood i ph b (s.withMode y)).withMode x = (rowGood i ph b s).withMode x := by
  cases ph with
  | tWaitL => exact absurd rfl h
  | gRdy =>
    cases b with
    | low => rfl
    | high => simp only [rowGood, apply_ite (State.withMode x)]; rfl
  | bWaitL => simp only [rowGood, apply_ite (State.withMode x)]; rfl
  | _ => rfl

theorem rowResult_withMode (a : Option Event) (h : s.seq.phase ≠ .tWaitL) :
    (rowResult i a (s.withMode y)).withMode x = (rowResult i a s).withMode x := by
  rcases a with _ | _ | ⟨l, _ | e⟩ | ⟨b | e⟩ | n | _ | _
  case some.lineWrite.ok =>
    exact rowGood_withMode (s := { s with sck := l, trace := s.trace ++ [.lineWrite l .ok] }) h
  case some.lineRead.level =>
    exact rowGood_withMode (s := { s with trace := s.trace ++ [.lineRead (.level b)] }) h
  case some.delay => exact rowGood_withMode (s := { s with trace := s.trace ++ [.delay n] }) h
  all_goals rfl

theorem rowStep_withMode (h : s.seq.phase ≠ .tWaitL) :
    (rowStep i (s.withMode y)).withMode x = (rowStep i s).withMode x := by
  have hs := rowStep_withChannels (i := i) (s := s) (c := s.channels)
  have hy := rowStep_withChannels (i := i) (s := s.withMode y) (c := s.channels)
  calc (rowStep i (s.withMode y)).withMode x
      = ((rowResult i (s.channels.answer s.request) (s.withMode y)).withMode x).withChannels
          (s.channels.left s.request) := congrArg (State.withMode x) hy
    _ = ((rowResult i (s.channels.answer s.request) s).withMode x).withChannels
          (s.channels.left s.request) := by rw [rowResult_withMode _ h]
    _ = (rowStep i s).withMode x := (congrArg (State.withMode x) hs).symm

/-- The reserved words give no next state anywhere (R84). -/
theorem exec_reserved (h : opOf i = .none) : exec i s = .refused .reservedWord := by
  cases i with
  | reservedOp7 m => rfl
  | reservedSetMode0 => rfl
  | _ => cases h

/-- No command reads MODE, but RETRIEVE and SET_MODE where they end a trailing pulse. -/
theorem exec_withMode (h : i = .retrieve ∨ (∃ m, i = .setMode m) → s.seq.phase ≠ .tWaitL) :
    mapNext (State.withMode x) (exec i (s.withMode y)) = mapNext (State.withMode x) (exec i s) := by
  by_cases hn : opOf i = .none
  · rw [exec_reserved hn, exec_reserved hn]
  by_cases hp : s.seq.phase = .idle
  · cases hl : legalNow s.own i with
    | true =>
      rw [exec_idle hp hl, exec_idle (s := s.withMode y) hp hl, mapNext_next, mapNext_next,
        accepted_withMode]
    | false => rw [exec_illegal hp hl, exec_illegal (s := s.withMode y) hp hl]
  · by_cases ho : opOf i ∈ phaseOps s.seq.phase
    · have ht : s.seq.phase ≠ .tWaitL := fun ht =>
        h (opOf_mem_frame.mp (show opOf i ∈ phaseOps .tWaitL from ht ▸ ho)) ht
      rw [exec_row ho hp, exec_row (s := s.withMode y) ho hp, mapNext_next, mapNext_next,
        rowStep_withMode ht]
    · rw [exec_off_row hn hp ho, exec_off_row (s := s.withMode y) hn hp ho]

/-- Settles O29: MODE is written at SET_MODE's acceptance and in NEW's row, and read in the row
T_WAITL. -/
theorem modeWrittenByNewAndSetModeOnly : Obligations.ModeWrittenByNewAndSetModeOnly := by
  refine ⟨fun i s t h => ?_, fun s rest hp hw => ?_, fun s m hp hown hm => ?_,
    fun i s x y h => exec_withMode h⟩
  · rcases exec_next_cases h with ⟨_, _, rfl⟩ | ⟨_, ho, rfl⟩
    · exact ⟨fun hn => .inl (accepted_mode (by simp [hn])), fun m hm => .inr (by rw [hm]; rfl),
        fun _ hm => accepted_mode hm⟩
    · have hkeep (hn : i ≠ .new) : (rowStep i s).mode = s.mode :=
        rowStep_mode.resolve_right fun h => phase_ne_nLow ho hn h.1
      exact ⟨fun _ => rowStep_mode.imp_right And.right, fun m hm => .inl (hkeep (by simp [hm])),
        fun hn _ => hkeep hn⟩
  · exact ⟨_, exec_write hp rfl (by decide) hw, rfl⟩
  · exact ⟨_, exec_idle hp (by simp [legalNow, hown, isMode, hm]), rfl⟩

end Sys2Proof.Machine
end

section
/-!
SUPPORT. The table of spec/10_state.md rule R31 row by row, from the one lemma on each kind of request
(`exec_write`, `exec_read`, `exec_delay`): what acceptance and each row make of the whole state.
-/

namespace Sys2Proof.Machine

variable {i : Instr} {m : ModeBits} {s : State}

/-! ### The constants, the reset state and the step -/

/-- Settles O40: the ports are wired to the published constants and to extend24. -/
theorem publishedConstants : Obligations.PublishedConstants :=
  ⟨rfl, by decide, rfl, by decide, fun _ => rfl⟩

/-- While OWN = 0 a well-formed command but NEW is refused as R101 says. -/
theorem exec_unowned (hw : i.wellFormed = true) (hi : i ≠ .new) (hp : s.seq.phase = .idle)
    (hown : s.own = false) : exec i s = .refused .outsideLifetime := by
  have hl : legalNow s.own i = false := by
    rw [hown]
    cases i with
    | new => exact absurd rfl hi
    | _ => rfl
  have hr : refusalOf i = .outsideLifetime := by
    cases i with
    | setMode m => exact if_pos hw
    | reservedOp7 m => cases hw
    | reservedSetMode0 => cases hw
    | _ => rfl
  rw [exec_illegal hp hl, hr]

/-- Settles O20: the reset state is idle and un-owned, so NEW is legal and nothing else is. -/
theorem resetStateTakesOnlyNew : Obligations.ResetStateTakesOnlyNew :=
  ⟨rfl, rfl, rfl, rfl, rfl, rfl, ⟨_, exec_idle rfl rfl⟩, fun _ hw hi => exec_unowned hw hi rfl rfl⟩

/-- Settles O26: a step is an acceptance, an event of the command in progress, or a wait. -/
theorem stepRunsDecodedCommand : Obligations.StepRunsDecodedCommand :=
  ⟨fun _ _ _ _ hr hp hc hd => step_accepts hr hp hc hd, fun _ _ hr hp hi => step_continues hr hp hi,
    fun _ hr hp hc => step_waits_for_command hr hp hc⟩

/-! ### Acceptance -/

theorem exec_destroy (hp : s.seq.phase = .idle) (hown : s.own = true) :
    exec .destroy s = .next
      { s with
        own := false, rsp := some .ok
        seq := { s.seq with op := .none, phase := .idle }
        trace := s.trace ++ [.accept .destroy, .respond .ok] } := by
  rw [exec_idle hp (by simpa [legalNow] using hown)]
  simp [accepted, State.respond]

/-- Settles O6: `accepted` command by command; a busy engine takes its row, which leaves the words
offered alone. -/
theorem acceptanceStartsCommand : Obligations.AcceptanceStartsCommand := by
  refine ⟨fun s hp hown => exec_idle hp (by simp [legalNow, hown]), fun s hp hown => ?_,
    fun s t hr hp hs => ?_⟩
  · exact ⟨exec_idle hp hown, exec_idle hp hown, exec_idle hp hown, exec_idle hp hown,
      fun m hm => exec_idle hp (by simp [legalNow, isMode, hown, hm]), exec_destroy hp hown⟩
  · rcases busy_step_cases hp hs with ⟨hr', _⟩ | ⟨_, i, _, _, rfl⟩
    · simp [hr] at hr'
    · exact rowStep_cmds

/-! ### NEW, DESTROY, ENABLE, DISABLE, RESET -/

/-- Settles O7: the row N_LOW on the answer ok, and DESTROY's acceptance. -/
theorem lifecycleRowsComplete : Obligations.LifecycleRowsComplete := by
  refine ⟨fun s rest hp hw => ?_, fun s hp hown => exec_destroy hp hown⟩
  rw [exec_write hp rfl (by decide) hw]
  simp [rowGood, State.respond]

/-- Settles O8: the rows that write, that read and that delay. -/
theorem powerRowsComplete : Obligations.PowerRowsComplete := by
  refine ⟨fun s rest hw => ⟨fun hp => ?_, fun hp => ?_, fun hp => ?_, fun hp => ?_⟩,
    fun s b rest ha => ⟨fun hp => ?_, fun hp => ?_⟩, fun s d hp hd => ?_⟩
  · rw [exec_write hp rfl (by decide) hw]
    simp [rowGood, State.respond]
  · exact exec_write hp rfl (by decide) hw
  · exact exec_write hp rfl (by decide) hw
  · rw [exec_write hp rfl (by decide) hw]
    simp [rowGood, State.respond]
  · exact exec_read hp rfl (by decide) ha
  · exact exec_read hp rfl (by decide) ha
  · rw [exec_delay hp rfl (by decide) hd]
    simp [rowGood, State.respond, Config.params]

/-! ### The poll and the end of the frame -/

theorem setMode_runsFrame : opOf (.setMode m) ∈ [Op.retrieve, .setMode] :=
  opOf_mem_frame.mpr (.inr ⟨m, rfl⟩)

/-- The last trailing pulse ends the command, with the sample for RETRIEVE. -/
theorem exec_lastPulse {d : Answers Unit} (ho : opOf i ∈ [Op.retrieve, .setMode])
    (hp : s.seq.phase = .tWaitL) (hd : nextDelay s.delayAns = some ((), d))
    (hc : s.seq.cnt.toNat + 1 = s.modeValue.toNat) :
    exec i s = .next (State.respond (if i = .retrieve then .okValue (extend24 s.acc) else .ok)
      { s with delayAns := d, trace := s.trace ++ [.delay 1] }) := by
  have hlast : s.seq.cnt = s.modeValue.setWidth 5 - 1#5 := (trailing_last_iff (by omega)).mpr hc
  rw [exec_delay hp rfl ho hd]
  exact congrArg _ (if_pos hlast)

/-- A trailing pulse before the last is followed by the next. -/
theorem exec_nextPulse {d : Answers Unit} (ho : opOf i ∈ [Op.retrieve, .setMode])
    (hp : s.seq.phase = .tWaitL) (hd : nextDelay s.delayAns = some ((), d))
    (hc : s.seq.cnt.toNat + 1 < s.modeValue.toNat) :
    exec i s = .next
      { s with
        delayAns := d, seq := { s.seq with cnt := s.seq.cnt + 1, phase := .tHigh }
        trace := s.trace ++ [.delay 1] } := by
  have hmore : s.seq.cnt ≠ s.modeValue.setWidth 5 - 1#5 := fun h => by
    have := (trailing_last_iff (by omega)).mp h
    omega
  rw [exec_delay hp rfl ho hd]
  exact congrArg _ (if_neg hmore)

/-- Settles O9: the poll's write and its two levels, then the end of a trailing pulse. -/
theorem retrieveRowsComplete : Obligations.RetrieveRowsComplete := by
  refine ⟨fun s rest hp hw => exec_write hp rfl (by decide) hw, fun s rest hp ha => ?_,
    fun s rest hp ha => exec_read hp rfl (by decide) ha,
    fun s d hp hd => ⟨fun hc => ?_, fun hc => exec_nextPulse (by decide) hp hd hc⟩⟩
  · rw [exec_read hp rfl (by decide) ha]
    simp [rowGood, State.respond]
  · rw [exec_lastPulse (by decide) hp hd hc]
    simp [State.respond]

/-- Settles O10: the same rows, where a high level polls again and the frame ends without a value. -/
theorem setModeRowsComplete : Obligations.SetModeRowsComplete := by
  intro m
  refine ⟨fun s rest hp hw => exec_write hp rfl setMode_runsFrame hw,
    fun s rest hp ha => exec_read hp rfl setMode_runsFrame ha,
    fun s rest hp ha => exec_read hp rfl setMode_runsFrame ha,
    fun s d hp hd => ⟨fun hc => ?_, fun hc => exec_nextPulse setMode_runsFrame hp hd hc⟩⟩
  rw [exec_lastPulse setMode_runsFrame hp hd hc]
  simp [State.respond]

/-! ### The frame -/

/-- Bit 0 of ACC takes the sampled level (R123). -/
theorem orSample_eq (a : Raw) (b : Level) :
    orSample a b = a ||| (if b = .high then 1#24 else 0#24) := by
  cases b <;> rfl

/-- Settles O11: the rows of the frame by their requests. -/
theorem frameRowsComplete : Obligations.FrameRowsComplete := by
  intro i s hi
  have ho : opOf i ∈ [Op.retrieve, .setMode] := opOf_mem_frame.mpr hi
  refine ⟨fun rest hw => ⟨fun hp => exec_write hp rfl ho hw, fun hp => exec_write hp rfl ho hw,
      fun hp => exec_write hp rfl ho hw, fun hp => exec_write hp rfl ho hw⟩,
    fun b rest ha hp => ?_,
    fun d hd => ⟨fun hp => exec_delay hp rfl ho hd, fun hp => exec_delay hp rfl ho hd,
      fun hp hc => ?_, fun hp hc => ?_, fun hp => exec_delay hp rfl ho hd⟩⟩
  · rw [exec_read hp rfl ho ha, ← orSample_eq]
    rfl
  · rw [exec_delay hp rfl ho hd]
    exact congrArg _ (if_pos hc)
  · rw [exec_delay hp rfl ho hd]
    exact congrArg _ (if_neg hc)

end Sys2Proof.Machine
end

section
/-!
SUPPORT. What the commands ask of their channels and what they leave alone (spec/20_memory.md R51 to
R56, R63): the request of each phase, the frame of a command, and the changes of a state no command
sees, a level of the clock line and the names of the error values.
-/

namespace Sys2Proof.Machine

variable {i : Instr} {ph : Phase} {b l : Level} {s u : State} {op : Op} {n : Nat} {k : Level}
  {f : LineErr → LineErr}

/-! ### The request of a phase -/

/-- A delay asks for 1 or 60 microseconds (R54). -/
theorem phaseRequest_delay (h : phaseRequest ph = some (.delay n)) : n = 1 ∨ n = 60 := by
  cases ph <;> cases h
  case dHold => exact .inr rfl
  all_goals exact .inl rfl

/-- IDLE is the phase without a request (R30, R39). -/
theorem request_eq_none : s.request = none ↔ s.seq.phase = .idle := by
  unfold State.request
  cases s.seq.phase <;> simp [phaseRequest, phaseRequestIn]

/-- RESET, RETRIEVE and SET_MODE are the commands that read the data line (R51). -/
theorem op_of_asks_read (ho : op ∈ phaseOps ph) (h : phaseRequest ph = some .lineRead) :
    op ∈ [Op.reset, .retrieve, .setMode] := by
  cases ph <;> cases h <;> revert op <;> decide

/-- DISABLE, RETRIEVE and SET_MODE are the commands that use the delay port (R51). -/
theorem op_of_asks_delay (ho : op ∈ phaseOps ph) (h : phaseRequest ph = some (.delay n)) :
    op ∈ [Op.disable, .retrieve, .setMode] := by
  cases ph <;> cases h <;> revert op <;> decide

/-- Settles O18: by the request outstanding, of which there is one at most. -/
theorem atMostOneRequestOutput : Obligations.AtMostOneRequestOutput := by
  intro s
  have hready : s.cmdReady = true ↔ s.request = none := by
    rw [request_eq_none, State.cmdReady, beq_iff_eq]
  rcases hq : s.request with _ | l | _ | n
  case some.delay =>
    rcases phaseRequest_delay hq with rfl | rfl <;>
      simp_all [State.sckReq, State.doutReq, State.dlyReq, State.dlyUs]
  all_goals simp_all [State.sckReq, State.doutReq, State.dlyReq]

/-! ### A row as the operation its request names -/

theorem rowStep_lineWrite (hq : s.request = some (.lineWrite l)) :
    rowStep i s = lineWrite l (rowGood i s.seq.phase .low) s := by
  rw [rowStep, hq]

theorem rowStep_lineRead (hq : s.request = some .lineRead) :
    rowStep i s = lineRead (rowGood i s.seq.phase) s := by
  rw [rowStep, hq]

theorem rowStep_delay (hq : s.request = some (.delay n)) :
    rowStep i s = delay n (rowGood i s.seq.phase .low) s := by
  rw [rowStep, hq]

/-- Settles O16: the row that asked for the delay writes neither MODE nor SCK nor OWN, and a good
row gives no Fault. -/
theorem delayCannotFault : Obligations.DelayCannotFault := by
  intro s n d ho hr hq hd
  obtain ⟨i, -, -, hs⟩ := step_row ho (busy_of_request hq) hr
  have hph : s.seq.phase ≠ .nLow := fun hp => by
    rw [State.request, hp] at hq
    cases hq
  rw [hs, rowStep_delay (s := s.tick) hq, delay_done (s := s.tick) hd]
  refine ⟨phaseRequest_delay hq, _, rfl, ?_, ?_, ?_, ?_, rowGood_not_fault _ _ _ _ rfl⟩
  · rw [rowGood_mode]
    exact if_neg hph
  · rw [rowGood_sck]
    rfl
  · rw [rowGood_own]
    exact if_neg hph
  · exact (rowGood_requests ..).trans (requests_append ..)

/-! ### The writing rows -/

/-- A row that writes goes on to its next phase or ends with Ok (R31, R52). -/
theorem rowGood_of_asks_write (h : phaseRequest ph = some (.lineWrite l)) :
    (ph, (rowGood i ph b s).seq.phase) ∈
        [(Phase.nLow, Phase.idle), (.eLow, .idle), (.dHigh, .dHold), (.xHigh, .xRd1),
          (.xLow, .idle), (.gLow, .gRdy), (.bHigh, .bWaitH), (.bLow, .bWaitL),
          (.tHigh, .tWaitH), (.tLow, .tWaitL)] ∧
      ((rowGood i ph b s).seq.phase = .idle →
        (rowGood i ph b s).rsp = some .ok ∧ (rowGood i ph b s).seq.op = .none) ∧
      ((rowGood i ph b s).seq.phase ≠ .idle →
        (rowGood i ph b s).rsp = s.rsp ∧ (rowGood i ph b s).seq.op = s.seq.op) := by
  cases ph <;> cases h <;> simp [rowGood]

/-- Settles O12: the write answered ok is the good row on the level asked for, and answered with a
fault it is the line fault. -/
theorem lineWriteSetsSckOrFaults : Obligations.LineWriteSetsSckOrFaults := by
  intro s l a rest ho hr hq hw
  obtain ⟨i, -, -, hs⟩ := step_row ho (busy_of_request hq) hr
  rw [hs, rowStep_lineWrite (s := s.tick) hq]
  cases a with
  | ok =>
    rw [lineWrite_ok (s := s.tick) hw]
    exact ⟨_, rfl, by simp, (rowGood_requests ..).trans (requests_append ..),
      fun _ => ⟨by simp, rowGood_of_asks_write hq⟩, nofun⟩
  | fault e =>
    rw [lineWrite_fault (s := s.tick) hw]
    refine ⟨_, rfl, rfl, ?_, nofun, fun e' he => ?_⟩
    · exact (requests_append _ [_]).trans ((List.append_nil _).trans (requests_append ..))
    · cases he
      exact ⟨rfl, rfl, rfl⟩

/-! ### The frame of a command -/

/-- What an event of a command may do to the channels beside its requests, to the trace, to SCK and
to the counter of free values. -/
structure CommandFrame (s t : State) : Prop where
  cmds : t.cmds = s.cmds
  rstPin : t.rstPin = s.rstPin
  trace : ∃ evs, t.trace = s.trace ++ evs ∧ evs.length ≤ 2
  rsp : t.rsp = s.rsp ∨ (t.rsp.isSome = true ∧ t.seq.phase = .idle)
  sck : t.sck = s.sck ∨ ∃ a rest, nextWrite s.writeAns = some (a, rest) ∧ t.writeAns = rest
  draws : t.draws = s.draws ∨
    ∃ e rest, nextWrite s.writeAns = some (.fault e, rest) ∧ t.writeAns = rest

/-- Acceptance records one event, and DESTROY its response with it. -/
theorem accepted_frame : CommandFrame s (accepted i s) where
  cmds := accepted_cmds i s
  rstPin := accepted_rstPin i s
  trace := by
    cases i with
    | destroy => exact ⟨[_, _], List.append_assoc .., le_rfl⟩
    | reservedOp7 m => exact ⟨[], (List.append_nil _).symm, by simp⟩
    | reservedSetMode0 => exact ⟨[], (List.append_nil _).symm, by simp⟩
    | _ => exact ⟨[_], rfl, by simp⟩
  rsp := by
    cases i with
    | destroy => exact .inr ⟨rfl, rfl⟩
    | _ => exact .inl rfl
  sck := .inl (accepted_sck i s)
  draws := .inl (accepted_draws i s)

/-- A good row goes on without an event, or it responds. -/
theorem rowGood_goesOn_or_responds :
    ((rowGood i ph b s).trace = s.trace ∧ (rowGood i ph b s).rsp = s.rsp) ∨
      ∃ r, (rowGood i ph b s).trace = s.trace ++ [.respond r] ∧
        (rowGood i ph b s).rsp = some r ∧ (rowGood i ph b s).seq.phase = .idle := by
  cases ph with
  | nLow | eLow | dHold | xLow => exact .inr ⟨_, rfl, rfl, rfl⟩
  | gRdy =>
    cases b with
    | low => exact .inl ⟨rfl, rfl⟩
    | high => by_cases h : i = .retrieve <;> simp [rowGood, h]
  | bWaitL => simp only [rowGood]; split <;> exact .inl ⟨rfl, rfl⟩
  | tWaitL =>
    simp only [rowGood]
    split
    · exact .inr ⟨_, rfl, rfl, rfl⟩
    · exact .inl ⟨rfl, rfl⟩
  | _ => exact .inl ⟨rfl, rfl⟩

/-- A good row adds at most one event to the one its answer made. -/
theorem rowGood_frame {e : Event} (hc : u.cmds = s.cmds) (hp : u.rstPin = s.rstPin)
    (ht : u.trace = s.trace ++ [e]) (hr : u.rsp = s.rsp) (hd : u.draws = s.draws)
    (hk : u.sck = s.sck ∨ ∃ a rest, nextWrite s.writeAns = some (a, rest) ∧ u.writeAns = rest) :
    CommandFrame s (rowGood i ph b u) where
  cmds := by rw [rowGood_cmds, hc]
  rstPin := by rw [rowGood_rstPin, hp]
  trace := by
    rcases rowGood_goesOn_or_responds (i := i) (ph := ph) (b := b) (s := u) with
      ⟨h, -⟩ | ⟨r, h, -, -⟩
    · exact ⟨[e], by rw [h, ht], by simp⟩
    · exact ⟨[e, .respond r], by rw [h, ht, List.append_assoc]; rfl, le_rfl⟩
  rsp := by
    rcases rowGood_goesOn_or_responds (i := i) (ph := ph) (b := b) (s := u) with
      ⟨-, h⟩ | ⟨r, -, h, hi⟩
    · exact .inl (h.trans hr)
    · exact .inr ⟨by rw [h]; rfl, hi⟩
  sck := by rwa [rowGood_sck, rowGood_writeAns]
  draws := .inl (by rw [rowGood_draws, hd])

theorem rowStep_frame : CommandFrame s (rowStep i s) := by
  apply rowStep_rule
  case wait => exact fun _ => ⟨rfl, rfl, ⟨[], by simp⟩, .inl rfl, .inl rfl, .inl rfl⟩
  case write =>
    exact fun l rest _ hw => rowGood_frame rfl rfl rfl rfl rfl (.inr ⟨_, rest, hw, rfl⟩)
  case writeFault =>
    exact fun l e rest _ hw => ⟨rfl, rfl, ⟨[_, _], List.append_assoc .., le_rfl⟩, .inr ⟨rfl, rfl⟩,
      .inr ⟨_, rest, hw, rfl⟩, .inr ⟨e, rest, hw, rfl⟩⟩
  case read => exact fun b rest _ _ => rowGood_frame rfl rfl rfl rfl rfl (.inl rfl)
  case readFault =>
    exact fun e rest _ _ => ⟨rfl, rfl, ⟨[_, _], List.append_assoc .., le_rfl⟩, .inr ⟨rfl, rfl⟩,
      .inl rfl, .inl rfl⟩
  case wait_done => exact fun n rest _ _ => rowGood_frame rfl rfl rfl rfl rfl (.inl rfl)

/-- Settles O34: the frame of acceptance and that of a row. -/
theorem everyCommandFrame : Obligations.EveryCommandFrame := by
  intro i s t h
  have hf : CommandFrame s t := by
    rcases exec_next_cases h with ⟨_, _, rfl⟩ | ⟨_, _, rfl⟩
    · exact accepted_frame
    · exact rowStep_frame
  exact ⟨hf.cmds, hf.rstPin, hf.trace, hf.rsp, hf.sck, hf.draws⟩

/-! ### Changes of a state no command sees -/

/-- A change of the state that touches nothing a good row reads, and none of what it writes but by
renaming responses. -/
structure UnseenByRows (g : State → State) : Prop where
  frame : ∀ s a q, g { s with acc := a, seq := q } = { g s with acc := a, seq := q }
  takeLines : ∀ s, g { s with mode := M1, own := true } = { g s with mode := M1, own := true }
  respond : ∀ s r, rspError r = none → g (s.respond r) = (g s).respond r
  modeValue : ∀ s, (g s).modeValue = s.modeValue

section UnseenByRows

variable {g : State → State} (h : UnseenByRows g)
include h

theorem UnseenByRows.acc (s : State) : (g s).acc = s.acc :=
  (congrArg State.acc (h.frame s s.acc s.seq) :)

theorem UnseenByRows.seq (s : State) : (g s).seq = s.seq :=
  (congrArg State.seq (h.frame s s.acc s.seq) :)

theorem UnseenByRows.goto (s : State) (p : Phase) : g (s.goto p) = (g s).goto p := by
  rw [State.goto, State.goto, h.seq]
  exact (h.frame s s.acc _).trans (by rw [← h.acc])

theorem UnseenByRows.gotoCnt (s : State) (c : Count) (p : Phase) :
    g (s.gotoCnt c p) = (g s).gotoCnt c p := by
  rw [State.gotoCnt, State.gotoCnt, h.seq]
  exact (h.frame s s.acc _).trans (by rw [← h.acc])

theorem UnseenByRows.setAcc (s : State) (a : Raw) :
    g { s with acc := a } = { g s with acc := a } :=
  (h.frame s a s.seq).trans (by rw [← h.seq])

/-- A good row does the same on a state so changed. -/
theorem UnseenByRows.rowGood : g (rowGood i ph b s) = rowGood i ph b (g s) := by
  cases ph with
  | nLow =>
    simp only [Machine.rowGood]
    rw [h.respond _ _ rfl, h.takeLines]
  | eLow | dHold | xLow => exact h.respond _ _ rfl
  | gSetup =>
    simp only [Machine.rowGood]
    rw [h.setAcc, h.gotoCnt]
  | bWaitH | bSample =>
    simp only [Machine.rowGood, h.acc]
    rw [h.setAcc, h.goto]
  | gRdy =>
    cases b with
    | low => exact h.goto ..
    | high => simp only [Machine.rowGood, apply_ite g, h.goto, h.respond _ .wouldBlock rfl]
  | bWaitL => simp only [Machine.rowGood, apply_ite g, h.gotoCnt, h.seq]
  | tWaitL =>
    have hr : rspError (if i = .retrieve then .okValue (extend24 s.acc) else .ok) = none := by
      split <;> rfl
    simp only [Machine.rowGood, apply_ite g, h.gotoCnt, h.seq, h.modeValue, h.respond _ _ hr, h.acc]
  | idle => rfl
  | _ => exact h.goto ..

end UnseenByRows

/-- A command does the same in two states, seen through `g` and `g'`, if its acceptance and its row
do, and PHASE and OWN are the same. -/
theorem exec_congr {g g' : State → State} (hp : u.seq.phase = s.seq.phase) (hown : u.own = s.own)
    (ha : g (accepted i u) = g' (accepted i s)) (hr : g (rowStep i u) = g' (rowStep i s)) :
    mapNext g (exec i u) = mapNext g' (exec i s) := by
  by_cases hn : opOf i = .none
  · rw [exec_reserved hn, exec_reserved hn, mapNext_refused, mapNext_refused]
  by_cases hi : s.seq.phase = .idle
  · cases hl : legalNow s.own i with
    | true =>
      rw [exec_idle hi hl, exec_idle (hp.trans hi) (hown ▸ hl), mapNext_next, mapNext_next, ha]
    | false =>
      rw [exec_illegal hi hl, exec_illegal (hp.trans hi) (hown ▸ hl), mapNext_refused,
        mapNext_refused]
  · by_cases ho : opOf i ∈ phaseOps s.seq.phase
    · rw [exec_row ho hi, exec_row (hp ▸ ho) (hp ▸ hi), mapNext_next, mapNext_next, hr]
    · rw [exec_off_row hn hi ho, exec_off_row hn (hp ▸ hi) (hp ▸ ho), mapNext_fault, mapNext_fault]

/-- A row does the same in two states with the same request and the same channels, seen through `g`
and `g'`, if it makes the same of every answer. -/
theorem rowStep_congr {g g' : State → State} (hq : u.request = s.request)
    (hc : u.channels = s.channels)
    (h : ∀ a c, g ((rowResult i a u).withChannels c) = g' ((rowResult i a s).withChannels c)) :
    g (rowStep i u) = g' (rowStep i s) := by
  have hu : rowStep i u = _ := rowStep_withChannels (s := u) (c := u.channels)
  have hs : rowStep i s = _ := rowStep_withChannels (s := s) (c := s.channels)
  rw [hu, hs, hq, hc, h]

/-! ### No command reads the clock line -/

/-- The state with the level `k` in SCK. -/
def State.withSck (k : Level) (s : State) : State := { s with sck := k }

theorem unseenByRows_withSck : UnseenByRows (State.withSck k) :=
  ⟨fun _ _ _ => rfl, fun _ => rfl, fun _ _ _ => rfl, fun _ => rfl⟩

theorem accepted_withSck :
    (accepted i (s.withSck l)).withSck k = (accepted i s).withSck k := by
  cases i <;> rfl

/-- A row sees of SCK nothing: a write puts its own level, or a free one, there, and the other rows
leave it. -/
theorem rowResult_withSck (a : Option Event) :
    (rowResult i a (s.withSck l)).withSck k = (rowResult i a s).withSck k := by
  have hgood (b : Level) (t : State) : (rowGood i s.seq.phase b (t.withSck l)).withSck k =
      (rowGood i s.seq.phase b t).withSck k := by
    rw [unseenByRows_withSck.rowGood, unseenByRows_withSck.rowGood]
    rfl
  rcases a with _ | _ | ⟨m, _ | e⟩ | ⟨b | e⟩ | n | _ | _
  case some.lineRead.level => exact hgood b { s with trace := s.trace ++ [.lineRead (.level b)] }
  case some.delay => exact hgood .low { s with trace := s.trace ++ [.delay n] }
  all_goals rfl

theorem rowStep_withSck : (rowStep i (s.withSck l)).withSck k = (rowStep i s).withSck k :=
  rowStep_congr rfl rfl fun a c => congrArg (State.withChannels c) (rowResult_withSck a)

/-! ### Which command reaches which channel -/

/-- A row takes an answer from the channel its request asks, and from no other. -/
theorem rowStep_channels : (rowStep i s).channels = s.channels.left s.request :=
  congrArg State.channels (rowStep_withChannels (i := i) (s := s) (c := s.channels))

theorem rowStep_readAns (h : s.request ≠ some .lineRead) :
    (rowStep i s).readAns = s.readAns := by
  refine (congrArg Channels.read rowStep_channels).trans ?_
  rcases hq : s.request with _ | l | _ | n
  case some.lineRead => exact absurd hq h
  all_goals rfl

theorem rowStep_delayAns (h : ∀ n, s.request ≠ some (.delay n)) :
    (rowStep i s).delayAns = s.delayAns := by
  refine (congrArg Channels.delay rowStep_channels).trans ?_
  rcases hq : s.request with _ | l | _ | n
  case some.delay => exact absurd hq (h n)
  all_goals rfl

/-- A command that does not read the data line leaves it alone. -/
theorem exec_readAns {t : State} (h : exec i s = .next t)
    (hi : opOf i ∉ [Op.reset, .retrieve, .setMode]) : t.readAns = s.readAns := by
  rcases exec_next_cases h with ⟨_, _, rfl⟩ | ⟨_, ho, rfl⟩
  · exact accepted_readAns i s
  · exact rowStep_readAns fun hq => hi (op_of_asks_read ho hq)

/-- A command that asks for no delay leaves the delay port alone. -/
theorem exec_delayAns {t : State} (h : exec i s = .next t)
    (hi : opOf i ∉ [Op.disable, .retrieve, .setMode]) : t.delayAns = s.delayAns := by
  rcases exec_next_cases h with ⟨_, _, rfl⟩ | ⟨_, ho, rfl⟩
  · exact accepted_delayAns i s
  · exact rowStep_delayAns fun n hq => hi (op_of_asks_delay ho hq)

/-- DESTROY makes no request. -/
theorem exec_destroy_frame {t : State} (h : exec .destroy s = .next t) :
    t.channels = s.channels ∧ t.sck = s.sck := by
  rcases exec_next_cases h with ⟨_, _, rfl⟩ | ⟨_, ho, _⟩
  · exact ⟨rfl, rfl⟩
  · exact absurd ho destroy_not_mem_phaseOps

/-- Settles O33: the channels a command leaves alone by the requests of its rows, the requests it
makes by its acceptance and its rows, and SCK by the rows' blindness to it. -/
theorem commandReachesItsChannelsOnly : Obligations.CommandReachesItsChannelsOnly := by
  refine ⟨fun i s t h => ⟨?_, ?_, ?_, ?_⟩, fun s hp hown => ?_, fun s hp hown => ?_,
    fun s rest hw => ⟨fun hp => ?_, fun hp => ?_, fun hp => ?_, fun hp m => ?_⟩,
    fun s rest hp ha => ⟨?_, fun m => ?_⟩, fun i s k l => ?_⟩
  · rintro (rfl | rfl) <;> exact ⟨exec_readAns h (by decide), exec_delayAns h (by decide)⟩
  · rintro rfl
    exact exec_readAns h (by decide)
  · rintro rfl
    exact exec_delayAns h (by decide)
  · rintro rfl
    obtain ⟨hc, hk⟩ := exec_destroy_frame h
    exact ⟨congrArg Channels.write hc, congrArg Channels.read hc, congrArg Channels.delay hc, hk⟩
  · exact ⟨_, exec_idle hp (by simp [legalNow, hown]), rfl⟩
  · exact ⟨⟨_, exec_idle hp hown, rfl⟩, ⟨_, exec_idle hp hown, rfl⟩, ⟨_, exec_idle hp hown, rfl⟩,
      ⟨_, exec_idle hp hown, rfl⟩,
      fun m hm => ⟨_, exec_idle hp (by simp [legalNow, hown, isMode, hm]), rfl⟩⟩
  · exact ⟨_, exec_write hp rfl (by decide) hw, rfl⟩
  · exact ⟨_, exec_write hp rfl (by decide) hw, rfl⟩
  · exact ⟨_, exec_write hp rfl (by decide) hw, rfl⟩
  · exact ⟨_, exec_write hp rfl setMode_runsFrame hw, rfl⟩
  · exact ⟨_, exec_read hp rfl (by decide) ha, rfl⟩
  · exact ⟨_, exec_read hp rfl setMode_runsFrame ha, rfl⟩
  · exact exec_congr (g := State.withSck k) (u := s.withSck l) rfl rfl accepted_withSck
      rowStep_withSck

/-! ### No step looks inside an error value -/

/-- A known channel with its answers changed gives the changed answer next. -/
theorem next_map {α : Type} {draw : Nat → Option α} {o : Answers α} (g : α → α)
    (h : o.known = true) :
    (o.map g).next draw = (o.next draw).map (Prod.map g (Answers.map g)) := by
  obtain ⟨_ | ⟨a, as⟩, tl⟩ := o
  · cases tl with
    | free n => cases h
    | _ => rfl
  · rfl

theorem mapErr_respond (s : State) (r : Response) :
    (s.respond r).mapErr f = (s.mapErr f).respond (r.mapErr f) := by
  simp [State.respond, State.mapErr, Event.mapErr]

theorem mapErr_raiseLineFault (s : State) (e : LineErr) :
    (s.raiseLineFault e).mapErr f = (s.mapErr f).raiseLineFault (f e) :=
  mapErr_respond s (.fault e)

theorem mapErr_of_not_error {r : Response} (h : rspError r = none) : r.mapErr f = r := by
  cases r with
  | fault e => cases h
  | _ => rfl

theorem unseenByRows_mapErr : UnseenByRows (State.mapErr f) :=
  ⟨fun _ _ _ => rfl, fun _ => rfl,
    fun s r h => by rw [mapErr_respond, mapErr_of_not_error h], fun _ => rfl⟩

theorem accepted_mapErr : accepted i (s.mapErr f) = (accepted i s).mapErr f := by
  cases i with
  | reservedOp7 m => rfl
  | reservedSetMode0 => rfl
  | _ => simp [accepted, State.accept, State.respond, State.mapErr, Event.mapErr, Response.mapErr]

/-- A row renames the error of its answer in the trace and in the response, and no more. -/
theorem rowStep_mapErr (hw : s.writeAns.known = true) (hr : s.readAns.known = true) :
    rowStep i (s.mapErr f) = (rowStep i s).mapErr f := by
  rcases hq : s.request with _ | m | _ | n
  · rw [rowStep, rowStep, hq, show (s.mapErr f).request = none from hq]
  · have hnext : nextWrite (s.mapErr f).writeAns = _ := next_map (WriteAnswer.mapErr f) hw
    rw [rowStep_lineWrite hq, rowStep_lineWrite (s := s.mapErr f) hq]
    rcases ha : nextWrite s.writeAns with _ | ⟨_ | e, rest⟩ <;> rw [← nextWrite, ha] at hnext
    · rw [lineWrite_waiting ha, lineWrite_waiting hnext]
    · rw [lineWrite_ok ha, lineWrite_ok hnext, unseenByRows_mapErr.rowGood]
      simp [State.mapErr, Event.mapErr, WriteAnswer.mapErr]
    · rw [lineWrite_fault ha, lineWrite_fault hnext, mapErr_raiseLineFault]
      simp [State.mapErr, Event.mapErr, WriteAnswer.mapErr]
  · have hnext : nextRead (s.mapErr f).readAns = _ := next_map (ReadAnswer.mapErr f) hr
    rw [rowStep_lineRead hq, rowStep_lineRead (s := s.mapErr f) hq]
    rcases ha : nextRead s.readAns with _ | ⟨b | e, rest⟩ <;> rw [← nextRead, ha] at hnext
    · rw [lineRead_waiting ha, lineRead_waiting hnext]
    · rw [lineRead_level ha, lineRead_level hnext, unseenByRows_mapErr.rowGood]
      simp [State.mapErr, Event.mapErr, ReadAnswer.mapErr]
    · rw [lineRead_fault ha, lineRead_fault hnext, mapErr_raiseLineFault]
      simp [State.mapErr, Event.mapErr, ReadAnswer.mapErr]
  · rw [rowStep_delay hq, rowStep_delay (s := s.mapErr f) hq]
    rcases hd : nextDelay s.delayAns with _ | ⟨_, rest⟩
    · rw [delay_waiting hd, delay_waiting (s := s.mapErr f) hd]
    · rw [delay_done hd, delay_done (s := s.mapErr f) hd, unseenByRows_mapErr.rowGood]
      simp [State.mapErr, Event.mapErr]

theorem exec_mapErr (hw : s.writeAns.known = true) (hr : s.readAns.known = true) :
    exec i (s.mapErr f) = mapNext (State.mapErr f) (exec i s) := by
  rw [← mapNext_self (exec i (s.mapErr f))]
  exact exec_congr rfl rfl accepted_mapErr (rowStep_mapErr hw hr)

/-- Settles O36: a reset and a wait read no error value, and a command renames those it hands on. -/
theorem errorValuesAreOpaque : Obligations.ErrorValuesAreOpaque := by
  intro f s hw hr
  cases hrst : s.rstNow with
  | true =>
    rw [step_reset hrst, step_reset (s := s.mapErr f) hrst]
    simp [State.takeRst, State.tick, State.mapErr, Event.mapErr]
  | false =>
    by_cases hp : s.seq.phase = .idle
    · rcases hc : s.cmds with _ | ⟨w, ws⟩
      · rw [step_waits_for_command hrst hp hc,
          step_waits_for_command (s := s.mapErr f) hrst hp hc]
        rfl
      · cases hd : decode w with
        | error e =>
          rw [step_refuses hrst hp hc hd, step_refuses (s := s.mapErr f) hrst hp hc hd]
          rfl
        | ok i =>
          rw [step_accepts hrst hp hc hd, step_accepts (s := s.mapErr f) hrst hp hc hd]
          exact exec_mapErr (s := { s.tick with cmds := ws }) hw hr
    · cases hi : s.inProgress with
      | none =>
        rw [step_stops hrst hp hi, step_stops (s := s.mapErr f) hrst hp hi]
        rfl
      | some i =>
        rw [step_continues hrst hp hi, step_continues (s := s.mapErr f) hrst hp hi]
        exact exec_mapErr (s := s.tick) hw hr

end Sys2Proof.Machine
end

section
/-!
SUPPORT. The command words (spec/30_encoding.md R80 to R84): the field `mode` counts for SET_MODE alone,
and the five words without a meaning decode to the rows `exec` refuses.
-/

namespace Sys2Proof.Machine

variable {p : Params} {i : Instr} {s : State} {w w' : CmdWord}

/-! ### The field `mode` -/

/-- The `mode` field of the encoded word is the one the assembler writes (R80). -/
theorem modeField_encode : modeField (encode i) = encodeMode i := by
  have happend : ∀ (a : BitVec 3) (m : ModeBits), modeField (a ++ m) = m := by decide
  exact happend (encodeOp i) (encodeMode i)

/-- Words with the same `op` decode alike where `op` is neither SET_MODE's nor the reserved one. -/
theorem decodeIn_congr_op (h : opField w = opField w') (h4 : opField w ≠ 0b100#3)
    (h7 : opField w ≠ 0b111#3) : decodeIn p w = decodeIn p w' := by
  have hop : ∀ a : BitVec 3, a ≠ 0b100#3 → a ≠ 0b111#3 →
      a = 0b000#3 ∨ a = 0b001#3 ∨ a = 0b010#3 ∨ a = 0b011#3 ∨ a = 0b101#3 ∨ a = 0b110#3 := by
    decide
  rcases hop _ h4 h7 with ha | ha | ha | ha | ha | ha <;> simp [decodeIn, ← h, ha]

/-- For a well-formed command but SET_MODE the assembler writes 0 (R83). -/
theorem encodeMode_of_ne_setMode (hw : i.wellFormed = true) (hm : ∀ m, i ≠ .setMode m) :
    encodeMode i = 0b00#2 := by
  cases i with
  | setMode m => exact absurd rfl (hm m)
  | reservedOp7 m => cases hw
  | _ => rfl

/-- Settles O3: the decoder looks at `mode` for the two `op`s left out only, and the encoder writes an
operand there for SET_MODE only. -/
theorem modeFieldIgnored : Obligations.ModeFieldIgnored :=
  ⟨fun _ _ h h4 h7 => decodeIn_congr_op h h4 h7,
    fun _ hw hm => modeField_encode.trans (encodeMode_of_ne_setMode hw hm)⟩

/-! ### The words without a meaning -/

/-- The five words of R84. -/
def reservedWords : List CmdWord := [0x10#5, 0x1C#5, 0x1D#5, 0x1E#5, 0x1F#5]

/-- A word decodes to a well-formed command exactly if it is not one of the five. -/
theorem decode_wellFormed_iff :
    (∃ i, decode w = .ok i ∧ i.wellFormed = true) ↔ w ∉ reservedWords := by
  have htable : ∀ w : CmdWord,
      (decode w).toOption.any Instr.wellFormed = true ↔ w ∉ reservedWords := by decide
  rw [← htable]
  cases decode w <;> simp [Except.toOption]

/-- Each of the five decodes to a reserved row. -/
theorem decode_reservedWord (h : w ∈ reservedWords) : ∃ i, decode w = .ok i ∧ opOf i = .none := by
  fin_cases h <;> exact ⟨_, rfl, rfl⟩

/-- Settles O4: the five words decode to the reserved rows, which give no next state, and the word of an
absent operation is rejected. -/
theorem reservedWordsRefused : Obligations.ReservedWordsRefused := by
  refine ⟨fun m s => exec_reserved rfl, fun s => exec_reserved rfl, fun w => decode_wellFormed_iff,
    fun s w ws hr hp hc hw => ?_, fun p w h => decodeIn_absent h⟩
  obtain ⟨i, hd, hi⟩ := decode_reservedWord hw
  rw [step_accepts hr hp hc hd, exec_reserved hi]

end Sys2Proof.Machine
end

section
/-!
SUPPORT. How a command answers (spec/30_encoding.md R85, R86): an event of a command leaves the engine
busy and gives no response, or it ends the command with the one response it records last.
-/

namespace Sys2Proof.Machine

variable {i : Instr} {ph : Phase} {b : Level} {s t u : State} {r : Response}

/-! ### One event and its response -/

/-- The outcomes a command can have (R86): RETRIEVE a value or WouldBlock and never a plain Ok, the
others Ok, and any command that accesses a line a Fault. -/
def mayAnswer (i : Instr) : Response → Prop
  | .ok => i ≠ .retrieve
  | .okValue _ => i = .retrieve
  | .wouldBlock => i = .retrieve
  | .fault _ => i ≠ .destroy

/-- What an event of the command `i` makes of `s`. -/
inductive EventResult (i : Instr) (s : State) : State → Prop
  /-- The command goes on, and nothing is answered. -/
  | goesOn {t : State} (phase : t.seq.phase ≠ .idle) (rsp : t.rsp = s.rsp)
      (count : countResponses t.trace = countResponses s.trace) : EventResult i s t
  /-- The command ends with the response `r`. -/
  | ends {u : State} {r : Response} (answer : mayAnswer i r)
      (count : countResponses u.trace = countResponses s.trace) : EventResult i s (u.respond r)

theorem accepted_result (hl : legalNow s.own i = true) : EventResult i s (accepted i s) := by
  have hcount (op : Op) : countResponses (s.trace ++ [.accept op]) = countResponses s.trace :=
    countResponses_append _ _
  cases i with
  | destroy => exact .ends nofun (hcount _)
  | reservedOp7 m => cases hl
  | reservedSetMode0 => cases hl
  | _ => exact .goesOn nofun rfl (hcount _)

/-- A good row of a command, on a state `u` in which no further response has been given. -/
theorem rowGood_result (ho : opOf i ∈ phaseOps ph) (hp : ph ≠ .idle) (hr : u.rsp = s.rsp)
    (hc : countResponses u.trace = countResponses s.trace) :
    EventResult i s (rowGood i ph b u) := by
  cases ph with
  | idle => exact absurd rfl hp
  | nLow | eLow | dHold | xLow =>
    have hi : i ≠ .retrieve := by rintro rfl; exact absurd ho (by decide)
    exact .ends hi hc
  | gRdy =>
    cases b with
    | low => exact .goesOn nofun hr hc
    | high =>
      simp only [rowGood]
      split
      · exact .ends ‹_› hc
      · exact .goesOn nofun hr hc
  | bWaitL => simp only [rowGood]; split <;> exact .goesOn nofun hr hc
  | tWaitL =>
    simp only [rowGood]
    split
    · refine .ends ?_ hc
      split <;> assumption
    · exact .goesOn nofun hr hc
  | _ => exact .goesOn nofun hr hc

theorem rowStep_result (ho : opOf i ∈ phaseOps s.seq.phase) (hp : s.seq.phase ≠ .idle) :
    EventResult i s (rowStep i s) := by
  have hfault : i ≠ .destroy := by rintro rfl; exact destroy_not_mem_phaseOps ho
  apply rowStep_rule
  case wait => exact fun _ => .goesOn hp rfl rfl
  case write => exact fun _ _ _ _ => rowGood_result ho hp rfl (countResponses_append _ _)
  case writeFault => exact fun _ _ _ _ _ => .ends hfault (countResponses_append _ _)
  case read => exact fun _ _ _ _ => rowGood_result ho hp rfl (countResponses_append _ _)
  case readFault => exact fun _ _ _ _ => .ends hfault (countResponses_append _ _)
  case wait_done => exact fun _ _ _ _ => rowGood_result ho hp rfl (countResponses_append _ _)

theorem exec_result (h : exec i s = .next t) : EventResult i s t := by
  rcases exec_next_cases h with ⟨_, hl, rfl⟩ | ⟨hp, ho, rfl⟩
  · exact accepted_result hl
  · exact rowStep_result ho hp

/-- The response an event shows is one its command can have. -/
theorem EventResult.mayAnswer (h : EventResult i s t) (hs : s.rsp = none) (hr : t.rsp = some r) :
    mayAnswer i r := by
  cases h with
  | goesOn _ rsp _ => rw [rsp, hs] at hr; cases hr
  | ends answer _ => cases hr; exact answer

/-- Settles O35: the table of R86, then the outcomes of each command's events. -/
theorem responseWordAndItsCommand : Obligations.ResponseWordAndItsCommand := by
  refine ⟨⟨rfl, rfl, rfl⟩, fun _ => ⟨rfl, rfl, rfl⟩, ⟨rfl, rfl, rfl⟩, fun _ => ⟨rfl, rfl, rfl, rfl⟩,
    fun r h => by rw [rspErrWires, h]; rfl, fun r => by cases r <;> simp [rspStatus],
    fun i s t hs h => ?_⟩
  have hanswer {r : Response} (hr : t.rsp = some r) : mayAnswer i r :=
    (exec_result h).mayAnswer hs hr
  exact ⟨hanswer, fun _ => hanswer, fun _ => hanswer, hanswer⟩

/-! ### The responses of a step -/

/-- The trace of `t` holds one response more than that of `s` if `t` shows one, which is then the last
event and leaves the engine idle, and none more otherwise. -/
structure OneResponse (s t : State) : Prop where
  count : countResponses t.trace = countResponses s.trace + (if t.rspValid then 1 else 0)
  ended : ∀ r, t.rsp = some r →
    t.seq.phase = .idle ∧ t.seq.op = .none ∧ t.trace.getLast? = some (.respond r)

/-- A state that shows no response, and whose trace holds no more of them. -/
theorem oneResponse_of_none (hr : t.rsp = none)
    (hc : countResponses t.trace = countResponses s.trace) : OneResponse s t :=
  ⟨by simp [State.rspValid, hr, hc], by simp [hr]⟩

theorem oneResponse_respond (hc : countResponses u.trace = countResponses s.trace) :
    OneResponse s (u.respond r) where
  count := (countResponses_append _ _).trans (congrArg (· + 1) hc)
  ended := by simp

theorem EventResult.oneResponse (h : EventResult i s t) (hs : s.rsp = none) : OneResponse s t := by
  cases h with
  | goesOn _ rsp count => exact oneResponse_of_none (rsp.trans hs) count
  | ends _ count => exact oneResponse_respond count

/-- A command answers in the event that leaves the engine idle. -/
theorem EventResult.rspValid_iff (h : EventResult i s t) (hs : s.rsp = none) :
    t.rspValid = true ↔ t.seq.phase = .idle := by
  cases h with
  | goesOn phase rsp _ => simp [State.rspValid, rsp, hs, phase]
  | ends _ _ => simp [State.rspValid]

/-- Every step gives at most one response. -/
theorem step_oneResponse (h : step s = .next t) : OneResponse s t := by
  rcases step_next_cases h with ⟨_, rfl⟩ | ⟨_, _, _, rfl⟩ | ⟨_, _, w, ws, i, _, _, he⟩ |
    ⟨_, _, i, _, he⟩
  · exact oneResponse_of_none rfl (countResponses_append _ _)
  · exact oneResponse_of_none rfl rfl
  · have hone := (exec_result he).oneResponse rfl
    exact ⟨hone.count, hone.ended⟩
  · have hone := (exec_result he).oneResponse rfl
    exact ⟨hone.count, hone.ended⟩

/-- Settles O25: a step that runs an event shows what the event answers, and a reset or a wait shows
nothing. -/
theorem oneResponsePerCommand : Obligations.OneResponsePerCommand := by
  intro s t _ h
  refine ⟨(step_oneResponse h).count, (step_oneResponse h).ended, fun hp hr => ?_⟩
  rcases step_next_cases h with ⟨hr', _⟩ | ⟨_, hp', _⟩ | ⟨_, hp', _⟩ | ⟨_, _, i, _, he⟩
  · simp [hr] at hr'
  · exact absurd hp' hp
  · exact absurd hp' hp
  · exact (exec_result he).rspValid_iff rfl

end Sys2Proof.Machine
end

section
/-!
SUPPORT. RETRIEVE as a run of steps (spec/42_retrieve.md R121 to R129): the poll, the frame as its
pulses one after the other, and the whole command. The lemmas on the frame serve SET_MODE too.
-/

namespace Sys2Proof.Machine

variable {i : Instr} {s : State} {ws : List CmdWord} {bs : List Level} {n : Nat} {m : ModeBits}
  {wr : Answers WriteAnswer} {rr : Answers ReadAnswer} {d : Answers Unit}

/-! ### The accumulator -/

/-- The sample fills the bit the shift has cleared, so that the OR is a sum (R123). -/
theorem orSample_shiftAcc (a : Raw) (b : Level) :
    orSample (shiftAcc a) b = a * 2#24 + BitVec.ofNat 24 (levelNat b) := by
  have hbit : (levelBit b).setWidth 24 = BitVec.ofNat 24 (levelNat b) := by cases b <;> rfl
  have hand : (a <<< 1) &&& BitVec.ofNat 24 (levelNat b) = 0#24 := by
    rw [← hbit]
    ext k hk
    cases k <;> simp
  rw [orSample, shiftAcc, hbit, ← BitVec.add_eq_or_of_and_eq_zero _ _ hand,
    BitVec.shiftLeft_eq_mul_twoPow]
  rfl

/-- One shift and one sample add one binary digit (R123). -/
theorem orSample_shiftAcc_ofNat (v : Nat) (b : Level) :
    orSample (shiftAcc (BitVec.ofNat 24 v)) b = BitVec.ofNat 24 (2 * v + levelNat b) := by
  rw [orSample_shiftAcc, Nat.mul_comm, BitVec.ofNat_add, BitVec.ofNat_mul]

/-- The pulses of a frame read ACC as a binary number, most significant digit first (R129). -/
theorem foldl_orSample_ofNat (v : Nat) :
    bs.foldl (fun a b => orSample (shiftAcc a) b) (BitVec.ofNat 24 v) =
      BitVec.ofNat 24 (bs.foldl (fun v b => 2 * v + levelNat b) v) := by
  induction bs generalizing v with
  | nil => rfl
  | cons b bs ih => rw [List.foldl_cons, List.foldl_cons, orSample_shiftAcc_ofNat, ih]

theorem foldl_orSample_zero :
    bs.foldl (fun a b => orSample (shiftAcc a) b) 0#24 = BitVec.ofNat 24 (msbFirst bs) :=
  foldl_orSample_ofNat 0

/-! ### The pulses of a frame -/

/-- The data pulses that are left, 24 in all, end where the trailing pulses begin (R123). -/
theorem run_dataPulses {b : Level} (hf : InFrame s) (hp : s.seq.phase = .bHigh)
    (hc : s.seq.cnt.toNat + bs.length = 23)
    (hw : Yields nextWrite s.writeAns (List.replicate (2 * (bs.length + 1)) .ok) wr)
    (ha : Yields nextRead s.readAns ((b :: bs).map .level) rr)
    (hd : Yields nextDelay s.delayAns (List.replicate (2 * (bs.length + 1)) ()) d) :
    Host.Core.run core (5 * (bs.length + 1)) s = .next
      { s with
        sck := .low, acc := (b :: bs).foldl (fun a b => orSample (shiftAcc a) b) s.acc
        writeAns := wr, readAns := rr, delayAns := d
        seq := { s.seq with cnt := 0#5, phase := .tHigh }
        trace := s.trace ++ (b :: bs).flatMap dataPulse } := by
  induction bs generalizing b s with
  | nil =>
    obtain ⟨w1, hw0, w2, hw1, rfl⟩ := hw
    obtain ⟨r1, ha0, rfl⟩ := ha
    obtain ⟨d1, hd0, d2, hd1, rfl⟩ := hd
    have hlast : s.seq.cnt = 23#5 := BitVec.eq_of_toNat_eq hc
    have h := run_dataPulse hf hp hw0 hw1 ha0 hd0 hd1
    rw [if_pos hlast] at h
    simpa using h
  | cons b' bs ih =>
    simp only [List.length_cons] at hc hw ha hd ⊢
    obtain ⟨w1, hw0, w2, hw1, hw⟩ := hw
    obtain ⟨r1, ha0, ha⟩ := ha
    obtain ⟨d1, hd0, d2, hd1, hd⟩ := hd
    have hmore : s.seq.cnt ≠ 23#5 := fun h => by simp [h] at hc
    have h := run_dataPulse hf hp hw0 hw1 ha0 hd0 hd1
    rw [if_neg hmore] at h
    have hnext : (s.seq.cnt + 1#5).toNat + bs.length = 23 := by bv_omega
    rw [show 5 * (bs.length + 1 + 1) = 5 + 5 * (bs.length + 1) by omega, run_add h]
    exact Eq.trans (ih (b := b') ⟨hf.op, hf.pin, hf.rsp⟩ rfl hnext hw ha hd) (by simp)

/-- The trailing pulses that are left end the command (R124, R127). -/
theorem run_trailingPulses (hf : InFrame s) (hp : s.seq.phase = .tHigh)
    (hc : s.seq.cnt.toNat + (n + 1) = s.modeValue.toNat)
    (hw : Yields nextWrite s.writeAns (List.replicate (2 * (n + 1)) .ok) wr)
    (hd : Yields nextDelay s.delayAns (List.replicate (2 * (n + 1)) ()) d) :
    Host.Core.run core (4 * (n + 1)) s = .next (State.respond
      (if s.seq.op = .retrieve then .okValue (extend24 s.acc) else .ok)
      { s with
        sck := .low, writeAns := wr, delayAns := d
        seq := { s.seq with cnt := s.modeValue.setWidth 5 - 1#5 }
        trace := s.trace ++ (List.replicate (n + 1) trailingPulse).flatten }) := by
  induction n generalizing s with
  | zero =>
    obtain ⟨w1, hw0, w2, hw1, rfl⟩ := hw
    obtain ⟨d1, hd0, d2, hd1, rfl⟩ := hd
    have hlast : s.seq.cnt = s.modeValue.setWidth 5 - 1#5 := (trailing_last_iff (by omega)).mpr hc
    rw [← hlast]
    simpa using run_lastPulse hf hp hw0 hw1 hd0 hd1 hlast
  | succ n ih =>
    obtain ⟨w1, hw0, w2, hw1, hw⟩ := hw
    obtain ⟨d1, hd0, d2, hd1, hd⟩ := hd
    have hmore : s.seq.cnt ≠ s.modeValue.setWidth 5 - 1#5 := fun h => by
      have := (trailing_last_iff (by omega)).mp h
      omega
    have h := run_trailingPulse hf hp hw0 hw1 hd0 hd1 hmore
    have hnext : (s.seq.cnt + 1#5).toNat + (n + 1) = s.modeValue.toNat := by bv_omega
    rw [show 4 * (n + 1 + 1) = 4 + 4 * (n + 1) by omega, run_add h]
    exact Eq.trans (ih ⟨hf.op, hf.pin, hf.rsp⟩ rfl hnext hw hd) (by simp [List.replicate_succ, hp])

/-! ### The frame -/

/-- The set-up delay clears ACC and CNT (R125). -/
theorem step_setup (hf : InFrame s) (hp : s.seq.phase = .gSetup)
    (hd : nextDelay s.delayAns = some ((), d)) :
    step s = .next
      { s with
        acc := 0#24, delayAns := d, seq := { s.seq with cnt := 0#5, phase := .bHigh }
        trace := s.trace ++ [.delay 1] } := by
  obtain ⟨i, hi⟩ : ∃ i, s.inProgress = some i := by
    rcases hf.op with ho | ho <;> simp [State.inProgress, ho]
  have ho : s.seq.op ∈ phaseOps s.seq.phase := by
    rw [hp]
    exact List.mem_pair.mpr hf.op
  rw [step_delay hi ho hf.pin hf.rsp (by rw [State.request, hp]; rfl) hd, hp]
  rfl

/-- From the set-up delay on, answered well, a frame samples its 24 levels, makes the Mode's trailing
pulses and ends its command (R121, R127, R129; 43_set_mode.md R141). -/
theorem run_frame (hf : InFrame s) (hp : s.seq.phase = .gSetup) (hown : s.own = true)
    (hmode : s.mode = m) (hm : m ≠ 0b00#2) (hl : bs.length = 24)
    (hw : Yields nextWrite s.writeAns (List.replicate (48 + 2 * m.toNat) .ok) wr)
    (ha : Yields nextRead s.readAns (bs.map .level) rr)
    (hd : Yields nextDelay s.delayAns (List.replicate (49 + 2 * m.toNat) ()) d) :
    Host.Core.run core (121 + 4 * m.toNat) s = .next (State.respond
      (if s.seq.op = .retrieve then .okValue (extend24 (BitVec.ofNat 24 (msbFirst bs))) else .ok)
      { s with
        sck := .low, acc := BitVec.ofNat 24 (msbFirst bs)
        writeAns := wr, readAns := rr, delayAns := d
        seq := { s.seq with cnt := m.setWidth 5 - 1#5 }
        trace := s.trace ++ frameBody bs m.toNat }) := by
  obtain ⟨n, hn⟩ : ∃ n, m.toNat = n + 1 := Nat.exists_eq_add_one.mpr (mode_pos hm)
  obtain ⟨b, bs, rfl⟩ : ∃ b bs', bs = b :: bs' := List.exists_cons_of_length_eq_add_one hl
  have hl : bs.length = 23 := by simpa using hl
  rw [hn, show 48 = 2 * (bs.length + 1) by omega, List.replicate_add, yields_append] at hw
  obtain ⟨w1, hw0, hw1⟩ := hw
  rw [hn, show 49 + 2 * (n + 1) = 2 * (bs.length + 1) + 2 * (n + 1) + 1 by omega,
    List.replicate_succ, yields_cons] at hd
  obtain ⟨d1, hd0, hd⟩ := hd
  rw [List.replicate_add, yields_append] at hd
  obtain ⟨d2, hd1, hd2⟩ := hd
  rw [show 121 + 4 * m.toNat = 5 * (bs.length + 1) + 4 * (n + 1) + 1 by omega,
    run_succ (step_setup hf hp hd0)]
  refine Eq.trans (run_add (run_dataPulses (b := b) (bs := bs) ⟨hf.op, hf.pin, hf.rsp⟩ rfl
    ((Nat.zero_add _).trans hl) hw0 ha hd1)) ?_
  have hread : s.modeValue = m := (modeValue_owned hown).trans hmode
  refine Eq.trans (run_trailingPulses ⟨hf.op, hf.pin, hf.rsp⟩ rfl ?_ hw1 hd2) ?_
  · simp [hread, hn]
  · simp [hread, frameBody, hn, ← foldl_orSample_zero, State.respond]

/-! ### The command RETRIEVE -/

/-- An idle engine offered a legal command accepts it. -/
theorem step_offered (h : Offered i ws s) (hl : legalNow s.own i = true) :
    step s = .next (accepted i { s with rsp := none, cmds := ws }) := by
  obtain ⟨hp, hr, w, hc, hd⟩ := h
  rw [step_accepts (rstNow_of_empty hr) hp hc hd, exec_idle (s := { s.tick with cmds := ws }) hp hl]
  simp [State.tick, hr]

/-- The poll of RETRIEVE: its acceptance, W0, and the read that decides (R122). -/
theorem run_retrieve_poll {b : Level} (h : Offered .retrieve ws s) (hown : s.own = true)
    (hw : nextWrite s.writeAns = some (.ok, wr)) (ha : nextRead s.readAns = some (.level b, rr)) :
    Host.Core.run core 3 s = .next (rowGood .retrieve .gRdy b
      { s with
        sck := .low, rsp := none, cmds := ws, writeAns := wr, readAns := rr
        seq := { s.seq with op := .retrieve, phase := .gRdy }
        trace := s.trace ++ [.accept .retrieve, w0, rd b] }) := by
  have ⟨_, hr, _⟩ := h
  rw [run_succ (step_offered h hown)]
  refine Eq.trans (run_succ (step_write rfl (.head _) hr rfl rfl hw)) ?_
  refine Eq.trans (run_succ (step_read rfl (.head _) hr rfl rfl ha)) ?_
  simp [run_zero, accepted, State.accept, rowGood, State.goto]

/-- A poll that reads high ends RETRIEVE with WouldBlock (R122). -/
theorem run_retrieve_missed (h : Offered .retrieve ws s) (hown : s.own = true)
    (hw : nextWrite s.writeAns = some (.ok, wr)) (ha : nextRead s.readAns = some (.level .high, rr)) :
    Host.Core.run core 3 s = .next
      { s with
        sck := .low, rsp := some .wouldBlock, cmds := ws, writeAns := wr, readAns := rr
        seq := { s.seq with op := .none, phase := .idle }
        trace := s.trace ++ [.accept .retrieve, w0, rd .high, .respond .wouldBlock] } := by
  rw [run_retrieve_poll h hown hw ha]
  simp [rowGood, State.respond]

/-- A RETRIEVE whose poll reads low, answered well, is one frame and its sample (R121, R127, R129). -/
theorem run_retrieve_sample (h : Offered .retrieve ws s) (hown : s.own = true)
    (hmode : s.mode = m) (hm : m ≠ 0b00#2) (hl : bs.length = 24)
    (hw : Yields nextWrite s.writeAns (List.replicate (49 + 2 * m.toNat) .ok) wr)
    (ha : Yields nextRead s.readAns (.level .low :: bs.map .level) rr)
    (hd : Yields nextDelay s.delayAns (List.replicate (49 + 2 * m.toNat) ()) d) :
    Host.Core.run core (124 + 4 * m.toNat) s = .next
      { s with
        sck := .low, acc := BitVec.ofNat 24 (msbFirst bs)
        rsp := some (.okValue (extend24 (BitVec.ofNat 24 (msbFirst bs))))
        cmds := ws, writeAns := wr, readAns := rr, delayAns := d
        seq := { op := .none, phase := .idle, cnt := m.setWidth 5 - 1#5 }
        trace := s.trace ++ (.accept .retrieve :: w0 :: rd .low :: frameBody bs m.toNat ++
          [.respond (.okValue (extend24 (BitVec.ofNat 24 (msbFirst bs))))]) } := by
  rw [show 49 + 2 * m.toNat = 48 + 2 * m.toNat + 1 by omega, List.replicate_succ,
    yields_cons] at hw
  obtain ⟨w1, hw0, hw⟩ := hw
  obtain ⟨r1, ha0, ha⟩ := ha
  have ⟨_, hr, _⟩ := h
  rw [show 124 + 4 * m.toNat = 3 + (121 + 4 * m.toNat) by omega,
    run_add (run_retrieve_poll h hown hw0 ha0)]
  refine Eq.trans (run_frame ⟨.inl rfl, hr, rfl⟩ rfl hown hmode hm hl hw ha hd) ?_
  simp [rowGood, State.respond]

end Sys2Proof.Machine
end

section
/-!
SUPPORT. The host beside the engine (spec/30_encoding.md R93, R94): it looks at each step's response, so
that a run of the engine whose one response comes last is a run of the host, and RETRIEVE_BLOCKING is
polls in vain, one RETRIEVE each, and then a RETRIEVE that ends the line.
-/

namespace Sys2Proof.Machine

variable {s t : State} {h : HostRun} {l : AsmLine} {ls : List AsmLine} {r : Response} {n k : Nat}
  {wr : Answers WriteAnswer} {rr : Answers ReadAnswer}

/-! ### What the host does on a response -/

/-- While no response comes the host waits. -/
theorem receive_none (hr : t.rsp = none) : h.receive t = { h with engine := t } := by
  obtain ⟨s, ls, _ | _ | _⟩ := h <;> simp [HostRun.receive, hr]

/-- On WouldBlock RETRIEVE_BLOCKING issues RETRIEVE again (R94). -/
theorem receive_retries (hr : t.rsp = some .wouldBlock) :
    HostRun.receive ⟨s, ls, some .retrieveBlocking⟩ t =
      ⟨t.offer (encode .retrieve), ls, some .retrieveBlocking⟩ := by
  simp [HostRun.receive, hr]

/-- A response ends the line, but for a WouldBlock to RETRIEVE_BLOCKING (R93, R94). -/
theorem receive_ends (hr : t.rsp = some r) (hl : (∃ i, l = .command i) ∨ r ≠ .wouldBlock) :
    HostRun.receive ⟨s, ls, some l⟩ t = ⟨t, ls, none⟩ := by
  cases l with
  | command i => simp [HostRun.receive, hr]
  | retrieveBlocking =>
    have hb : r ≠ .wouldBlock := hl.resolve_left nofun
    cases r with
    | wouldBlock => exact absurd rfl hb
    | _ => simp [HostRun.receive, hr]

/-- Settles O55: a waiting host goes with the engine's step and does what the response asks. -/
theorem hostProgramRuns : Obligations.HostProgramRuns := by
  refine ⟨fun _ => rfl, fun _ _ _ => hostStep_issues, fun s ls l t hs => ⟨fun hr => ?_, fun hr => ?_,
    fun r hr hl => ?_⟩⟩
  · rw [hostStep_waits hs, receive_none hr]
  · rw [hostStep_waits hs, receive_retries hr]
    rfl
  · rw [hostStep_waits hs, receive_ends hr hl]

/-! ### A run of the engine as a run of the host -/

/-- A host that waits for nothing runs as the one that has issued its next line. -/
theorem runHost_issues (hn : n ≠ 0) :
    runHost n ⟨s, l :: ls, none⟩ = runHost n ⟨s.offer l.firstWord, ls, some l⟩ := by
  obtain ⟨m, rfl⟩ := Nat.exists_eq_succ_of_ne_zero hn
  rfl

/-- A run whose last step gives a response has at least that one. -/
theorem run_countResponses (h : Host.Core.run core (n + 1) s = .next t) :
    countResponses s.trace + (if t.rspValid then 1 else 0) ≤ countResponses t.trace := by
  induction n generalizing s with
  | zero =>
    obtain ⟨u, hs, hu⟩ := run_succ_next h
    cases hu
    exact (step_oneResponse hs).count.ge
  | succ n ih =>
    obtain ⟨u, hs, hu⟩ := run_succ_next h
    calc countResponses s.trace + (if t.rspValid then 1 else 0)
        ≤ countResponses u.trace + (if t.rspValid then 1 else 0) := by
          rw [(step_oneResponse hs).count]
          omega
      _ ≤ countResponses t.trace := ih hu

/-- A run of the engine whose one response comes with its last step is a run of the host that waits
for it. -/
theorem runHost_of_run (hn : n ≠ 0) (h : Host.Core.run core n s = .next t)
    (hr : t.rspValid = true) (hc : countResponses t.trace = countResponses s.trace + 1) :
    runHost n ⟨s, ls, some l⟩ = .next (HostRun.receive ⟨s, ls, some l⟩ t) := by
  induction n generalizing s with
  | zero => exact absurd rfl hn
  | succ n ih =>
    obtain ⟨u, hs, hu⟩ := run_succ_next h
    have hstep := hostStep_waits (ls := ls) (l := l) hs
    rw [runHost_succ hstep]
    rcases n with _ | n
    · cases hu
      rfl
    · have hfirst := (step_oneResponse hs).count
      have hlast := run_countResponses hu
      rw [if_pos hr] at hlast
      have hvalid : u.rspValid ≠ true := fun hv => by
        rw [if_pos hv] at hfirst
        omega
      rw [if_neg hvalid] at hfirst
      rw [receive_none (by simpa [State.rspValid] using hvalid)]
      exact ih (by omega) hu (by rw [hc, hfirst])

/-! ### The responses of a repeated trace and of a frame -/

theorem countResponses_repeat (tr : List Event) :
    countResponses (List.replicate n tr).flatten = n * countResponses tr := by
  simp [countResponses]

theorem requests_repeat (tr : List Event) :
    requests (List.replicate n tr).flatten = (List.replicate n (requests tr)).flatten := by
  simp [requests]

/-- A frame holds no response. -/
theorem countResponses_frameBody (bs : List Level) : countResponses (frameBody bs n) = 0 := by
  have hdata : countResponses (bs.flatMap dataPulse) = 0 := by
    induction bs with
    | nil => rfl
    | cons b bs ih =>
      rw [List.flatMap_cons, countResponses_append, ih]
      rfl
  have htrailing : countResponses (List.replicate n trailingPulse).flatten = 0 :=
    countResponses_repeat trailingPulse
  rw [frameBody, ← List.singleton_append, countResponses_append, countResponses_append, hdata,
    htrailing]
  rfl

/-- A RETRIEVE that runs its frame holds its own response and no other. -/
theorem countResponses_retrieve {bs : List Level} (r : Response) :
    countResponses (.accept .retrieve :: w0 :: rd .low :: frameBody bs n ++ [.respond r]) = 1 := by
  change countResponses ([.accept .retrieve, w0, rd .low] ++ frameBody bs n ++ [.respond r]) = 1
  rw [countResponses_append, countResponses_append, countResponses_frameBody]
  rfl

/-! ### RETRIEVE_BLOCKING -/

/-- What a poll in vain records (R94). -/
def missedPoll : List Event := [.accept .retrieve, w0, rd .high, .respond .wouldBlock]

theorem countResponses_missedPoll : countResponses missedPoll = 1 := rfl

theorem requests_missedPoll : requests missedPoll = [w0, rd .high] := rfl

theorem offered_retrieve (hp : s.seq.phase = .idle) (hr : s.rstPin = [])
    (hc : s.cmds = [encode .retrieve]) : Offered .retrieve [] s :=
  ⟨hp, hr, _, hc, rfl⟩

/-- One poll in vain, after which the host has offered RETRIEVE again. -/
theorem runHost_missedPoll (hp : s.seq.phase = .idle) (hr : s.rstPin = [])
    (hc : s.cmds = [encode .retrieve]) (hown : s.own = true)
    (hw : nextWrite s.writeAns = some (.ok, wr))
    (ha : nextRead s.readAns = some (.level .high, rr)) :
    runHost 3 ⟨s, ls, some .retrieveBlocking⟩ = .next
      ⟨{ s with
          sck := .low, rsp := some .wouldBlock, writeAns := wr, readAns := rr
          seq := { s.seq with op := .none, phase := .idle }
          trace := s.trace ++ missedPoll }, ls, some .retrieveBlocking⟩ := by
  have hrun := run_retrieve_missed (offered_retrieve hp hr hc) hown hw ha
  rw [runHost_of_run (by decide) hrun rfl (countResponses_append _ _), receive_retries rfl]
  simp [State.offer, missedPoll, hc]

/-- Polls in vain, one after the other. -/
theorem runHost_missedPolls (hp : s.seq.phase = .idle) (hr : s.rstPin = [])
    (hc : s.cmds = [encode .retrieve]) (hown : s.own = true)
    (hw : Yields nextWrite s.writeAns (List.replicate k .ok) wr)
    (ha : Yields nextRead s.readAns (List.replicate k (.level .high)) rr) :
    ∃ c q p, q.phase = .idle ∧ runHost (3 * k) ⟨s, ls, some .retrieveBlocking⟩ = .next
      ⟨{ s with
          sck := c, seq := q, rsp := p, writeAns := wr, readAns := rr
          trace := s.trace ++ (List.replicate k missedPoll).flatten },
        ls, some .retrieveBlocking⟩ := by
  induction k generalizing s with
  | zero =>
    cases hw
    cases ha
    exact ⟨s.sck, s.seq, s.rsp, hp, by simp [runHost_zero]⟩
  | succ k ih =>
    obtain ⟨w1, hw0, hw⟩ := hw
    obtain ⟨r1, ha0, ha⟩ := ha
    obtain ⟨c, q, p, hq, hrun⟩ := ih (s := { s with
      sck := .low, rsp := some .wouldBlock, writeAns := w1, readAns := r1
      seq := { s.seq with op := .none, phase := .idle }, trace := s.trace ++ missedPoll })
      rfl hr hc hown hw ha
    refine ⟨c, q, p, hq, ?_⟩
    rw [show 3 * (k + 1) = 3 + 3 * k by omega,
      runHost_add (runHost_missedPoll hp hr hc hown hw0 ha0), hrun]
    simp [List.replicate_succ]

/-- Settles O57: the environment that answers for ever answers `n + 1` polls. -/
theorem retrieveBlockingMayNeverEnd : Obligations.RetrieveBlockingMayNeverEnd := by
  intro s ls hp hr hc hown hw ha n
  obtain ⟨wr, hw⟩ := hw (n + 1)
  obtain ⟨rr, ha⟩ := ha (n + 1)
  obtain ⟨c, q, p, -, hrun⟩ := runHost_missedPolls (s := s.offer (encode .retrieve)) (ls := ls)
    hp hr (by simp [hc]) hown hw ha
  refine ⟨_, (runHost_issues (by omega)).trans hrun, ?_, ?_⟩
  · simp [countResponses_repeat, countResponses_missedPoll]
  · simp [requests_repeat, requests_missedPoll]

/-- Settles O56: the polls in vain, and then the RETRIEVE that has the sample. -/
theorem retrieveBlockingRetries : Obligations.RetrieveBlockingRetries := by
  intro s ls k bs wr rr d hp hr hc hown hm hl hw ha hd
  rw [Nat.add_assoc, List.replicate_add, yields_append] at hw
  obtain ⟨w1, hw1, hw⟩ := hw
  obtain ⟨r1, ha1, ha⟩ := yields_append.mp ha
  obtain ⟨c, q, p, hq, hpolls⟩ := runHost_missedPolls (s := s.offer (encode .retrieve)) (ls := ls)
    hp hr (by simp [hc]) hown hw1 ha1
  rw [runHost_issues (by omega), Nat.add_assoc]
  refine Eq.trans (runHost_add hpolls) ?_
  refine Eq.trans (runHost_of_run (by omega)
    (run_retrieve_sample (offered_retrieve hq hr (by simp [hc])) hown rfl hm hl hw ha hd) rfl
    ((countResponses_append _ _).trans (congrArg _ (countResponses_retrieve _)))) ?_
  refine congrArg _ (Eq.trans (receive_ends (r := .okValue _) rfl (.inr nofun)) ?_)
  simp [hc, missedPoll]

end Sys2Proof.Machine
end

section
/-!
SUPPORT. The lifetime of the lines (spec/40_lifecycle.md R100 to R105): NEW and DESTROY as runs of steps,
the refusal of a command outside its lifetime, and MODE, which no step of an un-owned engine reads.
-/

namespace Sys2Proof.Machine

variable {i : Instr} {ph : Phase} {b : Level} {s u : State} {x y : ModeBits}

/-! ### Commands outside their lifetime -/

/-- A well-formed command is no reserved word, so it is refused for its lifetime alone. -/
theorem refusalOf_wellFormed (hw : i.wellFormed = true) : refusalOf i = .outsideLifetime := by
  cases i with
  | setMode m => exact if_pos hw
  | reservedOp7 m => cases hw
  | reservedSetMode0 => cases hw
  | _ => rfl

/-- Settles O5: an idle engine refuses what is not legal, and the reason is the lifetime. -/
theorem commandOutsideLifetimeRefused : Obligations.CommandOutsideLifetimeRefused := by
  intro i s hw hp hl
  rw [exec_illegal hp hl, refusalOf_wellFormed hw]

/-! ### DESTROY -/

/-- Settles O43: DESTROY ends with its acceptance. -/
theorem destroyReleasesTheLines : Obligations.DestroyReleasesTheLines := by
  intro s ws h hown
  rw [run_succ (step_offered h hown), run_zero]
  simp [accepted, State.respond]

/-! ### NEW -/

/-- A write row answered with a fault ends its command. -/
theorem step_writeFault {l : Level} {e : LineErr} {rest : Answers WriteAnswer}
    (hi : s.inProgress = some i) (ho : s.seq.op ∈ phaseOps s.seq.phase) (hr : s.rstPin = [])
    (hs : s.rsp = none) (hq : s.request = some (.lineWrite l))
    (hw : nextWrite s.writeAns = some (.fault e, rest)) :
    step s = .next (State.raiseLineFault e
      { s with
        writeAns := rest, sck := Config.freeLevel s.draws, draws := s.draws + 1
        trace := s.trace ++ [.lineWrite l (.fault e)] }) := by
  rw [step_rowStep hi ho (busy_of_request hq) hr hs, rowStep, hq]
  exact congrArg _ (lineWrite_fault hw)

/-- Settles O42: the acceptance, then the row N_LOW on either answer. -/
theorem newTakesTheLines : Obligations.NewTakesTheLines := by
  intro s ws h hown
  have ⟨_, hr, _⟩ := h
  have haccept := step_offered h (show legalNow s.own .new = true by rw [hown]; rfl)
  refine ⟨fun rest hw => ?_, fun e rest hw => ⟨Config.freeLevel s.draws, s.draws + 1, ?_⟩⟩ <;>
    rw [run_succ haccept]
  · refine Eq.trans (run_succ (step_write rfl (.head _) hr rfl rfl hw)) ?_
    simp [run_zero, accepted, State.accept, rowGood, State.respond]
  · refine Eq.trans (run_succ (step_writeFault rfl (.head _) hr rfl rfl hw)) ?_
    simp [run_zero, accepted, State.accept, State.raiseLineFault, State.respond]

/-! ### MODE while OWN = 0 -/

/-- What is read for MODE while OWN = 0 does not come from the register (R105). -/
theorem modeValue_withMode (hown : s.own = false) : (s.withMode x).modeValue = s.modeValue :=
  (modeValue_unowned (s := s.withMode x) hown).trans (modeValue_unowned hown).symm

/-- The operand of a SET_MODE in progress is MODE as it is read. -/
theorem inProgress_withMode (hown : s.own = false) :
    (s.withMode x).inProgress = s.inProgress := by
  simp only [State.inProgress, modeValue_withMode hown]
  rfl

/-- The row T_WAITL compares CNT with MODE as it is read, and the other rows do not read MODE. -/
theorem rowGood_withMode_unowned (hown : s.own = false) :
    (rowGood i ph b (s.withMode x)).withMode y = (rowGood i ph b s).withMode y := by
  by_cases h : ph = .tWaitL
  · subst h
    simp only [rowGood, modeValue_withMode hown, apply_ite (State.withMode y)]
    rfl
  · exact rowGood_withMode h

theorem rowResult_withMode_unowned (hown : s.own = false) (a : Option Event) :
    (rowResult i a (s.withMode x)).withMode y = (rowResult i a s).withMode y := by
  have hgood (b : Level) (t : State) (ht : t.own = false) :
      (rowGood i s.seq.phase b (t.withMode x)).withMode y =
        (rowGood i s.seq.phase b t).withMode y := rowGood_withMode_unowned ht
  rcases a with _ | _ | ⟨l, _ | e⟩ | ⟨b | e⟩ | n | _ | _
  case some.lineWrite.ok =>
    exact hgood .low { s with sck := l, trace := s.trace ++ [.lineWrite l .ok] } hown
  case some.lineRead.level =>
    exact hgood b { s with trace := s.trace ++ [.lineRead (.level b)] } hown
  case some.delay => exact hgood .low { s with trace := s.trace ++ [.delay n] } hown
  all_goals rfl

/-- No event of a command reads the register MODE while OWN = 0. -/
theorem exec_withMode_unowned (hown : s.own = false) :
    mapNext (State.withMode y) (exec i (s.withMode x)) = mapNext (State.withMode y) (exec i s) :=
  exec_congr rfl rfl accepted_withMode (rowStep_congr rfl rfl fun a c =>
    congrArg (State.withChannels c) (rowResult_withMode_unowned hown a))

/-- A step does the same from two states, seen through `g` and `g'`, if a reset, a wait and every
event do, and the pin, SEQ, the words offered and the command in progress are the same. -/
theorem step_congr {g g' : State → State} (hpin : u.rstPin = s.rstPin) (hseq : u.seq = s.seq)
    (hcmds : u.cmds = s.cmds) (hprog : u.inProgress = s.inProgress)
    (hrst : g u.tick.takeRst = g' s.tick.takeRst) (hwait : g u.tick = g' s.tick)
    (hexec : ∀ i ws, mapNext g (exec i { u.tick with cmds := ws }) =
      mapNext g' (exec i { s.tick with cmds := ws })) :
    mapNext g (step u) = mapNext g' (step s) := by
  have hnow : u.rstNow = s.rstNow := congrArg (List.headD · false) hpin
  cases hr : s.rstNow with
  | true => rw [step_reset hr, step_reset (hnow.trans hr), mapNext_next, mapNext_next, hrst]
  | false =>
    have hru : u.rstNow = false := hnow.trans hr
    by_cases hp : s.seq.phase = .idle
    · have hpu : u.seq.phase = .idle := hseq ▸ hp
      cases hc : s.cmds with
      | nil =>
        rw [step_waits_for_command hr hp hc, step_waits_for_command hru hpu (hcmds.trans hc),
          mapNext_next, mapNext_next, hwait]
      | cons w ws =>
        cases hd : decode w with
        | error e =>
          rw [step_refuses hr hp hc hd, step_refuses hru hpu (hcmds.trans hc) hd, mapNext_refused,
            mapNext_refused]
        | ok i =>
          rw [step_accepts hr hp hc hd, step_accepts hru hpu (hcmds.trans hc) hd, hexec]
    · have hpu : u.seq.phase ≠ .idle := hseq ▸ hp
      cases hi : s.inProgress with
      | none =>
        rw [step_stops hr hp hi, step_stops hru hpu (hprog.trans hi), mapNext_fault, mapNext_fault]
      | some i =>
        rw [step_continues hr hp hi, step_continues hru hpu (hprog.trans hi)]
        exact (congrArg (fun ws => mapNext g (exec i { u.tick with cmds := ws })) hcmds).trans
          (hexec i s.cmds)

/-- Settles O31: `rst` overwrites MODE, a wait keeps it, and no event reads it. -/
theorem modeUnreadableWhileUnowned : Obligations.ModeUnreadableWhileUnowned := fun s x y hown =>
  step_congr (u := s.withMode x) (g := State.withMode y) (g' := State.withMode y) rfl rfl rfl
    (inProgress_withMode hown) rfl rfl
    fun _ ws => exec_withMode_unowned (s := { s.tick with cmds := ws }) hown

end Sys2Proof.Machine
end

section
/-!
SUPPORT. The power commands ENABLE, DISABLE and RESET as runs of steps (spec/41_power.md R110 to R115):
the acceptance and the first write, which they share, and then the rows each has of its own.
-/

namespace Sys2Proof.Machine

variable {i : Instr} {q : Request} {l a b : Level} {s : State} {ws : List CmdWord}
  {e : LineErr} {wr : Answers WriteAnswer} {rr : Answers ReadAnswer}

/-! ### A faulted read -/

/-- A read row answered with a fault ends its command; SCK keeps its level (R163). -/
theorem step_readFault (hi : s.inProgress = some i) (ho : s.seq.op ∈ phaseOps s.seq.phase)
    (hr : s.rstPin = []) (hs : s.rsp = none) (hq : s.request = some .lineRead)
    (ha : nextRead s.readAns = some (.fault e, rr)) :
    step s = .next (State.raiseLineFault e
      { s with readAns := rr, trace := s.trace ++ [.lineRead (.fault e)] }) := by
  rw [step_rowStep hi ho (busy_of_request hq) hr hs, rowStep, hq]
  exact congrArg _ (lineRead_fault ha)

/-! ### The acceptance and the first write -/

/-- The acceptance of a command that has rows, but for SET_MODE, writes SEQ alone (R33). -/
theorem accepted_eq_accept (hm : ∀ m, i ≠ .setMode m) (hq : phaseRequest (firstPhase i) = some q) :
    accepted i s = s.accept (opOf i) (firstPhase i) := by
  cases i with
  | setMode m => exact absurd rfl (hm m)
  | destroy | reservedOp7 | reservedSetMode0 => cases hq
  | _ => rfl

/-- The command accepted is the one in progress. -/
theorem inProgress_accept (hm : ∀ m, i ≠ .setMode m) (hq : phaseRequest (firstPhase i) = some q) :
    (s.accept (opOf i) (firstPhase i)).inProgress = some i := by
  cases i with
  | setMode m => exact absurd rfl (hm m)
  | reservedOp7 | reservedSetMode0 => cases hq
  | _ => rfl

/-- A command's first row is a row of its own. -/
theorem opOf_mem_firstPhase (hq : phaseRequest (firstPhase i) = some q) :
    opOf i ∈ phaseOps (firstPhase i) := by
  cases i with
  | destroy | reservedOp7 | reservedSetMode0 => cases hq
  | setMode => exact .tail _ (.head _)
  | _ => exact .head _

/-- A first write answered ok: SCK holds its level and the row goes on (R52). -/
theorem run_offered_write (h : Offered i ws s) (hl : legalNow s.own i = true)
    (hm : ∀ m, i ≠ .setMode m) (hq : phaseRequest (firstPhase i) = some (.lineWrite l))
    (hw : nextWrite s.writeAns = some (.ok, wr)) :
    Host.Core.run core 2 s = .next (rowGood i (firstPhase i) .low
      { s with
        sck := l, rsp := none, cmds := ws, writeAns := wr
        seq := { s.seq with op := opOf i, phase := firstPhase i }
        trace := s.trace ++ [.accept (opOf i), .lineWrite l .ok] }) := by
  have ⟨_, hr, _⟩ := h
  rw [run_succ (step_offered h hl), accepted_eq_accept hm hq]
  refine (run_succ (step_write (inProgress_accept (s := { s with rsp := none, cmds := ws }) hm hq)
    (opOf_mem_firstPhase hq) hr rfl hq hw)).trans ?_
  simp [run_zero, State.accept]

/-- A first write answered with a fault ends the command there (R163). -/
theorem run_offered_writeFault (h : Offered i ws s) (hl : legalNow s.own i = true)
    (hm : ∀ m, i ≠ .setMode m) (hq : phaseRequest (firstPhase i) = some (.lineWrite l))
    (hw : nextWrite s.writeAns = some (.fault e, wr)) :
    Host.Core.run core 2 s = .next
      { s with
        sck := Config.freeLevel s.draws, draws := s.draws + 1
        rsp := some (.fault e), cmds := ws, writeAns := wr
        seq := { s.seq with op := .none, phase := .idle }
        trace := s.trace ++
          [.accept (opOf i), .lineWrite l (.fault e), .respond (.fault e)] } := by
  have ⟨_, hr, _⟩ := h
  rw [run_succ (step_offered h hl), accepted_eq_accept hm hq]
  refine (run_succ (step_writeFault
    (inProgress_accept (s := { s with rsp := none, cmds := ws }) hm hq) (opOf_mem_firstPhase hq)
    hr rfl hq hw)).trans ?_
  simp [run_zero, State.accept, State.raiseLineFault, State.respond]

/-! ### ENABLE -/

/-- Settles O44: the first write is the only one. -/
theorem enableDrivesClockLow : Obligations.EnableDrivesClockLow := by
  intro s ws h hown
  refine ⟨fun rest hw => ?_, fun e rest hw => ⟨_, _, run_offered_writeFault h hown nofun rfl hw⟩⟩
  rw [run_offered_write h hown nofun rfl hw]
  simp [firstPhase, rowGood, State.respond, opOf]

/-! ### DISABLE -/

/-- Settles O45: after the first write answered ok the hold is all that is left. -/
theorem disableHoldsClockHigh : Obligations.DisableHoldsClockHigh := by
  intro s ws h hown
  refine ⟨fun rest d hw hd => ?_,
    fun e rest hw => ⟨_, _, run_offered_writeFault h hown nofun rfl hw⟩⟩
  have ⟨_, hr, _⟩ := h
  refine (run_snoc (run_offered_write h hown nofun rfl hw)
    (step_delay rfl (.head _) hr rfl rfl hd)).trans ?_
  simp [firstPhase, rowGood, State.goto, State.respond, opOf, Config.params]

/-! ### RESET -/

/-- RESET up to its first read: the clock is high (R114). -/
theorem run_reset_write (h : Offered .reset ws s) (hown : s.own = true)
    (hw : nextWrite s.writeAns = some (.ok, wr)) :
    Host.Core.run core 2 s = .next
      { s with
        sck := .high, rsp := none, cmds := ws, writeAns := wr
        seq := { s.seq with op := .reset, phase := .xRd1 }
        trace := s.trace ++ [.accept .reset, w1] } :=
  run_offered_write h hown nofun rfl hw

/-- RESET up to its second read: the first level is nowhere but in the trace (R114). -/
theorem run_reset_read (h : Offered .reset ws s) (hown : s.own = true)
    (hw : nextWrite s.writeAns = some (.ok, wr)) (ha : nextRead s.readAns = some (.level a, rr)) :
    Host.Core.run core 3 s = .next
      { s with
        sck := .high, rsp := none, cmds := ws, writeAns := wr, readAns := rr
        seq := { s.seq with op := .reset, phase := .xRd2 }
        trace := s.trace ++ [.accept .reset, w1, rd a] } := by
  have ⟨_, hr, _⟩ := h
  refine (run_snoc (run_reset_write h hown hw) (step_read rfl (.head _) hr rfl rfl ha)).trans ?_
  simp [rowGood, State.goto]

/-- RESET up to its last write (R114). -/
theorem run_reset_reads (h : Offered .reset ws s) (hown : s.own = true)
    (hw : nextWrite s.writeAns = some (.ok, wr))
    (ha : Yields nextRead s.readAns [.level a, .level b] rr) :
    Host.Core.run core 4 s = .next
      { s with
        sck := .high, rsp := none, cmds := ws, writeAns := wr, readAns := rr
        seq := { s.seq with op := .reset, phase := .xLow }
        trace := s.trace ++ [.accept .reset, w1, rd a, rd b] } := by
  have ⟨_, hr, _⟩ := h
  obtain ⟨_, ha, _, hb, rfl⟩ := ha
  refine (run_snoc (run_reset_read h hown hw ha) (step_read rfl (.head _) hr rfl rfl hb)).trans ?_
  simp [rowGood, State.goto]

/-- Settles O46: each clause is the run up to the access that decides, and that access. -/
theorem legacyResetSequence : Obligations.LegacyResetSequence := by
  intro s ws h hown
  have ⟨_, hr, _⟩ := h
  refine ⟨fun a b wr rr hw ha => ?ok,
    fun e wr hw => ⟨_, _, run_offered_writeFault h hown nofun rfl hw⟩,
    fun e wr rr hw ha => ?firstRead, fun a e wr rr hw ha => ?secondRead,
    fun a b e wr rr hw ha => ⟨Config.freeLevel s.draws, s.draws + 1, ?lastWrite⟩⟩
  case ok =>
    obtain ⟨_, hw, _, hlast, rfl⟩ := hw
    refine (run_snoc (run_reset_reads h hown hw ha)
      (step_write rfl (.head _) hr rfl rfl hlast)).trans ?_
    simp [rowGood, State.respond]
  case firstRead =>
    refine (run_snoc (run_reset_write h hown hw)
      (step_readFault rfl (.head _) hr rfl rfl ha)).trans ?_
    simp [State.raiseLineFault, State.respond]
  case secondRead =>
    obtain ⟨_, ha, _, hb, rfl⟩ := ha
    refine (run_snoc (run_reset_read h hown hw ha)
      (step_readFault rfl (.head _) hr rfl rfl hb)).trans ?_
    simp [State.raiseLineFault, State.respond]
  case lastWrite =>
    obtain ⟨_, hw, _, hlast, rfl⟩ := hw
    refine (run_snoc (run_reset_reads h hown hw ha)
      (step_writeFault rfl (.head _) hr rfl rfl hlast)).trans ?_
    simp [State.raiseLineFault, State.respond]

end Sys2Proof.Machine
end

section
/-!
SUPPORT. RETRIEVE (spec/42_retrieve.md): the number a frame reads (R129), what its poll decides (R122)
and the counts of its requests (R130).
-/

namespace Sys2Proof.Machine

variable {i : Instr} {ph : Phase} {b : Level} {s : State} {bs : List Level} {n : Nat}

/-! ### The number the levels give -/

/-- The levels after a number `v` shift it by their number (R129). -/
theorem foldl_levels (v : Nat) :
    bs.foldl (fun v b => 2 * v + levelNat b) v = 2 ^ bs.length * v + msbFirst bs := by
  induction bs generalizing v with
  | nil => simp [msbFirst]
  | cons b bs ih =>
    rw [msbFirst, List.foldl_cons, List.foldl_cons, ih, ih, List.length_cons, pow_succ]
    ring

theorem msbFirst_cons : msbFirst (b :: bs) = 2 ^ bs.length * levelNat b + msbFirst bs := by
  rw [msbFirst, List.foldl_cons, foldl_levels, Nat.mul_zero, Nat.zero_add]

theorem msbFirst_lt : msbFirst bs < 2 ^ bs.length := by
  induction bs with
  | nil => exact Nat.one_pos
  | cons b bs ih =>
    have hb : levelNat b ≤ 1 := by cases b <;> decide
    have := Nat.mul_le_mul_left (2 ^ bs.length) hb
    rw [msbFirst_cons, List.length_cons, pow_succ]
    omega

/-- The level number `k` is the binary digit that many places from the top. -/
theorem testBit_msbFirst {k : Nat} (hk : k < bs.length) :
    (msbFirst bs).testBit (bs.length - 1 - k) = true ↔ bs[k]? = some .high := by
  induction bs generalizing k with
  | nil => cases hk
  | cons b bs ih =>
    rw [msbFirst_cons, Nat.testBit_two_pow_mul_add _ msbFirst_lt]
    cases k with
    | zero => cases b <;> simp [levelNat]
    | succ k =>
      have hk : k < bs.length := Nat.lt_of_succ_lt_succ hk
      rw [if_pos (by simp only [List.length_cons]; omega), List.getElem?_cons_succ, ← ih hk,
        List.length_cons, show bs.length + 1 - 1 - (k + 1) = bs.length - 1 - k by omega]

/-- What ACC held before 24 updates is shifted out. -/
theorem toNat_foldl_orSample (a : Raw) (hl : bs.length = 24) :
    (bs.foldl (fun v b => orSample (shiftAcc v) b) a).toNat = msbFirst bs := by
  rw [← BitVec.setWidth_eq a, ← BitVec.ofNat_toNat, foldl_orSample_ofNat, foldl_levels,
    BitVec.toNat_ofNat, hl, Nat.mul_add_mod, Nat.mod_eq_of_lt (hl ▸ msbFirst_lt)]

/-- Settles O41: ACC is the number the levels give, whose binary digits they are. -/
theorem accumulationIsMsbFirst : Obligations.AccumulationIsMsbFirst := by
  intro a bs hl
  have hacc := toNat_foldl_orSample a hl
  refine ⟨hacc, fun k hk => ?_⟩
  rw [BitVec.getLsbD, hacc, ← testBit_msbFirst (hl ▸ hk), hl]

/-! ### The poll -/

/-- Acceptance answers nothing, or DESTROY's Ok. -/
theorem accepted_rsp_ne_wouldBlock (hs : s.rsp = none) :
    (accepted i s).rsp ≠ some .wouldBlock := by
  cases i <;> simp [accepted, hs]

/-- The one good row that answers WouldBlock is RETRIEVE's poll, on a high level (R122). -/
theorem rowGood_wouldBlock (h : (rowGood i ph b s).rsp = some .wouldBlock) (hs : s.rsp = none) :
    i = .retrieve ∧ ph = .gRdy ∧ b = .high := by
  cases ph with
  | gRdy =>
    cases b with
    | low => simp [rowGood, hs] at h
    | high =>
      by_cases hi : i = .retrieve
      · exact ⟨hi, rfl, rfl⟩
      · simp [rowGood, hi, hs] at h
  | bWaitL => simp only [rowGood] at h; split at h <;> simp [hs] at h
  | tWaitL =>
    simp only [rowGood] at h
    split at h
    · split at h <;> simp at h
    · simp [hs] at h
  | _ => simp [rowGood, hs] at h

/-- An event that answers WouldBlock is the read of RETRIEVE's poll, answered high. -/
theorem rowStep_wouldBlock (hs : s.rsp = none) :
    (rowStep i s).rsp = some .wouldBlock →
      i = .retrieve ∧ s.seq.phase = .gRdy ∧
        ∃ rest, nextRead s.readAns = some (.level .high, rest) := by
  have not_poll {q : Request} {b : Level} {u : State} (hq : s.request = some q)
      (hne : q ≠ .lineRead) (hu : u.rsp = none) :
      (rowGood i s.seq.phase b u).rsp ≠ some .wouldBlock := fun h => hne <| by
    obtain ⟨-, hp, -⟩ := rowGood_wouldBlock h hu
    rw [State.request, hp] at hq
    exact (Option.some.inj hq).symm
  apply rowStep_rule (P := fun t => t.rsp = some .wouldBlock → i = .retrieve ∧
    s.seq.phase = .gRdy ∧ ∃ rest, nextRead s.readAns = some (.level .high, rest))
  case wait => exact fun _ h => by simp [hs] at h
  case write => exact fun l rest hq _ h => absurd h (not_poll hq nofun hs)
  case writeFault => exact fun l e rest _ _ h => by simp at h
  case read =>
    intro b rest _ ha h
    obtain ⟨hi, hp, rfl⟩ := rowGood_wouldBlock h hs
    exact ⟨hi, hp, rest, ha⟩
  case readFault => exact fun e rest _ _ h => by simp at h
  case wait_done => exact fun n rest hq _ h => absurd h (not_poll hq nofun hs)

/-- Settles O47: the run of the poll on either level, and then the one row that answers WouldBlock. -/
theorem pollDecidesWouldBlock : Obligations.PollDecidesWouldBlock := by
  refine ⟨fun s ws wr rr h hown hw ha => run_retrieve_missed h hown hw ha,
    fun s ws wr rr h hown hw ha => run_retrieve_poll h hown hw ha, fun s t h hr => ?_⟩
  by_cases hp : s.seq.phase = .idle
  · rcases idle_step_cases hp h with ⟨_, rfl⟩ | ⟨_, _, rfl⟩ | ⟨_, w, ws, i, _, _, _, rfl⟩
    · cases hr
    · cases hr
    · exact absurd hr (accepted_rsp_ne_wouldBlock rfl)
  · rcases busy_step_cases hp h with ⟨_, rfl⟩ | ⟨_, i, hi, _, rfl⟩
    · cases hr
    · obtain ⟨rfl, hph, hread⟩ := rowStep_wouldBlock (s := s.tick) rfl hr
      exact ⟨(inProgress_opOf hi).symm, hph, hread⟩

/-! ### The whole command and its counts -/

/-- Settles O48: the poll and the frame, as runs. -/
theorem retrieveReturnsTheSample : Obligations.RetrieveReturnsTheSample :=
  fun _ _ _ _ _ _ h hown hm hl hw ha hd => run_retrieve_sample h hown rfl hm hl hw ha hd

/-- A frame holds its set-up delay, a data pulse for each level and `n` trailing pulses; `k` counts the
events of a data pulse, whatever its level. -/
theorem countP_frameBody {p : Event → Bool} {k : Nat} (hk : ∀ b, (dataPulse b).countP p = k) :
    (frameBody bs n).countP p =
      [Event.delay 1].countP p + (bs.length * k + n * trailingPulse.countP p) := by
  have hdata : (bs.flatMap dataPulse).countP p = bs.length * k := by
    simp [List.countP_flatMap, Function.comp_def, hk]
  rw [frameBody, ← List.singleton_append, List.countP_append, List.countP_append, hdata]
  simp

/-- The same for what a RETRIEVE of 24 levels records: acceptance, poll, frame and response. -/
theorem countP_retrieve {r : Response} {p : Event → Bool} {k : Nat} (hl : bs.length = 24)
    (hk : ∀ b, (dataPulse b).countP p = k) :
    (Event.accept .retrieve :: w0 :: rd .low :: frameBody bs n ++ [Event.respond r]).countP p =
      [Event.accept .retrieve, w0, rd .low].countP p + ([Event.delay 1].countP p +
        (24 * k + n * trailingPulse.countP p)) + [Event.respond r].countP p := by
  have hsplit : Event.accept .retrieve :: w0 :: rd .low :: frameBody bs n ++ [Event.respond r] =
      [.accept .retrieve, w0, rd .low] ++ frameBody bs n ++ [.respond r] := rfl
  rw [hsplit, List.countP_append, List.countP_append, countP_frameBody hk, hl]

/-- Settles O49: each count of a whole RETRIEVE is that of its poll and set-up delay, 24 times that of a
data pulse, and N times that of a trailing pulse. -/
theorem retrieveRequestCounts : Obligations.RetrieveRequestCounts := by
  refine ⟨fun s ws bs wr rr d h hown hm hl hw ha hd =>
      ⟨_, _, _, run_retrieve_sample h hown rfl hm hl hw ha hd, rfl, rfl, ?high, ?low, ?reads,
        ?delays, ?total⟩,
    fun s ws wr rr h hown hw ha => ⟨_, _, run_retrieve_missed h hown hw ha, rfl, rfl, rfl⟩⟩
  case high =>
    refine (countP_retrieve (p := (· == w1)) hl fun _ => rfl).trans ?_
    change 0 + (0 + (24 * 1 + s.mode.toNat * 1)) + 0 = _
    omega
  case low =>
    refine (countP_retrieve (p := (· == w0)) hl fun _ => rfl).trans ?_
    change 1 + (0 + (24 * 1 + s.mode.toNat * 1)) + 0 = _
    omega
  case reads =>
    refine (countP_retrieve (p := fun e => e == rd .low || e == rd .high) hl
      fun b => by cases b <;> rfl).trans ?_
    change 1 + (0 + (24 * 1 + s.mode.toNat * 0)) + 0 = _
    omega
  case delays =>
    refine (countP_retrieve (p := (· == .delay 1)) hl fun _ => rfl).trans ?_
    change 0 + (1 + (24 * 2 + s.mode.toNat * 2)) + 0 = _
    omega
  case total =>
    refine List.countP_eq_length_filter.symm.trans ((countP_retrieve hl fun _ => rfl).trans ?_)
    change 2 + (1 + (24 * 5 + s.mode.toNat * 4)) + 0 = _
    omega

end Sys2Proof.Machine
end

section
/-!
SUPPORT. RETRIEVE ends (spec/42_retrieve.md R134): the requests it still has to make in each phase, one
fewer after every answer whatever the answer is, and the channels that can serve them.
-/

namespace Sys2Proof.Machine

variable {ph : Phase} {b : Level} {s : State} {ws : List CmdWord} {n : Nat} {m : ModeBits}
  {q : Request} {qs : List Request} {c : Count} {ch : Channels}

/-! ### The requests a frame still makes -/

/-- The requests of a data pulse (R123). -/
def dataAsks : List Request := [.lineWrite .high, .delay 1, .lineRead, .lineWrite .low, .delay 1]

/-- The requests of a trailing pulse (R124). -/
def trailingAsks : List Request := [.lineWrite .high, .delay 1, .lineWrite .low, .delay 1]

/-- `FramePlan m ph c qs`: a RETRIEVE with `m` trailing pulses, in the phase `ph` with the count `c`, has
the requests `qs` still to make, if no answer ends it early. One constructor for each row of the
table of 10_state.md R31, two for the rows that end a pulse. -/
inductive FramePlan (m : ModeBits) : Phase → Count → List Request → Prop
  | gLow {c : Count} {qs : List Request} :
    FramePlan m .gRdy c qs → FramePlan m .gLow c (.lineWrite .low :: qs)
  | gRdy {c : Count} {qs : List Request} :
    FramePlan m .gSetup c qs → FramePlan m .gRdy c (.lineRead :: qs)
  | gSetup {c : Count} {qs : List Request} :
    FramePlan m .bHigh 0#5 qs → FramePlan m .gSetup c (.delay 1 :: qs)
  | bHigh {c : Count} {qs : List Request} :
    FramePlan m .bWaitH c qs → FramePlan m .bHigh c (.lineWrite .high :: qs)
  | bWaitH {c : Count} {qs : List Request} :
    FramePlan m .bSample c qs → FramePlan m .bWaitH c (.delay 1 :: qs)
  | bSample {c : Count} {qs : List Request} :
    FramePlan m .bLow c qs → FramePlan m .bSample c (.lineRead :: qs)
  | bLow {c : Count} {qs : List Request} :
    FramePlan m .bWaitL c qs → FramePlan m .bLow c (.lineWrite .low :: qs)
  | nextData {c : Count} {qs : List Request} :
    c ≠ 23#5 → FramePlan m .bHigh (c + 1#5) qs → FramePlan m .bWaitL c (.delay 1 :: qs)
  | lastData {qs : List Request} :
    FramePlan m .tHigh 0#5 qs → FramePlan m .bWaitL 23#5 (.delay 1 :: qs)
  | tHigh {c : Count} {qs : List Request} :
    FramePlan m .tWaitH c qs → FramePlan m .tHigh c (.lineWrite .high :: qs)
  | tWaitH {c : Count} {qs : List Request} :
    FramePlan m .tLow c qs → FramePlan m .tWaitH c (.delay 1 :: qs)
  | tLow {c : Count} {qs : List Request} :
    FramePlan m .tWaitL c qs → FramePlan m .tLow c (.lineWrite .low :: qs)
  | nextTrailing {c : Count} {qs : List Request} :
    c ≠ m.setWidth 5 - 1#5 → FramePlan m .tHigh (c + 1#5) qs →
      FramePlan m .tWaitL c (.delay 1 :: qs)
  | lastTrailing : FramePlan m .tWaitL (m.setWidth 5 - 1#5) [.delay 1]

/-- The trailing pulses that are left (R124). -/
theorem framePlan_trailing (hc : c.toNat + (n + 1) = m.toNat) :
    FramePlan m .tHigh c (List.replicate (n + 1) trailingAsks).flatten := by
  induction n generalizing c with
  | zero =>
    obtain rfl := (trailing_last_iff (by omega)).mpr hc
    exact .tHigh (.tWaitH (.tLow .lastTrailing))
  | succ n ih =>
    have hmore : c ≠ m.setWidth 5 - 1#5 := fun h => by
      have := (trailing_last_iff (by omega)).mp h
      omega
    exact .tHigh (.tWaitH (.tLow (.nextTrailing hmore (ih (by bv_omega)))))

/-- The data pulses that are left, and then the requests `qs` (R123). -/
theorem framePlan_data (hc : c.toNat + n = 23) (hq : FramePlan m .tHigh 0#5 qs) :
    FramePlan m .bHigh c ((List.replicate (n + 1) dataAsks).flatten ++ qs) := by
  induction n generalizing c with
  | zero =>
    obtain rfl : c = 23#5 := BitVec.eq_of_toNat_eq hc
    exact .bHigh (.bWaitH (.bSample (.bLow (.lastData hq))))
  | succ n ih =>
    have hmore : c ≠ 23#5 := fun h => by simp [h] at hc
    exact .bHigh (.bWaitH (.bSample (.bLow (.nextData hmore (ih (by bv_omega))))))

/-- The requests of a RETRIEVE with `n` trailing pulses (R121). -/
def retrieveAsks (n : Nat) : List Request :=
  .lineWrite .low :: .lineRead :: .delay 1 ::
    ((List.replicate 24 dataAsks).flatten ++ (List.replicate n trailingAsks).flatten)

theorem framePlan_retrieve (hm : m ≠ 0b00#2) : FramePlan m .gLow c (retrieveAsks m.toNat) := by
  obtain ⟨n, hn⟩ : ∃ n, m.toNat = n + 1 := Nat.exists_eq_add_one.mpr (mode_pos hm)
  rw [retrieveAsks, hn]
  exact .gLow (.gRdy (.gSetup (framePlan_data rfl (framePlan_trailing (by simp [hn])))))

theorem not_framePlan_nil : ¬ FramePlan m ph c [] := nofun

/-- A row of the frame asks the first request of its plan. -/
theorem FramePlan.head (h : FramePlan m ph c (q :: qs)) :
    phaseRequest ph = some q ∧ Op.retrieve ∈ phaseOps ph := by
  cases h <;> exact ⟨rfl, .head _⟩

/-! ### A RETRIEVE that is answered -/

/-- RETRIEVE is in progress, with `rst` low, and has the requests `qs` still to make. -/
structure Retrieving (m : ModeBits) (ws : List CmdWord) (qs : List Request) (s : State) : Prop where
  op : s.seq.op = .retrieve
  own : s.own = true
  mode : s.mode = m
  cmds : s.cmds = ws
  pin : s.rstPin = []
  rsp : s.rsp = none
  plan : FramePlan m s.seq.phase s.seq.cnt qs

/-- RETRIEVE has ended, in one of its three ways (R134). -/
structure RetrieveEnded (m : ModeBits) (ws : List CmdWord) (s : State) : Prop where
  phase : s.seq.phase = .idle
  own : s.own = true
  mode : s.mode = m
  cmds : s.cmds = ws
  rsp : s.rsp = some .wouldBlock ∨ (∃ e, s.rsp = some (.fault e)) ∨
    s.rsp = some (.okValue (extend24 s.acc))

/-- A good answer brings RETRIEVE to its end or to the rest of its plan. -/
theorem Retrieving.rowGood_cases (h : Retrieving m ws (q :: qs) s)
    (hp : s.seq.phase = ph) :
    RetrieveEnded m ws (rowGood .retrieve ph b s) ∨
      Retrieving m ws qs (rowGood .retrieve ph b s) := by
  subst hp
  obtain ⟨mo, sc, ow, ac, ⟨op, ph, ct⟩, rs, cm, wa, ra, dd, rp, tr, dr⟩ := s
  obtain ⟨hop, hown, hmode, hcmds, hpin, hrsp, hplan⟩ := h
  dsimp only at hop hown hmode hcmds hpin hrsp hplan
  subst hop hown hmode hcmds hpin hrsp
  cases hplan with
  | gRdy hplan =>
    cases b with
    | low => exact .inr ⟨rfl, rfl, rfl, rfl, rfl, rfl, hplan⟩
    | high => exact .inl ⟨rfl, rfl, rfl, rfl, .inl rfl⟩
  | nextData hc hplan =>
    simp only [rowGood, if_neg hc]
    exact .inr ⟨rfl, rfl, rfl, rfl, rfl, rfl, hplan⟩
  | nextTrailing hc hplan =>
    simp only [rowGood, State.modeValue, if_true, if_neg hc]
    exact .inr ⟨rfl, rfl, rfl, rfl, rfl, rfl, hplan⟩
  | lastTrailing =>
    simp only [rowGood, State.modeValue, if_true]
    exact .inl ⟨rfl, rfl, rfl, rfl, .inr (.inr rfl)⟩
  | gLow hplan | gSetup hplan | bHigh hplan | bWaitH hplan | bSample hplan | bLow hplan
  | lastData hplan | tHigh hplan | tWaitH hplan | tLow hplan =>
    exact .inr ⟨rfl, rfl, rfl, rfl, rfl, rfl, hplan⟩

/-- The channels have an answer to each request of the list, made one after the other. -/
def Channels.Serves : Channels → List Request → Prop
  | _, [] => True
  | ch, q :: qs => ch.answer (some q) ≠ none ∧ (ch.left (some q)).Serves qs

/-- An answered event of RETRIEVE brings it to its end or to the rest of its plan. -/
theorem Retrieving.rowStep_cases (h : Retrieving m ws (q :: qs) s)
    (ha : s.channels.answer (some q) ≠ none) :
    RetrieveEnded m ws (rowStep .retrieve s) ∨ Retrieving m ws qs (rowStep .retrieve s) := by
  have hq : s.request = some q := h.plan.head.1
  apply rowStep_rule (P := fun t => RetrieveEnded m ws t ∨ Retrieving m ws qs t)
  case wait =>
    intro hwait
    exfalso
    rw [hq] at hwait
    rcases hwait with ⟨l, hl, hn⟩ | ⟨hl, hn⟩ | ⟨n, hl, hn⟩ | hl <;> cases hl <;>
      simp [Channels.answer, State.channels, hn] at ha
  case writeFault =>
    exact fun _ e _ _ _ => .inl ⟨rfl, h.own, h.mode, h.cmds, .inr (.inl ⟨e, rfl⟩)⟩
  case readFault => exact fun e _ _ _ => .inl ⟨rfl, h.own, h.mode, h.cmds, .inr (.inl ⟨e, rfl⟩)⟩
  -- What is left are the good answers.
  all_goals
    intros
    exact Retrieving.rowGood_cases (q := q) ⟨h.op, h.own, h.mode, h.cmds, h.pin, h.rsp, h.plan⟩ rfl

/-- A RETRIEVE whose requests are answered ends, in as many steps as it has requests to make. -/
theorem Retrieving.ends (h : Retrieving m ws qs s) (hs : s.channels.Serves qs) :
    ∃ n t, n ≤ qs.length ∧ Host.Core.run core n s = .next t ∧ RetrieveEnded m ws t := by
  induction qs generalizing s with
  | nil => exact absurd h.plan not_framePlan_nil
  | cons q qs ih =>
    obtain ⟨hq, ho⟩ := h.plan.head
    have hstep : step s = .next (rowStep .retrieve s) :=
      step_rowStep (by rw [State.inProgress, h.op]) (h.op ▸ ho) (busy_of_request hq) h.pin h.rsp
    rcases h.rowStep_cases hs.1 with hend | hgo
    · exact ⟨1, _, by simp, by rw [run_succ hstep, run_zero], hend⟩
    · obtain ⟨n, t, hn, hrun, hend⟩ := ih hgo <| by
        rw [rowStep_channels, show s.request = some q from hq]
        exact hs.2
      exact ⟨n + 1, t, Nat.succ_le_succ hn, by rw [run_succ hstep, hrun], hend⟩

/-! ### The answers a RETRIEVE needs -/

section YieldsAtLeast

variable {α : Type} {next : Answers α → Option (α × Answers α)} {o : Answers α}

theorem yieldsAtLeast_succ (h : YieldsAtLeast next (n + 1) o) :
    (next o).map Prod.fst ≠ none ∧ YieldsAtLeast next n (o.rest next) := by
  obtain ⟨as, o', hl, hy⟩ := h
  obtain ⟨a, as, rfl⟩ := List.exists_cons_of_length_eq_add_one hl
  obtain ⟨o1, ho, hy⟩ := hy
  refine ⟨by simp [ho], as, o', by simpa using hl, ?_⟩
  rwa [Answers.rest, ho]

theorem YieldsAtLeast.mono {k : Nat} (h : YieldsAtLeast next n o) (hk : k ≤ n) :
    YieldsAtLeast next k o := by
  obtain ⟨as, o', hl, hy⟩ := h
  rw [← List.take_append_drop k as, yields_append] at hy
  obtain ⟨o1, hy, -⟩ := hy
  exact ⟨as.take k, o1, by simp [hl, hk], hy⟩

end YieldsAtLeast

/-- A request on the clock line (R52). -/
def Request.isWrite : Request → Bool
  | .lineWrite _ => true
  | .lineRead => false
  | .delay _ => false

/-- A request on the data line (R53). -/
def Request.isRead : Request → Bool
  | .lineWrite _ => false
  | .lineRead => true
  | .delay _ => false

/-- A request on the delay port (R54). -/
def Request.isDelay : Request → Bool
  | .lineWrite _ => false
  | .lineRead => false
  | .delay _ => true

/-- Channels with as many answers each as the list has requests to it serve the list. -/
theorem serves_of_yieldsAtLeast
    (hw : YieldsAtLeast nextWrite (qs.countP Request.isWrite) ch.write)
    (hr : YieldsAtLeast nextRead (qs.countP Request.isRead) ch.read)
    (hd : YieldsAtLeast nextDelay (qs.countP Request.isDelay) ch.delay) : ch.Serves qs := by
  induction qs generalizing ch with
  | nil => trivial
  | cons q qs ih =>
    cases q with
    | lineWrite l =>
      rw [List.countP_cons_of_pos rfl] at hw
      rw [List.countP_cons_of_neg Bool.false_ne_true] at hr hd
      obtain ⟨ha, hw⟩ := yieldsAtLeast_succ hw
      exact ⟨by simpa [Channels.answer] using ha, ih hw hr hd⟩
    | lineRead =>
      rw [List.countP_cons_of_pos rfl] at hr
      rw [List.countP_cons_of_neg Bool.false_ne_true] at hw hd
      obtain ⟨ha, hr⟩ := yieldsAtLeast_succ hr
      exact ⟨by simpa [Channels.answer] using ha, ih hw hr hd⟩
    | delay k =>
      rw [List.countP_cons_of_pos rfl] at hd
      rw [List.countP_cons_of_neg Bool.false_ne_true] at hw hr
      obtain ⟨ha, hd⟩ := yieldsAtLeast_succ hd
      exact ⟨by simpa [Channels.answer] using ha, ih hw hr hd⟩

/-- RETRIEVE's requests that `p` counts. -/
theorem countP_retrieveAsks (p : Request → Bool) : (retrieveAsks n).countP p =
    [Request.lineWrite .low, .lineRead, .delay 1].countP p +
      (24 * dataAsks.countP p + n * trailingAsks.countP p) := by
  have hsplit (qs : List Request) : Request.lineWrite .low :: .lineRead :: .delay 1 :: qs =
      [.lineWrite .low, .lineRead, .delay 1] ++ qs := rfl
  rw [retrieveAsks, hsplit, List.countP_append, List.countP_append, List.countP_flatten,
    List.countP_flatten, List.map_replicate, List.map_replicate, List.sum_replicate,
    List.sum_replicate, smul_eq_mul, smul_eq_mul]

theorem length_retrieveAsks : (retrieveAsks n).length = 123 + 4 * n := by
  rw [← List.countP_true, countP_retrieveAsks]
  simp only [List.countP_true, dataAsks, trailingAsks, List.length_cons, List.length_nil]
  omega

/-- 55 clock-line answers, 25 data-line answers and 55 delay completions are enough for a RETRIEVE with
at most 3 trailing pulses (R134). -/
theorem serves_retrieveAsks (hn : n ≤ 3) (hw : YieldsAtLeast nextWrite 55 ch.write)
    (hr : YieldsAtLeast nextRead 25 ch.read) (hd : YieldsAtLeast nextDelay 55 ch.delay) :
    ch.Serves (retrieveAsks n) := by
  apply serves_of_yieldsAtLeast
  · refine hw.mono ((countP_retrieveAsks _).trans_le ?_)
    change 1 + (24 * 2 + n * 2) ≤ 55
    omega
  · exact hr.mono (countP_retrieveAsks _).le
  · refine hd.mono ((countP_retrieveAsks _).trans_le ?_)
    change 1 + (24 * 2 + n * 2) ≤ 55
    omega

/-- Settles O50: the acceptance and the requests of the plan, of which there are at most 135. -/
theorem retrieveAlwaysEnds : Obligations.RetrieveAlwaysEnds := by
  intro s ws h hown hm hw hr hd
  have hm3 : s.mode.toNat ≤ 3 := Nat.le_of_lt_succ s.mode.isLt
  have ⟨_, hpin, _⟩ := h
  have hstart : Retrieving s.mode ws (retrieveAsks s.mode.toNat)
      (accepted .retrieve { s with rsp := none, cmds := ws }) :=
    ⟨rfl, hown, rfl, rfl, hpin, rfl, framePlan_retrieve hm⟩
  obtain ⟨n, t, hn, hrun, hend⟩ := hstart.ends (serves_retrieveAsks hm3 hw hr hd)
  rw [length_retrieveAsks] at hn
  exact ⟨n + 1, t, by omega, (run_succ (step_offered h hown)).trans hrun, hend.phase, hend.cmds,
    hend.mode, hend.own, hend.rsp⟩

end Sys2Proof.Machine
end

section
/-!
SUPPORT. SET_MODE (spec/43_set_mode.md): its polls as runs of steps, which may have no end (R141, R144),
the one frame behind them (R145, R146), and MODE, which holds the operand from the acceptance on (R142).
-/

namespace Sys2Proof.Machine

variable {i : Instr} {ph : Phase} {b : Level} {s t : State} {ws : List CmdWord} {n : Nat}
  {m : ModeBits} {wr : Answers WriteAnswer} {rr : Answers ReadAnswer}

/-! ### The polls -/

/-- SET_MODE with an operand that names a Mode is legal while the engine owns the lines (R100). -/
theorem legalNow_setMode (hown : s.own = true) (hm : m ≠ 0b00#2) :
    legalNow s.own (.setMode m) = true := by
  simp [legalNow, hown, isMode, hm]

/-- One poll: W0, and the read that decides, with no delay between them (R141). The operand is free:
it plays no part in the poll. -/
theorem run_setMode_poll (hf : InFrame s) (hop : s.seq.op = .setMode) (hp : s.seq.phase = .gLow)
    (hw : nextWrite s.writeAns = some (.ok, wr)) (ha : nextRead s.readAns = some (.level b, rr)) :
    Host.Core.run core 2 s = .next (rowGood (.setMode m) .gRdy b
      { s with
        sck := .low, writeAns := wr, readAns := rr, seq := { s.seq with phase := .gRdy }
        trace := s.trace ++ [w0, rd b] }) := by
  obtain ⟨mo, sc, ow, ac, ⟨op, ph, ct⟩, rs, cm, wa, ra, dd, rp, tr, dr⟩ := s
  obtain ⟨-, hpin, hrsp⟩ := hf
  dsimp only at hop hp hpin hrsp hw ha
  subst hop hp hpin hrsp
  rw [run_succ (step_write rfl (.tail _ (.head _)) rfl rfl rfl hw)]
  refine (run_succ (step_read rfl (.tail _ (.head _)) rfl rfl rfl ha)).trans ?_
  cases b <;> simp [run_zero, rowGood, State.goto]

/-- After its acceptance and any number of polls in vain SET_MODE is about to poll (R144). SCK is low,
but for the case of no poll, in which it is what it was. -/
theorem run_setMode_missedPolls (h : Offered (.setMode m) ws s) (hown : s.own = true)
    (hm : m ≠ 0b00#2) (hw : Yields nextWrite s.writeAns (List.replicate n .ok) wr)
    (ha : Yields nextRead s.readAns (List.replicate n (.level .high)) rr) :
    ∃ l, Host.Core.run core (1 + 2 * n) s = .next
      { s with
        mode := m, sck := l, rsp := none, cmds := ws, writeAns := wr, readAns := rr
        seq := { s.seq with op := .setMode, phase := .gLow }
        trace := s.trace ++ (.accept .setMode :: (List.replicate n [w0, rd .high]).flatten) } := by
  induction n generalizing wr rr with
  | zero =>
    cases hw
    cases ha
    exact ⟨s.sck, run_succ (step_offered h (legalNow_setMode hown hm))⟩
  | succ n ih =>
    have ⟨_, hpin, _⟩ := h
    rw [List.replicate_succ', yields_append] at hw ha
    obtain ⟨w1, hw, _, hwlast, rfl⟩ := hw
    obtain ⟨r1, ha, _, halast, rfl⟩ := ha
    obtain ⟨l, hrun⟩ := ih hw ha
    refine ⟨.low, ?_⟩
    rw [show 1 + 2 * (n + 1) = 1 + 2 * n + 2 by omega, run_add hrun]
    refine Eq.trans (run_setMode_poll (m := m) ⟨.inr rfl, hpin, rfl⟩ rfl rfl hwlast halast) ?_
    simp [List.replicate_succ', rowGood, State.goto]

/-- Settles O52: the polls in vain, as a run. -/
theorem setModePollsForever : Obligations.SetModePollsForever :=
  fun _ _ _ _ _ _ h hown hm hw ha => run_setMode_missedPolls h hown hm hw ha

/-- Settles O53: the environment that answers for ever answers `n` polls. -/
theorem setModeNeverEnds : Obligations.SetModeNeverEnds := by
  intro s ws m h hown hm hw ha n
  obtain ⟨wr, hw⟩ := hw n
  obtain ⟨rr, ha⟩ := ha n
  obtain ⟨l, hrun⟩ := run_setMode_missedPolls h hown hm hw ha
  refine ⟨_, hrun, rfl, rfl, rfl, rfl, rfl, ?_⟩
  rw [requests_append]
  exact congrArg _ (requests_repeat [w0, rd .high])

/-! ### The frame -/

/-- Settles O51: the polls in vain, the poll that reads low, and the frame. -/
theorem setModeRunsOneFrame : Obligations.SetModeRunsOneFrame := by
  intro s ws m k bs wr rr d h hown hm hl hw ha hd
  have ⟨_, hpin, _⟩ := h
  rw [show k + 49 + 2 * m.toNat = k + (48 + 2 * m.toNat + 1) by omega, List.replicate_add,
    yields_append, List.replicate_succ] at hw
  obtain ⟨w1, hwpolls, w2, hwlow, hwframe⟩ := hw
  rw [yields_append] at ha
  obtain ⟨r1, hapolls, r2, halow, haframe⟩ := ha
  obtain ⟨l, hpolls⟩ := run_setMode_missedPolls h hown hm hwpolls hapolls
  rw [show 2 * k + 124 + 4 * m.toNat = 1 + 2 * k + (2 + (121 + 4 * m.toNat)) by omega,
    run_add hpolls]
  refine Eq.trans (run_add (run_setMode_poll (m := m) ⟨.inr rfl, hpin, rfl⟩ rfl rfl hwlow halow)) ?_
  refine Eq.trans (run_frame ⟨.inr rfl, hpin, rfl⟩ rfl hown rfl hm hl hwframe haframe hd) ?_
  simp [rowGood, State.respond]

/-! ### MODE from the acceptance on -/

/-- No row leads to NEW's row. -/
theorem rowGood_phase_ne_nLow (hp : ph ≠ .idle) : (rowGood i ph b s).seq.phase ≠ .nLow := by
  cases ph with
  | idle => exact absurd rfl hp
  | gRdy =>
    cases b with
    | low => nofun
    | high => simp only [rowGood]; split <;> nofun
  | bWaitL | tWaitL => simp only [rowGood]; split <;> nofun
  | _ => nofun

/-- Outside NEW's row no event leads to it, a wait included. -/
theorem rowStep_phase_ne_nLow (hp : s.seq.phase ≠ .nLow) : (rowStep i s).seq.phase ≠ .nLow := by
  apply rowStep_rule (P := fun t => t.seq.phase ≠ .nLow)
  case wait => exact fun _ => hp
  case writeFault | readFault => intros; nofun
  case write => exact fun _ _ hq _ => rowGood_phase_ne_nLow (busy_of_request hq)
  case read => exact fun _ _ hq _ => rowGood_phase_ne_nLow (busy_of_request hq)
  case wait_done => exact fun _ _ hq _ => rowGood_phase_ne_nLow (busy_of_request hq)

/-- Since SET_MODE `m` was accepted with the words `ws` behind it, `rst` has stayed low, and either a
further word has been taken or MODE is `m` and no NEW is in progress, which alone could write it. -/
structure ModeStored (m : ModeBits) (ws : List CmdWord) (s : State) : Prop where
  pin : s.rstPin = []
  stored : s.cmds.length < ws.length ∨ (s.cmds = ws ∧ s.seq.phase ≠ .nLow ∧ s.mode = m)

/-- The acceptance of SET_MODE stores its operand (R33, R142). -/
theorem modeStored_accepted (hpin : s.rstPin = []) (hcmds : s.cmds = ws) :
    ModeStored m ws (accepted (.setMode m) s) :=
  ⟨hpin, .inr ⟨hcmds, nofun, rfl⟩⟩

/-- A wait leaves MODE alone, an acceptance takes a word, and no row but NEW's writes MODE. -/
theorem ModeStored.step (h : ModeStored m ws s) (hs : step s = .next t) : ModeStored m ws t := by
  obtain ⟨hpin, hstored⟩ := h
  have hrst : s.rstNow ≠ true := by simp [rstNow_of_empty hpin]
  by_cases hp : s.seq.phase = .idle
  · rcases idle_step_cases hp hs with ⟨hr, _⟩ | ⟨_, _, rfl⟩ | ⟨_, w, ws', i, hc, _, _, rfl⟩
    · exact absurd hr hrst
    · exact ⟨by simp [hpin], hstored⟩
    · refine ⟨by simp [hpin], .inl ?_⟩
      have hlen : s.cmds.length ≤ ws.length := by
        rcases hstored with hlt | ⟨rfl, -, -⟩
        · exact hlt.le
        · exact le_rfl
      rw [hc] at hlen
      simpa using hlen
  · rcases busy_step_cases hp hs with ⟨hr, _⟩ | ⟨_, i, _, _, rfl⟩
    · exact absurd hr hrst
    · refine ⟨rowStep_frame.rstPin.trans (by simp [hpin]), ?_⟩
      rw [rowStep_cmds]
      refine hstored.imp_right fun ⟨hcmds, hnew, hmode⟩ => ⟨hcmds, ?_, ?_⟩
      · exact rowStep_phase_ne_nLow (s := s.tick) hnew
      · exact ((rowStep_mode (s := s.tick)).resolve_right fun hn => hnew hn.1).trans hmode

/-- The acceptance of SET_MODE `m` begins what every later step keeps (R142). -/
theorem run_setMode_stored (h : Offered (.setMode m) ws s)
    (hrun : Host.Core.run core (n + 1) s = .next t) : ModeStored m ws t := by
  have ⟨hp, hpin, w, hc, hd⟩ := h
  obtain ⟨u, hs, hrun⟩ := run_succ_next hrun
  rw [step_accepts (rstNow_of_empty hpin) hp hc hd] at hs
  rcases exec_next_cases hs with ⟨_, _, rfl⟩ | ⟨hb, _⟩
  · exact run_keeps (fun _ _ => ModeStored.step) (modeStored_accepted (by simp [hpin]) rfl) hrun
  · exact absurd hp hb

/-- Settles O54: the first clause by what every step keeps, the second by the line fault, which leaves
MODE as it stands. -/
theorem setModeStoresModeFirst : Obligations.SetModeStoresModeFirst := by
  refine ⟨fun s ws m n t h _ hrun hcmds => ?_, fun s e _ ho hr hfault => ?_⟩
  · rcases (run_setMode_stored h hrun).stored with hlt | ⟨-, -, hmode⟩
    · exact absurd (congrArg List.length hcmds) hlt.ne
    · exact hmode
  · rcases hfault with ⟨l, rest, hq, hw⟩ | ⟨rest, hq, ha⟩ <;>
      obtain ⟨i, -, -, hs⟩ := step_row ho (busy_of_request hq) hr
    · rw [hs, rowStep_lineWrite (s := s.tick) hq, lineWrite_fault (s := s.tick) hw]
      exact ⟨_, rfl, rfl, rfl⟩
    · rw [hs, rowStep_lineRead (s := s.tick) hq, lineRead_fault (s := s.tick) ha]
      exact ⟨_, rfl, rfl, rfl⟩

end Sys2Proof.Machine
end

section
/-!
SUPPORT. The sign-extension unit (spec/44_extend24.md): extend24 as eight copies of bit 23 above the
24 bits. That it is the library's sign extension, and its low 24 bits and signed value, follow from
that form; every law of the unit is read off from these.
-/

namespace Sys2Proof.Machine

/-- The constant OR of R150 is eight copies of bit 23 put above `x`. -/
theorem extend24_eq_append (x : Raw) :
    extend24 x = (if x.getLsbD 23 then 0xFF#8 else 0x00#8) ++ x := by
  have happend (c : BitVec 8) : c ++ x = c.setWidth 32 <<< 24 ||| x.setWidth 32 :=
    (BitVec.setWidth_eq _).symm.trans BitVec.setWidth_append_eq_shiftLeft_setWidth_or
  unfold extend24
  split <;> simp [happend]

theorem extend24_eq_signExtend (x : Raw) : extend24 x = x.signExtend 32 := by
  rw [extend24_eq_append, BitVec.signExtend_eq_append_of_le (by decide),
    BitVec.msb_eq_getLsbD_last]
  rfl

@[simp] theorem setWidth_extend24 (x : Raw) : (extend24 x).setWidth 24 = x := by
  rw [extend24_eq_append, BitVec.setWidth_append_eq_right]

theorem extend24_injective : Function.Injective extend24 :=
  Function.LeftInverse.injective setWidth_extend24

@[simp] theorem toInt_extend24 (x : Raw) : (extend24 x).toInt = x.toInt := by
  rw [extend24_eq_signExtend, BitVec.toInt_signExtend_of_le (by decide)]

/-- Settles O37: the two branches of the definition, then the two forms of the whole. -/
theorem extend24IsSignExtension : Obligations.Extend24IsSignExtension := fun x =>
  ⟨fun h => if_pos h, fun h => if_neg (Bool.eq_false_iff.mp h), extend24_eq_signExtend x,
    extend24_eq_append x⟩

/-- Settles O38: the signed value is that of the 24-bit vector, which turns at `2 ^ 23`. -/
theorem extend24SignedValue : Obligations.Extend24SignedValue := by
  intro x
  rw [toInt_extend24, BitVec.toInt_eq_toNat_cond]
  constructor <;> intro h
  · exact if_pos (by omega)
  · exact if_neg (by omega)

/-- Settles O39: the range is that of a 24-bit signed value, the low 24 bits give back the input,
and the ends are reached at 0x7FFFFF and 0x800000. -/
theorem extend24RangeAndInjective : Obligations.Extend24RangeAndInjective := by
  refine ⟨fun x => ?_, fun _ _ h => extend24_injective h, setWidth_extend24,
    ⟨0x7FFFFF#24, by decide⟩, ⟨0x800000#24, by decide⟩⟩
  rw [toInt_extend24]
  exact ⟨x.le_toInt, Int.lt_add_one_iff.mp x.toInt_lt⟩

end Sys2Proof.Machine
end

section
/-!
SUPPORT. The one exception and the request without an answer (spec/60_exceptions.md R163, R172): the line
fault ends the command of its row and leaves the rest as it stood, and an engine whose request has no answer to
come steps to itself.
-/

namespace Sys2Proof.Machine

variable {i : Instr} {s : State} {n : Nat}

/-! ### The line fault -/

/-- Taking the exception makes no request beside the faulting one (R163). -/
theorem raiseLineFault_requests (s : State) (e : LineErr) :
    requests (s.raiseLineFault e).trace = requests s.trace :=
  (requests_append ..).trans (List.append_nil _)

/-- Nor does it leave a request outstanding: the engine is idle. -/
theorem raiseLineFault_request (s : State) (e : LineErr) :
    (s.raiseLineFault e).request = none :=
  request_eq_none.mpr rfl

/-- Settles O13: a faulted write and a faulted read are each the line fault, which writes SEQ, the
response channel and the trace alone; the draw for SCK belongs to the write. -/
theorem lineFaultEndsCommand : Obligations.LineFaultEndsCommand := by
  refine ⟨fun s l e rest ho hr hq hw => ?_, fun s e rest ho hr hq ha => ?_, fun _ => rfl⟩ <;>
    obtain ⟨i, -, -, hs⟩ := step_row ho (busy_of_request hq) hr
  · rw [hs, rowStep_lineWrite (s := s.tick) hq, lineWrite_fault (s := s.tick) hw]
    exact ⟨_, rfl, rfl, rfl, raiseLineFault_request .., rfl, rfl, rfl, rfl, rfl, rfl, rfl,
      (raiseLineFault_requests ..).trans (requests_append ..)⟩
  · rw [hs, rowStep_lineRead (s := s.tick) hq, lineRead_fault (s := s.tick) ha]
    exact ⟨_, rfl, rfl, rfl, raiseLineFault_request .., rfl, rfl, rfl, rfl, rfl, rfl, rfl, rfl,
      (raiseLineFault_requests ..).trans (requests_append ..)⟩

/-! ### The request without an answer -/

/-- The request outstanding has no answer to come (R172). -/
def Unanswered (s : State) : Prop :=
  (∃ l, s.request = some (.lineWrite l) ∧ nextWrite s.writeAns = none) ∨
    (s.request = some .lineRead ∧ nextRead s.readAns = none) ∨
    (∃ n, s.request = some (.delay n) ∧ nextDelay s.delayAns = none)

theorem Unanswered.busy (h : Unanswered s) : s.seq.phase ≠ .idle := by
  rcases h with ⟨_, hq, -⟩ | ⟨hq, -⟩ | ⟨_, hq, -⟩ <;> exact busy_of_request hq

/-- A row whose request is not answered waits where it is. -/
theorem Unanswered.rowStep_eq (h : Unanswered s) : rowStep i s = s := by
  rcases h with ⟨l, hq, hw⟩ | ⟨hq, ha⟩ | ⟨n, hq, hd⟩
  · rw [rowStep_lineWrite hq, lineWrite_waiting hw]
  · rw [rowStep_lineRead hq, lineRead_waiting ha]
  · rw [rowStep_delay hq, delay_waiting hd]

/-- A step that changes nothing is taken for ever. -/
theorem run_of_step_self (h : step s = .next s) : Host.Core.run core n s = .next s := by
  induction n with
  | zero => exact run_zero
  | succ n ih => exact (run_succ h).trans ih

/-- Settles O17: the row waits, so the step leads back to its own state. -/
theorem unansweredRequestWaitsForever : Obligations.UnansweredRequestWaitsForever := by
  intro s n ho hpin hrsp (hwait : Unanswered s)
  obtain ⟨i, -, -, hs⟩ := step_row ho hwait.busy (rstNow_of_empty hpin)
  rw [tick_eq_self hpin hrsp, hwait.rowStep_eq] at hs
  exact run_of_step_self hs

end Sys2Proof.Machine
end

section
/-!
SUPPORT. The reset pin (spec/70_reset_and_hazards.md R190, R192): a step with `rst` high leaves an idle engine,
which raises no request output, and adds to the trace an event that is neither a request nor a response.
-/

namespace Sys2Proof.Machine

variable {s : State}

/-! ### The request outputs of an idle engine -/

/-- An engine without an outstanding request holds every request output at 0 (R190). -/
theorem requestOutputs_of_no_request (hq : s.request = none) :
    s.sckReq = false ∧ s.doutReq = false ∧ s.dlyReq = false := by
  simp [State.sckReq, State.doutReq, State.dlyReq, hq]

/-! ### What `rst` leaves -/

/-- `rst` withdraws the outstanding request: the engine is idle (R192). -/
theorem takeRst_request (s : State) : s.takeRst.request = none :=
  request_eq_none.mpr rfl

/-- `rst` neither makes a request nor answers one. -/
theorem takeRst_requests (s : State) : requests s.takeRst.trace = requests s.trace :=
  (requests_append ..).trans (List.append_nil _)

/-- The command that `rst` abandons is not answered (R192). -/
theorem takeRst_countResponses (s : State) :
    countResponses s.takeRst.trace = countResponses s.trace :=
  countResponses_append ..

/-- Settles O19: the step is `rst` alone, which no event of the command precedes. -/
theorem resetPinAbandonsCommand : Obligations.ResetPinAbandonsCommand := by
  intro s hr
  obtain ⟨hsck, hdout, hdly⟩ := requestOutputs_of_no_request (takeRst_request s.tick)
  exact ⟨s.tick.takeRst, step_reset hr, rfl, rfl, rfl, rfl, hsck, hdout, hdly, rfl,
    takeRst_requests s.tick, takeRst_countResponses s.tick, rfl, rfl, rfl⟩

end Sys2Proof.Machine
end

section
/-!
SUPPORT. The engine's invariant (spec/10_state.md R20 to R32): an engine that has just become idle has
it whatever the line and the counter hold, acceptance enters a first phase, and a good row goes on to
the next phase of its command with CNT in the range of that phase.
-/

namespace Sys2Proof.Machine

variable {i : Instr} {op : Op} {ph p : Phase} {b : Level} {r : Response} {s t u : State}

/-! ### An idle engine -/

/-- For an idle engine the invariant says that no command is in progress and, where it owns the lines,
that MODE is one of the three Modes. -/
theorem engineInv_of_idle (hop : s.seq.op = .none) (hp : s.seq.phase = .idle)
    (hmode : s.own = true → s.mode ≠ 0b00#2) (hpend : pendingOp s.trace = .none) : EngineInv s where
  row := by rw [hop, hp]; exact List.mem_singleton_self _
  newUnowned := by simp [hop]
  otherOwned := by simp [hop]
  modeLegal := hmode
  dataCount := by simp [hp, isDataPhase]
  trailingCount := by simp [hp, isTrailingPhase]
  level := by simp [hp, heldLevel]
  pending := hpend.trans hop.symm

/-- A response ends the command in progress. -/
theorem pendingOp_respond (tr : List Event) (r : Response) :
    pendingOp (tr ++ [.respond r]) = .none :=
  pendingOp_append ..

theorem respond_inv (hmode : s.own = true → s.mode ≠ 0b00#2) : EngineInv (s.respond r) :=
  engineInv_of_idle rfl rfl hmode (pendingOp_respond ..)

theorem takeRst_inv (s : State) : EngineInv s.takeRst :=
  engineInv_of_idle rfl rfl nofun (pendingOp_append ..)

/-- Settles O21: the engine after reset is idle and un-owned, and has driven no level. -/
theorem invariantsHoldAtReset : Obligations.InvariantsHoldAtReset :=
  ⟨engineInv_of_idle rfl rfl nofun rfl, nofun, idleClock_of_not nofun⟩

/-! ### Acceptance -/

/-- A phase before the command's first write and before its pulses: the invariant says nothing about
the clock line and about CNT there. -/
structure OpeningPhase (p : Phase) : Prop where
  held : heldLevel p = none
  data : isDataPhase p = false
  trailing : isTrailingPhase p = false

theorem accept_inv (hrow : op ∈ phaseOps p) (hopen : OpeningPhase p)
    (hnew : op = .new → s.own = false) (hother : op ≠ .new → s.own = true)
    (hmode : s.own = true → s.mode ≠ 0b00#2) : EngineInv (s.accept op p) where
  row := hrow
  newUnowned := hnew
  otherOwned := fun _ => hother
  modeLegal := hmode
  dataCount := by simp [hopen.data]
  trailingCount := by simp [hopen.trailing]
  level := by simp [hopen.held]
  pending := pendingOp_append ..

/-- The acceptance of a legal command keeps the invariant: NEW finds the engine un-owned, the others
find it owned, and the operand of SET_MODE is a Mode. -/
theorem accepted_inv (hi : EngineInv s) (hl : legalNow s.own i = true) :
    EngineInv (accepted i s) := by
  have hmode := hi.modeLegal
  cases i with
  | new =>
    exact accept_inv (by decide) ⟨rfl, rfl, rfl⟩ (fun _ => by simpa [legalNow] using hl) nofun hmode
  | enable | disable | retrieve | reset =>
    exact accept_inv (by decide) ⟨rfl, rfl, rfl⟩ nofun (fun _ => hl) hmode
  | setMode m =>
    obtain ⟨hown, hm⟩ : s.own = true ∧ m ≠ 0b00#2 := by simpa [legalNow, isMode] using hl
    exact accept_inv (by decide) ⟨rfl, rfl, rfl⟩ nofun (fun _ => hown) (fun _ => hm)
  | destroy => exact respond_inv nofun
  | reservedOp7 m => cases hl
  | reservedSetMode0 => cases hl

/-! ### A good row -/

/-- `u` is the engine `s` once its request is answered well: the answer moves no register but SCK,
which it leaves where the command has put the line by then. -/
structure AnsweredWell (s u : State) : Prop where
  seq : u.seq = s.seq
  own : u.own = s.own
  mode : u.mode = s.mode
  pending : pendingOp u.trace = pendingOp s.trace
  level : ∀ l, levelAfter s.seq.phase = some l → u.sck = l

/-- The phase `p` can come after the row `ph` of the same command. -/
structure Follows (ph p : Phase) : Prop where
  rows : phaseOps p = phaseOps ph
  held : heldLevel p = none ∨ heldLevel p = levelAfter ph

/-- `t` is `u` with the command gone on: PHASE, CNT and ACC may be others. -/
structure GoesOn (u t : State) : Prop where
  op : t.seq.op = u.seq.op
  own : t.own = u.own
  mode : t.mode = u.mode
  sck : t.sck = u.sck
  trace : t.trace = u.trace

/-- A command that goes on keeps the invariant if CNT is in the range of the phase it goes on to. -/
theorem EngineInv.goesOn (hi : EngineInv s) (hu : AnsweredWell s u) (ht : GoesOn u t)
    (hf : Follows s.seq.phase t.seq.phase)
    (hdata : isDataPhase t.seq.phase = true → t.seq.cnt.toNat < 24)
    (htrailing : isTrailingPhase t.seq.phase = true → t.seq.cnt.toNat < s.mode.toNat) :
    EngineInv t := by
  have hop : t.seq.op = s.seq.op := ht.op.trans (congrArg Seq.op hu.seq)
  have hown : t.own = s.own := ht.own.trans hu.own
  have hmode : t.mode = s.mode := ht.mode.trans hu.mode
  exact {
    row := by rw [hop, hf.rows]; exact hi.row
    newUnowned := by rw [hop, hown]; exact hi.newUnowned
    otherOwned := by rw [hop, hown]; exact hi.otherOwned
    modeLegal := by rw [hown, hmode]; exact hi.modeLegal
    dataCount := hdata
    trailingCount := by rw [hmode]; exact htrailing
    level := fun l hl => by
      rcases hf.held with h | h
      · cases h.symm.trans hl
      · exact ht.sck.trans (hu.level l (h.symm.trans hl))
    pending := by rw [ht.trace, hu.pending, hop]; exact hi.pending }

/-- A row that leaves CNT alone goes on inside its part of the frame. -/
theorem EngineInv.goesOn_of_cnt (hi : EngineInv s) (hu : AnsweredWell s u) (ht : GoesOn u t)
    (hf : Follows s.seq.phase t.seq.phase) (hcnt : t.seq.cnt = u.seq.cnt)
    (hdata : isDataPhase t.seq.phase = true → isDataPhase s.seq.phase = true)
    (htrailing : isTrailingPhase t.seq.phase = true → isTrailingPhase s.seq.phase = true) :
    EngineInv t := by
  have hc : t.seq.cnt = s.seq.cnt := hcnt.trans (congrArg Seq.cnt hu.seq)
  refine hi.goesOn hu ht hf ?_ ?_ <;> rw [hc]
  · exact fun h => hi.dataCount (hdata h)
  · exact fun h => hi.trailingCount (htrailing h)

/-- RETRIEVE and SET_MODE run in an owned engine. -/
theorem EngineInv.frame_owned (hi : EngineInv s) (ho : s.seq.op ∈ [Op.retrieve, .setMode]) :
    s.own = true := by
  rcases List.mem_pair.mp ho with ho | ho <;> exact hi.otherOwned (by simp [ho]) (by simp [ho])

/-- After the last data pulse CNT starts the trailing pulses, of which there is one at least; before it
CNT is still below 24. -/
theorem rowGood_bWaitL_inv (hi : EngineInv s) (hp : s.seq.phase = .bWaitL) (hu : AnsweredWell s u) :
    EngineInv (rowGood i .bWaitL b u) := by
  have hown : s.own = true := hi.frame_owned (by simpa [hp, phaseOps] using hi.row)
  have hc : s.seq.cnt.toNat < 24 := hi.dataCount (by rw [hp]; rfl)
  simp only [rowGood]
  split
  · refine hi.goesOn hu ⟨rfl, rfl, rfl, rfl, rfl⟩ (hp ▸ ⟨rfl, .inr rfl⟩) nofun fun _ => ?_
    exact mode_pos (hi.modeLegal hown)
  · rename_i hlast
    rw [hu.seq] at hlast
    refine hi.goesOn hu ⟨rfl, rfl, rfl, rfl, rfl⟩ (hp ▸ ⟨rfl, .inr rfl⟩) (fun _ => ?_) nofun
    simpa [hu.seq] using data_next_lt hc hlast

/-- The command ends after the last trailing pulse; before it CNT is still below MODE, which is readable
because the engine owns the lines. -/
theorem rowGood_tWaitL_inv (hi : EngineInv s) (hp : s.seq.phase = .tWaitL) (hu : AnsweredWell s u) :
    EngineInv (rowGood i .tWaitL b u) := by
  have hown : s.own = true := hi.frame_owned (by simpa [hp, phaseOps] using hi.row)
  have hc : s.seq.cnt.toNat < s.mode.toNat := hi.trailingCount (by rw [hp]; rfl)
  simp only [rowGood, modeValue_owned (hu.own.trans hown)]
  split
  · exact respond_inv (by rw [hu.own, hu.mode]; exact hi.modeLegal)
  · rename_i hlast
    rw [hu.seq, hu.mode] at hlast
    refine hi.goesOn hu ⟨rfl, rfl, rfl, rfl, rfl⟩ (hp ▸ ⟨rfl, .inr rfl⟩) nofun fun _ => ?_
    simpa [hu.seq] using trailing_next_lt hc hlast

theorem rowGood_inv (hi : EngineInv s) (hph : s.seq.phase = ph) (hp : ph ≠ .idle)
    (hu : AnsweredWell s u) : EngineInv (rowGood i ph b u) := by
  have hmode : u.own = true → u.mode ≠ 0b00#2 := by rw [hu.own, hu.mode]; exact hi.modeLegal
  have hsame {t : State} (ht : GoesOn u t) (hcnt : t.seq.cnt = u.seq.cnt)
      (hf : Follows ph t.seq.phase) (hdata : isDataPhase t.seq.phase = true → isDataPhase ph = true)
      (htrailing : isTrailingPhase t.seq.phase = true → isTrailingPhase ph = true) : EngineInv t :=
    hi.goesOn_of_cnt hu ht (hph ▸ hf) hcnt (hph ▸ hdata) (hph ▸ htrailing)
  cases ph with
  | idle => exact absurd rfl hp
  | nLow => exact respond_inv fun _ => (by decide : M1 ≠ 0b00#2)
  | eLow | dHold | xLow => exact respond_inv hmode
  | gRdy =>
    cases b with
    | low => exact hsame ⟨rfl, rfl, rfl, rfl, rfl⟩ rfl ⟨rfl, .inr rfl⟩ nofun nofun
    | high =>
      simp only [rowGood]
      split
      · exact respond_inv hmode
      · exact hsame ⟨rfl, rfl, rfl, rfl, rfl⟩ rfl ⟨rfl, .inl rfl⟩ nofun nofun
  | gSetup =>
    have hf : Follows s.seq.phase .bHigh := hph ▸ ⟨rfl, .inr rfl⟩
    exact hi.goesOn hu ⟨rfl, rfl, rfl, rfl, rfl⟩ hf (fun _ => (by decide : (0#5).toNat < 24)) nofun
  | bWaitL => exact rowGood_bWaitL_inv hi hph hu
  | tWaitL => exact rowGood_tWaitL_inv hi hph hu
  | _ => exact hsame ⟨rfl, rfl, rfl, rfl, rfl⟩ rfl ⟨rfl, .inr rfl⟩ id id

/-! ### A step -/

/-- An event of a busy command keeps the invariant: it waits in its phase, it faults, or its row is
good. -/
theorem rowStep_inv (hi : EngineInv s) (hp : s.seq.phase ≠ .idle) : EngineInv (rowStep i s) := by
  have hheld (h : ∀ l, s.request ≠ some (.lineWrite l)) (l : Level)
      (hl : levelAfter s.seq.phase = some l) : s.sck = l :=
    hi.level l (levelAfter_no_write h ▸ hl)
  apply rowStep_rule
  case wait => exact fun _ => hi
  case write =>
    intro l rest hq _
    refine rowGood_inv hi rfl hp ⟨rfl, rfl, rfl, pendingOp_append .., fun k hk => ?_⟩
    exact Option.some.inj ((levelAfter_write hq).symm.trans hk)
  case writeFault => exact fun _ _ _ _ _ => respond_inv hi.modeLegal
  case read =>
    exact fun _ _ hq _ =>
      rowGood_inv hi rfl hp ⟨rfl, rfl, rfl, pendingOp_append .., hheld (by simp [hq])⟩
  case readFault => exact fun _ _ _ _ => respond_inv hi.modeLegal
  case wait_done =>
    exact fun _ _ hq _ =>
      rowGood_inv hi rfl hp ⟨rfl, rfl, rfl, pendingOp_append .., hheld (by simp [hq])⟩

/-- The invariant does not look at the words still offered. -/
theorem EngineInv.takeWord (hi : EngineInv s) (ws : List CmdWord) : EngineInv { s with cmds := ws } :=
  ⟨hi.row, hi.newUnowned, hi.otherOwned, hi.modeLegal, hi.dataCount, hi.trailingCount, hi.level,
    hi.pending⟩

/-- Settles O22: by what the step was, a reset, a wait, the acceptance of a legal command, or an event
of the command in progress. -/
theorem stepKeepsInv : Obligations.StepKeepsInv := by
  intro s t hi hs
  by_cases hp : s.seq.phase = .idle
  · rcases idle_step_cases hp hs with ⟨_, rfl⟩ | ⟨_, _, rfl⟩ | ⟨_, w, ws, i, _, _, hl, rfl⟩
    · exact takeRst_inv _
    · exact hi.tick
    · exact accepted_inv (hi.tick.takeWord ws) hl
  · rcases busy_step_cases hp hs with ⟨_, rfl⟩ | ⟨_, i, _, _, rfl⟩
    · exact takeRst_inv _
    · exact rowStep_inv hi.tick hp

end Sys2Proof.Machine
end

section
/-!
SUPPORT. The command words as `op` above `mode` (spec/30_encoding.md R80): a word is its two fields, the
encoder writes the fields of the command, and the decoder reads them back.
-/

namespace Sys2Proof.Machine

variable {i : Instr} {w : CmdWord}

/-! ### The two fields of a word -/

/-- The `op` field of the encoded word is the command's number in the table of R81. -/
@[simp] theorem opField_encode : opField (encode i) = encodeOp i := by
  cases i with
  | new => exact Laws.EncodeOpField.new
  | enable => exact Laws.EncodeOpField.enable
  | disable => exact Laws.EncodeOpField.disable
  | retrieve => exact Laws.EncodeOpField.retrieve
  | setMode m => exact Laws.EncodeOpField.setMode m
  | reset => exact Laws.EncodeOpField.reset
  | destroy => exact Laws.EncodeOpField.destroy
  | reservedOp7 m => exact Laws.EncodeOpField.reservedOp7 m
  | reservedSetMode0 => exact Laws.EncodeOpField.reservedSetMode0

/-- A word is its two fields, `op` above `mode`. -/
theorem opField_append_modeField : opField w ++ modeField w = w := by
  revert w
  decide

/-- A command with the fields of a word is encoded as that word. -/
theorem encode_eq_of_fields (hop : encodeOp i = opField w) (hm : encodeMode i = modeField w) :
    encode i = w := by
  rw [encode, hop, hm, opField_append_modeField]

/-! ### The round trip -/

/-- The decoder gives back every command but SET_MODE with the operand 0, whose word is the reserved
one (R84). -/
theorem decode_encode (h : i ≠ .setMode 0b00#2) : decode (encode i) = .ok i := by
  cases i with
  | setMode m =>
    have hm : m ≠ 0b00#2 := fun hm => h (by rw [hm])
    simp [decode, decodeIn, encodeOp, modeField_encode, encodeMode, hm]
  | _ => simp [decode, decodeIn, encodeOp, modeField_encode, encodeMode, Config.params]

theorem ne_setMode_zero_of_wellFormed (h : i.wellFormed = true) : i ≠ .setMode 0b00#2 := by
  rintro rfl
  cases h

/-- The decoder keeps `op`: it tells the first seven numbers apart, and the one left is 0b111. -/
theorem encodeOp_of_decode (h : decode w = .ok i) : encodeOp i = opField w := by
  unfold decode decodeIn at h
  split_ifs at h with h0 h1 h2 h3 h4 hm h5 _ h6 _ <;> cases h
  · exact h0.symm
  · exact h1.symm
  · exact h2.symm
  · exact h3.symm
  · exact h4.symm
  · exact h4.symm
  · exact h5.symm
  · exact h6.symm
  · change 0b111#3 = opField w
    bv_omega

theorem decode_of_setMode_op (hw : opField w = 0b100#3) : decode w =
    if modeField w = 0b00#2 then .ok .reservedSetMode0 else .ok (.setMode (modeField w)) := by
  simp [decode, decodeIn, hw]

theorem decode_of_reserved_op (hw : opField w = 0b111#3) :
    decode w = .ok (.reservedOp7 (modeField w)) := by
  simp [decode, decodeIn, hw]

/-- The decoder keeps `mode` where it means something. -/
theorem encodeMode_of_decode (h : decode w = .ok i)
    (hw : opField w = 0b100#3 ∨ opField w = 0b111#3) : encodeMode i = modeField w := by
  rcases hw with hw | hw
  · rw [decode_of_setMode_op hw] at h
    split at h <;> cases h
    · exact Eq.symm ‹_›
    · rfl
  · cases (decode_of_reserved_op hw).symm.trans h
    rfl

/-- Settles O2: the encoder writes the two fields of the command, and the decoder reads them. -/
theorem decodeEncodeAgree : Obligations.DecodeEncodeAgree := by
  refine ⟨fun i h => decode_encode (ne_setMode_zero_of_wellFormed h), fun m => decode_encode nofun,
    decode_encode nofun, fun w i h => ⟨?_, fun hw => ?_⟩⟩
  · exact opField_encode.trans (encodeOp_of_decode h)
  · exact encode_eq_of_fields (encodeOp_of_decode h) (encodeMode_of_decode h hw)

/-- Settles O1: the 32 words and the nine canonical ones are evaluated one by one. -/
theorem decodeGivesTableOfWords : Obligations.DecodeGivesTableOfWords := by
  constructor
  · decide
  · decide

end Sys2Proof.Machine
end

section
/-!
SUPPORT. What a step does with the request outstanding (spec/20_memory.md R51 to R54, R63), and when
there is a step at all (spec/60_exceptions.md R173): a row takes the next answer of the channel it
asks and records it as the one request it makes, an idle engine records none, and only a word offered
to an idle engine can stop the machine.
-/

namespace Sys2Proof.Machine

variable {i : Instr} {s t : State} {l : Level} {n : Nat}

/-! ### The answer to the request outstanding -/

theorem answer_of_write {a : WriteAnswer} {rest : Answers WriteAnswer}
    (hq : s.request = some (.lineWrite l)) (hn : nextWrite s.writeAns = some (a, rest)) :
    s.channels.answer s.request = some (.lineWrite l a) := by
  simp [hq, Channels.answer, State.channels, hn]

theorem answer_of_read {a : ReadAnswer} {rest : Answers ReadAnswer}
    (hq : s.request = some .lineRead) (hn : nextRead s.readAns = some (a, rest)) :
    s.channels.answer s.request = some (.lineRead a) := by
  simp [hq, Channels.answer, State.channels, hn]

theorem answer_of_delay {u : Unit} {rest : Answers Unit} (hq : s.request = some (.delay n))
    (hn : nextDelay s.delayAns = some (u, rest)) :
    s.channels.answer s.request = some (.delay n) := by
  simp [hq, Channels.answer, State.channels, hn]

theorem Unanswered.answer_eq_none (h : Unanswered s) : s.channels.answer s.request = none := by
  rcases h with ⟨l, hq, hn⟩ | ⟨hq, hn⟩ | ⟨n, hq, hn⟩ <;>
    simp [hq, Channels.answer, State.channels, hn]

/-- A channel that is asked gives its next answer and is left with the ones after it, or, with none to
come, the engine waits. -/
theorem waits_or_answered {α : Type} {next : Answers α → Option (α × Answers α)} {o o' : Answers α}
    {P : Prop} {Q : α → Prop} (wait : next o = none → P) (left : o' = o.rest next)
    (good : ∀ a rest, next o = some (a, rest) → Q a) :
    (next o = none ∧ P) ∨ ∃ a rest, next o = some (a, rest) ∧ o' = rest ∧ Q a := by
  rcases hn : next o with _ | ⟨a, rest⟩
  · exact .inl ⟨rfl, wait hn⟩
  · exact .inr ⟨a, rest, rfl, by simp [left, Answers.rest, hn], good a rest hn⟩

/-! ### The request a step records -/

/-- A trace with the answered request at its end. -/
theorem requests_of_answer {e : Event} (he : e.isRequest = true) (ht : t.trace = s.trace ++ [e])
    (ha : s.channels.answer s.request = some e) :
    requests t.trace = requests s.trace ++ (s.channels.answer s.request).toList := by
  rw [ht, ha, requests_append]
  simp [requests, he]

/-- A row records its answered request, and no other (R60). -/
theorem rowStep_requests : requests (rowStep i s).trace =
    requests s.trace ++ (s.channels.answer s.request).toList := by
  apply rowStep_rule (P := fun t => requests t.trace = _)
  case wait =>
    intro h
    have ha : s.channels.answer s.request = none := by
      rcases h with h | h | h | h
      · exact Unanswered.answer_eq_none (.inl h)
      · exact Unanswered.answer_eq_none (.inr (.inl h))
      · exact Unanswered.answer_eq_none (.inr (.inr h))
      · rw [h]; rfl
    simp [ha]
  case write =>
    exact fun _ _ hq hn =>
      (rowGood_requests ..).trans (requests_of_answer rfl rfl (answer_of_write hq hn))
  case writeFault =>
    exact fun _ _ _ hq hn =>
      (raiseLineFault_requests ..).trans (requests_of_answer rfl rfl (answer_of_write hq hn))
  case read =>
    exact fun _ _ hq hn =>
      (rowGood_requests ..).trans (requests_of_answer rfl rfl (answer_of_read hq hn))
  case readFault =>
    exact fun _ _ hq hn =>
      (raiseLineFault_requests ..).trans (requests_of_answer rfl rfl (answer_of_read hq hn))
  case wait_done =>
    exact fun _ _ hq hn =>
      (rowGood_requests ..).trans (requests_of_answer rfl rfl (answer_of_delay hq hn))

/-- A step of an idle engine records no request and takes no answer. -/
theorem idle_step_requests (hp : s.seq.phase = .idle) (h : step s = .next t) :
    requests t.trace = requests s.trace ∧ t.channels = s.channels := by
  rcases idle_step_cases hp h with ⟨_, rfl⟩ | ⟨_, _, rfl⟩ | ⟨_, w, ws, i, _, _, _, rfl⟩
  · exact ⟨takeRst_requests s.tick, rfl⟩
  · exact ⟨rfl, rfl⟩
  · exact ⟨accepted_requests .., by simp [State.channels]⟩

/-- Settles O14: by the request outstanding, from the channels a row leaves and the request it
records; where no answer is to come the row waits. -/
theorem eachStepAnswersTheOutstandingRequest :
    Obligations.EachStepAnswersTheOutstandingRequest := by
  refine ⟨fun s ho hr hp => ?_, fun s t hp h => ?_⟩
  · obtain ⟨i, -, -, hs⟩ := step_row ho hp hr
    have hleft : (rowStep i s.tick).channels = s.channels.left s.request := rowStep_channels
    have hreq : requests (rowStep i s.tick).trace =
        requests s.trace ++ (s.channels.answer s.request).toList := rowStep_requests
    have hwait (h : Unanswered s) : rowStep i s.tick = s.tick :=
      Unanswered.rowStep_eq (s := s.tick) h
    refine ⟨rowStep i s.tick, hs, ?_⟩
    rcases hq : s.request with _ | l | _ | n <;> rw [hq] at hleft
    · exact absurd (request_eq_none.mp hq) hp
    · refine .inl ⟨l, rfl, congrArg Channels.read hleft, congrArg Channels.delay hleft, ?_⟩
      exact waits_or_answered (fun hn => hwait (.inl ⟨l, hq, hn⟩)) (congrArg Channels.write hleft)
        fun a rest hn => by rw [hreq, answer_of_write hq hn]; rfl
    · refine .inr (.inl ⟨rfl, congrArg Channels.write hleft, congrArg Channels.delay hleft, ?_⟩)
      exact waits_or_answered (fun hn => hwait (.inr (.inl ⟨hq, hn⟩))) (congrArg Channels.read hleft)
        fun a rest hn => by rw [hreq, answer_of_read hq hn]; rfl
    · refine .inr (.inr ⟨n, rfl, congrArg Channels.write hleft, congrArg Channels.read hleft, ?_⟩)
      refine (waits_or_answered (fun hn => hwait (.inr (.inr ⟨n, hq, hn⟩)))
        (congrArg Channels.delay hleft) fun u rest hn => ?_).imp_right fun ⟨_, h⟩ => h
      rw [hreq, answer_of_delay hq hn]
      rfl
  · obtain ⟨hreq, hch⟩ := idle_step_requests hp h
    exact ⟨hreq, congrArg Channels.write hch, congrArg Channels.read hch,
      congrArg Channels.delay hch⟩

/-! ### When there is a step -/

/-- An idle engine stops at no word of a legal command. -/
theorem idle_step_next (hr : s.rstNow = false) (hp : s.seq.phase = .idle) (hd : HostKeepsDuty s) :
    ∃ t, step s = .next t := by
  rcases hc : s.cmds with _ | ⟨w, ws⟩
  · exact ⟨_, step_waits_for_command hr hp hc⟩
  · obtain ⟨i, hi, hl⟩ := hd hp w ws hc
    exact ⟨_, (step_accepts hr hp hc hi).trans (exec_idle hp hl)⟩

/-- Settles O27: `rst` is always taken, an idle engine waits or accepts, and a busy one is in a row of
the table, which always gives a next state. -/
theorem stepStopsOnlyAtIllegalCommand : Obligations.StepStopsOnlyAtIllegalCommand := by
  intro s hi hd
  cases hr : s.rstNow with
  | true => exact ⟨_, step_reset hr⟩
  | false =>
    by_cases hp : s.seq.phase = .idle
    · exact idle_step_next hr hp hd
    · obtain ⟨i, -, -, hs⟩ := step_row hi.row hp hr
      exact ⟨_, hs⟩

end Sys2Proof.Machine
end
